-- ==== Sys2Proof/Word.lean ====
section
/-! DEFINITION. The widths of the Signetics 2650: bytes, 15-bit addresses, the 13-bit offset inside a page and the
2-bit page number (00_scope rule R4, 20_memory rule R40). -/

namespace Sys2Proof

/-- A data byte (00_scope R4: "parallel 8-bit binary processor"). -/
abbrev Byte := BitVec 8

/-- A 15-bit memory address, page in bits 14 and 13, offset in bits 12 to 0 (20_memory R40). -/
abbrev Addr := BitVec 15

/-- The 13-bit offset inside a page of 8,192 bytes. -/
abbrev Offset := BitVec 13

/-- The number of one of the four pages. -/
abbrev PageNo := BitVec 2

end Sys2Proof
end

