-- ==== Sys2Proof/Syntax.lean ====
section
/-! DEFINITION. The syntax of the 2650: one constructor of `Instr` for each of the 75 rows of spec/opcode_table.json
(30_encoding rule R84), with its operands as decoded data (30_encoding rules R72 to R80). -/

namespace Sys2Proof

/-- A register number 0 to 3 as an instruction names it: 0 is R0, 1 to 3 are in the bank that PSL.RS selects
(10_state R11, 30_encoding R73). -/
inductive Reg where
  | r0 | r1 | r2 | r3
deriving DecidableEq, Repr

/-- The 2-bit condition field of a conditional branch or return: a code to compare with CC, or 3 (45_branch R165). -/
abbrev Cond := BitVec 2

/-- The index control of format A, byte 1 bits 6 and 5 (30_encoding R78). -/
inductive IndexControl where
  /-- 00: not indexed. -/
  | none
  /-- 01: indexed with auto-increment. -/
  | autoInc
  /-- 10: indexed with auto-decrement. -/
  | autoDec
  /-- 11: indexed only. -/
  | indexed
deriving DecidableEq, Repr

/-- Operand of format R (and of ZBRR, ZBSR): the indirect bit and the 7-bit displacement (30_encoding R76). -/
structure RelArg where
  ind : Bool
  disp : BitVec 7
deriving DecidableEq, Repr

/-- Operand of format A: indirect bit, index control and 13-bit address (30_encoding R77). -/
structure AbsArg where
  ind : Bool
  ctl : IndexControl
  addr : Offset
deriving DecidableEq, Repr

/-- Operand of format B: indirect bit and 15-bit address (30_encoding R79). -/
structure BraArg where
  ind : Bool
  addr : Addr
deriving DecidableEq, Repr

/-- The 75 instructions of 30_encoding R84. -/
inductive Instr where
  -- Load and store: 40_load_store R101 to R107
  | lodz (r : Reg)
  | lodi (r : Reg) (v : Byte)
  | lodr (r : Reg) (o : RelArg)
  | loda (r : Reg) (o : AbsArg)
  | strz (r : Reg)
  | strr (r : Reg) (o : RelArg)
  | stra (r : Reg) (o : AbsArg)
  -- Arithmetic: 41_arithmetic R112 to R120
  | addz (r : Reg)
  | addi (r : Reg) (v : Byte)
  | addr (r : Reg) (o : RelArg)
  | adda (r : Reg) (o : AbsArg)
  | subz (r : Reg)
  | subi (r : Reg) (v : Byte)
  | subr (r : Reg) (o : RelArg)
  | suba (r : Reg) (o : AbsArg)
  | dar (r : Reg)
  -- Logical: 42_logical R126 to R137
  | andz (r : Reg)
  | andi (r : Reg) (v : Byte)
  | andr (r : Reg) (o : RelArg)
  | anda (r : Reg) (o : AbsArg)
  | iorz (r : Reg)
  | iori (r : Reg) (v : Byte)
  | iorr (r : Reg) (o : RelArg)
  | iora (r : Reg) (o : AbsArg)
  | eorz (r : Reg)
  | eori (r : Reg) (v : Byte)
  | eorr (r : Reg) (o : RelArg)
  | eora (r : Reg) (o : AbsArg)
  -- Compare and rotate: 43_compare_rotate R141 to R147
  | comz (r : Reg)
  | comi (r : Reg) (v : Byte)
  | comr (r : Reg) (o : RelArg)
  | coma (r : Reg) (o : AbsArg)
  | rrr (r : Reg)
  | rrl (r : Reg)
  -- Program status: 44_program_status R150 to R160
  | lpsu
  | lpsl
  | spsu
  | spsl
  | ppsu (v : Byte)
  | ppsl (v : Byte)
  | cpsu (v : Byte)
  | cpsl (v : Byte)
  | tpsu (v : Byte)
  | tpsl (v : Byte)
  -- Branch: 45_branch R167 to R180
  | bctr (c : Cond) (o : RelArg)
  | bcta (c : Cond) (o : BraArg)
  | bcfr (c : Cond) (o : RelArg)
  | bcfa (c : Cond) (o : BraArg)
  | brnr (r : Reg) (o : RelArg)
  | brna (r : Reg) (o : BraArg)
  | birr (r : Reg) (o : RelArg)
  | bira (r : Reg) (o : BraArg)
  | bdrr (r : Reg) (o : RelArg)
  | bdra (r : Reg) (o : BraArg)
  | bxa (o : BraArg)
  | zbrr (o : RelArg)
  -- Subroutine branch and return: 46_subroutine R186 to R195
  | bstr (c : Cond) (o : RelArg)
  | bsta (c : Cond) (o : BraArg)
  | bsfr (c : Cond) (o : RelArg)
  | bsfa (c : Cond) (o : BraArg)
  | bsnr (r : Reg) (o : RelArg)
  | bsna (r : Reg) (o : BraArg)
  | bsxa (o : BraArg)
  | zbsr (o : RelArg)
  | retc (c : Cond)
  | rete (c : Cond)
  -- Input and output: 47_io R202 to R207
  | redd (r : Reg)
  | redc (r : Reg)
  | rede (r : Reg) (v : Byte)
  | wrtd (r : Reg)
  | wrtc (r : Reg)
  | wrte (r : Reg) (v : Byte)
  -- Miscellaneous: 48_misc R210 to R212
  | halt
  | nop
  | tmi (r : Reg) (v : Byte)
deriving DecidableEq, Repr

end Sys2Proof
end

