-- ==== Sys2Proof/WellFormed.lean ====
section
/-! DEFINITION. Which terms of `Instr` are instructions: the terms that some byte sequence of 30_encoding rule R85
encodes. -/

namespace Sys2Proof

/-- An instruction that has an encoding. LODZ, STRZ and ANDZ do not exist for register 0, whose codes are the
indeterminate 0x00, NOP and HALT (30_encoding R86, R87); BCFR, BCFA, BSFR and BSFA do not exist for condition 3, whose
codes are ZBRR, BXA, ZBSR and BSXA (45_branch R165). Every other operand value is legal (30_encoding R86 (c)). -/
def Instr.wf : Instr → Bool
  | .lodz r => r != .r0
  | .lodi _ _ => true
  | .lodr _ _ => true
  | .loda _ _ => true
  | .strz r => r != .r0
  | .strr _ _ => true
  | .stra _ _ => true
  | .addz _ => true
  | .addi _ _ => true
  | .addr _ _ => true
  | .adda _ _ => true
  | .subz _ => true
  | .subi _ _ => true
  | .subr _ _ => true
  | .suba _ _ => true
  | .dar _ => true
  | .andz r => r != .r0
  | .andi _ _ => true
  | .andr _ _ => true
  | .anda _ _ => true
  | .iorz _ => true
  | .iori _ _ => true
  | .iorr _ _ => true
  | .iora _ _ => true
  | .eorz _ => true
  | .eori _ _ => true
  | .eorr _ _ => true
  | .eora _ _ => true
  | .comz _ => true
  | .comi _ _ => true
  | .comr _ _ => true
  | .coma _ _ => true
  | .rrr _ => true
  | .rrl _ => true
  | .lpsu => true
  | .lpsl => true
  | .spsu => true
  | .spsl => true
  | .ppsu _ => true
  | .ppsl _ => true
  | .cpsu _ => true
  | .cpsl _ => true
  | .tpsu _ => true
  | .tpsl _ => true
  | .bctr _ _ => true
  | .bcta _ _ => true
  | .bcfr c _ => c != 3
  | .bcfa c _ => c != 3
  | .brnr _ _ => true
  | .brna _ _ => true
  | .birr _ _ => true
  | .bira _ _ => true
  | .bdrr _ _ => true
  | .bdra _ _ => true
  | .bxa _ => true
  | .zbrr _ => true
  | .bstr _ _ => true
  | .bsta _ _ => true
  | .bsfr c _ => c != 3
  | .bsfa c _ => c != 3
  | .bsnr _ _ => true
  | .bsna _ _ => true
  | .bsxa _ => true
  | .zbsr _ => true
  | .retc _ => true
  | .rete _ => true
  | .redd _ => true
  | .redc _ => true
  | .rede _ _ => true
  | .wrtd _ => true
  | .wrtc _ => true
  | .wrte _ _ => true
  | .halt => true
  | .nop => true
  | .tmi _ _ => true

end Sys2Proof
end

