-- ==== Sys2Proof/Decode.lean ====
section
/-! DEFINITION. Decoding of instruction bytes (30_encoding rules R70 to R88), total and refusing by name, and the encoder
(30_encoding rules R72 to R85). -/

namespace Sys2Proof

/-! ## Fields of the instruction bytes -/

/-- The register number in a 2-bit field (30_encoding R73). -/
def regOfBits (b : BitVec 2) : Reg :=
  if b = 0 then .r0 else if b = 1 then .r1 else if b = 2 then .r2 else .r3

/-- The 2-bit field of a register number (30_encoding R73). -/
def regBits : Reg → BitVec 2
  | .r0 => 0
  | .r1 => 1
  | .r2 => 2
  | .r3 => 3

/-- The index control in byte 1 bits 6 and 5 (30_encoding R78). -/
def indexControlOfBits (b : BitVec 2) : IndexControl :=
  if b = 0 then .none else if b = 1 then .autoInc else if b = 2 then .autoDec else .indexed

/-- The 2-bit field of an index control (30_encoding R78). -/
def indexControlBits : IndexControl → BitVec 2
  | .none => 0
  | .autoInc => 1
  | .autoDec => 2
  | .indexed => 3

/-- Byte 1 of format R: bit 7 the indirect bit, bits 6 to 0 the displacement (30_encoding R76). -/
def relArg (b1 : Byte) : RelArg :=
  { ind := b1.getLsbD 7, disp := b1.extractLsb' 0 7 }

/-- Bytes 1 and 2 of format A (30_encoding R77). -/
def absArg (b1 b2 : Byte) : AbsArg :=
  { ind := b1.getLsbD 7
    ctl := indexControlOfBits (b1.extractLsb' 5 2)
    addr := (b1.extractLsb' 0 5 ++ b2 : BitVec (5 + 8)) }

/-- Bytes 1 and 2 of format B (30_encoding R79). -/
def braArg (b1 b2 : Byte) : BraArg :=
  { ind := b1.getLsbD 7, addr := (b1.extractLsb' 0 7 ++ b2 : BitVec (7 + 8)) }

/-! ## Byte 0 -/

/-- Why bytes are no instruction. -/
inductive DecodeError where
  /-- Byte 0 is 0x00, which "yields indeterminate results" (30_encoding R86 (a)). -/
  | indeterminate
  /-- Byte 0 is one of the ten codes that are in no listing (30_encoding R86 (b)). -/
  | undefined (b : Byte)
  /-- The bytes end inside the instruction (a list shorter than byte 0 asks for; memory never is). -/
  | truncated
deriving DecidableEq, Repr

/-- What byte 0 decides: the instruction, or how many bytes are still to be fetched and what they give
(30_encoding R71, R88). -/
inductive Shape where
  | one (i : Instr)
  | two (f : Byte → Instr)
  | three (f : Byte → Byte → Instr)

/-- Class 0, register addressing, one byte (30_encoding R71, R81, R87). -/
def decodeClass0 (f : Nat) (r : Reg) : Except DecodeError Shape :=
  match f with
  | 0 => if r = .r0 then .error .indeterminate else .ok (.one (.lodz r))
  | 1 => .ok (.one (.eorz r))
  | 2 => .ok (.one (if r = .r0 then .halt else .andz r))
  | 3 => .ok (.one (.iorz r))
  | 4 => .ok (.one (.addz r))
  | 5 => .ok (.one (.subz r))
  | 6 => .ok (.one (if r = .r0 then .nop else .strz r))
  | _ => .ok (.one (.comz r))

/-- Class 1, immediate addressing, two bytes; there is no store immediate (30_encoding R75, R81). -/
def decodeClass1 (f : Nat) (b0 : Byte) (r : Reg) : Except DecodeError Shape :=
  match f with
  | 0 => .ok (.two (.lodi r))
  | 1 => .ok (.two (.eori r))
  | 2 => .ok (.two (.andi r))
  | 3 => .ok (.two (.iori r))
  | 4 => .ok (.two (.addi r))
  | 5 => .ok (.two (.subi r))
  | 6 => .error (.undefined b0)
  | _ => .ok (.two (.comi r))

/-- Class 2, relative addressing, two bytes (30_encoding R76, R81). -/
def decodeClass2 (f : Nat) (r : Reg) : Except DecodeError Shape :=
  match f with
  | 0 => .ok (.two fun b1 => .lodr r (relArg b1))
  | 1 => .ok (.two fun b1 => .eorr r (relArg b1))
  | 2 => .ok (.two fun b1 => .andr r (relArg b1))
  | 3 => .ok (.two fun b1 => .iorr r (relArg b1))
  | 4 => .ok (.two fun b1 => .addr r (relArg b1))
  | 5 => .ok (.two fun b1 => .subr r (relArg b1))
  | 6 => .ok (.two fun b1 => .strr r (relArg b1))
  | _ => .ok (.two fun b1 => .comr r (relArg b1))

/-- Class 3, absolute addressing of non-branch instructions, three bytes (30_encoding R77, R81). -/
def decodeClass3 (f : Nat) (r : Reg) : Except DecodeError Shape :=
  match f with
  | 0 => .ok (.three fun b1 b2 => .loda r (absArg b1 b2))
  | 1 => .ok (.three fun b1 b2 => .eora r (absArg b1 b2))
  | 2 => .ok (.three fun b1 b2 => .anda r (absArg b1 b2))
  | 3 => .ok (.three fun b1 b2 => .iora r (absArg b1 b2))
  | 4 => .ok (.three fun b1 b2 => .adda r (absArg b1 b2))
  | 5 => .ok (.three fun b1 b2 => .suba r (absArg b1 b2))
  | 6 => .ok (.three fun b1 b2 => .stra r (absArg b1 b2))
  | _ => .ok (.three fun b1 b2 => .coma r (absArg b1 b2))

/-- Class 4, control, one byte (30_encoding R85). -/
def decodeClass4 (f : Nat) (b0 : Byte) (r : Reg) : Except DecodeError Shape :=
  match f with
  | 0 => if r = .r2 then .ok (.one .spsu) else if r = .r3 then .ok (.one .spsl) else .error (.undefined b0)
  | 1 => .ok (.one (.redc r))
  | 2 => .ok (.one (.rrr r))
  | 3 => .ok (.one (.redd r))
  | 4 => if r = .r2 then .ok (.one .lpsu) else if r = .r3 then .ok (.one .lpsl) else .error (.undefined b0)
  | 5 => .ok (.one (.wrtc r))
  | 6 => .ok (.one (.rrl r))
  | _ => .ok (.one (.wrtd r))

/-- Class 5, control, one or two bytes (30_encoding R71, R85). -/
def decodeClass5 (f : Nat) (b0 : Byte) (r : Reg) (c : Cond) : Except DecodeError Shape :=
  match f with
  | 0 => .ok (.one (.retc c))
  | 1 => .ok (.one (.rete c))
  | 2 => .ok (.two (.rede r))
  | 3 => if r = .r0 then .ok (.two .cpsu) else if r = .r1 then .ok (.two .cpsl)
         else if r = .r2 then .ok (.two .ppsu) else .ok (.two .ppsl)
  | 4 => .ok (.one (.dar r))
  | 5 => if r = .r0 then .ok (.two .tpsu) else if r = .r1 then .ok (.two .tpsl) else .error (.undefined b0)
  | 6 => .ok (.two (.wrte r))
  | _ => .ok (.two (.tmi r))

/-- Class 6, relative branches, two bytes (30_encoding R76, R81). -/
def decodeClass6 (f : Nat) (r : Reg) (c : Cond) : Except DecodeError Shape :=
  match f with
  | 0 => .ok (.two fun b1 => .bctr c (relArg b1))
  | 1 => .ok (.two fun b1 => .bstr c (relArg b1))
  | 2 => .ok (.two fun b1 => .brnr r (relArg b1))
  | 3 => .ok (.two fun b1 => .bsnr r (relArg b1))
  | 4 => .ok (.two fun b1 => if c = 3 then .zbrr (relArg b1) else .bcfr c (relArg b1))
  | 5 => .ok (.two fun b1 => if c = 3 then .zbsr (relArg b1) else .bsfr c (relArg b1))
  | 6 => .ok (.two fun b1 => .birr r (relArg b1))
  | _ => .ok (.two fun b1 => .bdrr r (relArg b1))

/-- Class 7, absolute branches, three bytes (30_encoding R79, R81). -/
def decodeClass7 (f : Nat) (r : Reg) (c : Cond) : Except DecodeError Shape :=
  match f with
  | 0 => .ok (.three fun b1 b2 => .bcta c (braArg b1 b2))
  | 1 => .ok (.three fun b1 b2 => .bsta c (braArg b1 b2))
  | 2 => .ok (.three fun b1 b2 => .brna r (braArg b1 b2))
  | 3 => .ok (.three fun b1 b2 => .bsna r (braArg b1 b2))
  | 4 => .ok (.three fun b1 b2 => if c = 3 then .bxa (braArg b1 b2) else .bcfa c (braArg b1 b2))
  | 5 => .ok (.three fun b1 b2 => if c = 3 then .bsxa (braArg b1 b2) else .bsfa c (braArg b1 b2))
  | 6 => .ok (.three fun b1 b2 => .bira r (braArg b1 b2))
  | _ => .ok (.three fun b1 b2 => .bdra r (braArg b1 b2))

/-- Decoding of byte 0, total (30_encoding R88): function field bits 7 to 5, class field bits 4 to 2, register or
condition field bits 1 and 0 (30_encoding R70). -/
def decodeFirst (b0 : Byte) : Except DecodeError Shape :=
  let f := (b0.extractLsb' 5 3).toNat
  let c : Cond := b0.extractLsb' 0 2
  let r := regOfBits c
  match (b0.extractLsb' 2 3).toNat with
  | 0 => decodeClass0 f r
  | 1 => decodeClass1 f b0 r
  | 2 => decodeClass2 f r
  | 3 => decodeClass3 f r
  | 4 => decodeClass4 f b0 r
  | 5 => decodeClass5 f b0 r c
  | 6 => decodeClass6 f r c
  | _ => decodeClass7 f r c

/-- The instruction at the head of a list of bytes, in the order of their addresses, with the bytes after it
(30_encoding R70, R88). -/
def decode : List Byte → Except DecodeError (Instr × List Byte)
  | [] => .error .truncated
  | b0 :: rest =>
    match decodeFirst b0 with
    | .error e => .error e
    | .ok (.one i) => .ok (i, rest)
    | .ok (.two f) =>
      match rest with
      | b1 :: rest => .ok (f b1, rest)
      | [] => .error .truncated
    | .ok (.three f) =>
      match rest with
      | b1 :: b2 :: rest => .ok (f b1 b2, rest)
      | _ => .error .truncated

/-- Byte `k` of a number whose bit 0 is the least significant bit of byte 0. -/
def tableByte (w k : Nat) : Byte :=
  BitVec.ofNat 8 (w / 256 ^ k)

/-- The instruction that `decode` reads from the `nbits` low bits of `w`, byte 0 first, zeros after them, up to the
longest instruction (three bytes). -/
def decodeTableWord (nbits w : Nat) : Option Instr :=
  let w := w % 2 ^ nbits
  match decode [tableByte w 0, tableByte w 1, tableByte w 2] with
  | .ok (i, _) => some i
  | .error _ => none

/-! ## The encoder -/

/-- Byte 0 from its function, class and register or condition fields (30_encoding R70, R81). -/
def firstByte (f c : BitVec 3) (r : BitVec 2) : Byte :=
  (f ++ c ++ r : BitVec (3 + 3 + 2))

/-- Byte 1 of format R (30_encoding R76). -/
def relByte (o : RelArg) : Byte :=
  (BitVec.ofBool o.ind ++ o.disp : BitVec (1 + 7))

/-- Byte 1 of format A (30_encoding R77). -/
def absByte1 (o : AbsArg) : Byte :=
  (BitVec.ofBool o.ind ++ indexControlBits o.ctl ++ o.addr.extractLsb' 8 5 : BitVec (1 + 2 + 5))

/-- Byte 1 of format B (30_encoding R79). -/
def braByte1 (o : BraArg) : Byte :=
  (BitVec.ofBool o.ind ++ o.addr.extractLsb' 8 7 : BitVec (1 + 7))

/-- An instruction of format Z. -/
def encodeZ (f c : BitVec 3) (r : BitVec 2) : List Byte := [firstByte f c r]

/-- An instruction of format I or EI. -/
def encodeI (f c : BitVec 3) (r : BitVec 2) (v : Byte) : List Byte := [firstByte f c r, v]

/-- An instruction of format R or ER. -/
def encodeR (f c : BitVec 3) (r : BitVec 2) (o : RelArg) : List Byte := [firstByte f c r, relByte o]

/-- An instruction of format A. -/
def encodeA (f c : BitVec 3) (r : BitVec 2) (o : AbsArg) : List Byte :=
  [firstByte f c r, absByte1 o, o.addr.extractLsb' 0 8]

/-- An instruction of format B or EB. -/
def encodeB (f c : BitVec 3) (r : BitVec 2) (o : BraArg) : List Byte :=
  [firstByte f c r, braByte1 o, o.addr.extractLsb' 0 8]

/-- The bytes of an instruction, byte 0 first (30_encoding R84, R85). It is meant for well-formed instructions. -/
def encode : Instr → List Byte
  | .lodz r => encodeZ 0 0 (regBits r)
  | .lodi r v => encodeI 0 1 (regBits r) v
  | .lodr r o => encodeR 0 2 (regBits r) o
  | .loda r o => encodeA 0 3 (regBits r) o
  | .strz r => encodeZ 6 0 (regBits r)
  | .strr r o => encodeR 6 2 (regBits r) o
  | .stra r o => encodeA 6 3 (regBits r) o
  | .addz r => encodeZ 4 0 (regBits r)
  | .addi r v => encodeI 4 1 (regBits r) v
  | .addr r o => encodeR 4 2 (regBits r) o
  | .adda r o => encodeA 4 3 (regBits r) o
  | .subz r => encodeZ 5 0 (regBits r)
  | .subi r v => encodeI 5 1 (regBits r) v
  | .subr r o => encodeR 5 2 (regBits r) o
  | .suba r o => encodeA 5 3 (regBits r) o
  | .dar r => encodeZ 4 5 (regBits r)
  | .andz r => encodeZ 2 0 (regBits r)
  | .andi r v => encodeI 2 1 (regBits r) v
  | .andr r o => encodeR 2 2 (regBits r) o
  | .anda r o => encodeA 2 3 (regBits r) o
  | .iorz r => encodeZ 3 0 (regBits r)
  | .iori r v => encodeI 3 1 (regBits r) v
  | .iorr r o => encodeR 3 2 (regBits r) o
  | .iora r o => encodeA 3 3 (regBits r) o
  | .eorz r => encodeZ 1 0 (regBits r)
  | .eori r v => encodeI 1 1 (regBits r) v
  | .eorr r o => encodeR 1 2 (regBits r) o
  | .eora r o => encodeA 1 3 (regBits r) o
  | .comz r => encodeZ 7 0 (regBits r)
  | .comi r v => encodeI 7 1 (regBits r) v
  | .comr r o => encodeR 7 2 (regBits r) o
  | .coma r o => encodeA 7 3 (regBits r) o
  | .rrr r => encodeZ 2 4 (regBits r)
  | .rrl r => encodeZ 6 4 (regBits r)
  | .lpsu => encodeZ 4 4 2
  | .lpsl => encodeZ 4 4 3
  | .spsu => encodeZ 0 4 2
  | .spsl => encodeZ 0 4 3
  | .ppsu v => encodeI 3 5 2 v
  | .ppsl v => encodeI 3 5 3 v
  | .cpsu v => encodeI 3 5 0 v
  | .cpsl v => encodeI 3 5 1 v
  | .tpsu v => encodeI 5 5 0 v
  | .tpsl v => encodeI 5 5 1 v
  | .bctr c o => encodeR 0 6 c o
  | .bcta c o => encodeB 0 7 c o
  | .bcfr c o => encodeR 4 6 c o
  | .bcfa c o => encodeB 4 7 c o
  | .brnr r o => encodeR 2 6 (regBits r) o
  | .brna r o => encodeB 2 7 (regBits r) o
  | .birr r o => encodeR 6 6 (regBits r) o
  | .bira r o => encodeB 6 7 (regBits r) o
  | .bdrr r o => encodeR 7 6 (regBits r) o
  | .bdra r o => encodeB 7 7 (regBits r) o
  | .bxa o => encodeB 4 7 3 o
  | .zbrr o => encodeR 4 6 3 o
  | .bstr c o => encodeR 1 6 c o
  | .bsta c o => encodeB 1 7 c o
  | .bsfr c o => encodeR 5 6 c o
  | .bsfa c o => encodeB 5 7 c o
  | .bsnr r o => encodeR 3 6 (regBits r) o
  | .bsna r o => encodeB 3 7 (regBits r) o
  | .bsxa o => encodeB 5 7 3 o
  | .zbsr o => encodeR 5 6 3 o
  | .retc c => encodeZ 0 5 c
  | .rete c => encodeZ 1 5 c
  | .redd r => encodeZ 3 4 (regBits r)
  | .redc r => encodeZ 1 4 (regBits r)
  | .rede r v => encodeI 2 5 (regBits r) v
  | .wrtd r => encodeZ 7 4 (regBits r)
  | .wrtc r => encodeZ 5 4 (regBits r)
  | .wrte r v => encodeI 6 5 (regBits r) v
  | .halt => encodeZ 2 0 0
  | .nop => encodeZ 6 0 0
  | .tmi r v => encodeI 7 5 (regBits r) v

end Sys2Proof
end

