-- ==== Sys2Proof/Config.lean ====
section
/-! DEFINITION. What one machine fixes for good (the platform parameters of 92_eei_decisions) and the one source of free
values. -/

namespace Sys2Proof

/-- What the platform has at a memory address (20_memory R45, R65; 92_eei_decisions D20). -/
inductive MemKind where
  /-- Read/write memory: a write stores. -/
  | ram
  /-- Read-only memory: a write changes nothing. -/
  | rom
  /-- A memory-mapped device: a read returns what the device answers, a write is an event it sees. -/
  | device
  /-- Nothing: no OPACK ever comes. -/
  | absent
deriving DecidableEq, Repr

/-- A range of memory addresses, `size` bytes from `base`, and what the platform has there. -/
structure Region where
  base : Nat
  size : Nat
  kind : MemKind
deriving DecidableEq, Repr

/-- The parameter `index_wrap`: what an indexed sum past offset 8,191 does (20_memory R53; 92_eei_decisions D7). -/
inductive IndexWrap where
  | wrap
  | refuse
deriving DecidableEq, Repr

/-- Whether the platform decodes the page lines ADR13 and ADR14 or ignores them, which it may "if only page zero (8,192
bytes) is used" (20_memory R41). -/
inductive PageLines where
  /-- All 15 address lines are decoded: four pages. -/
  | decoded
  /-- ADR13 and ADR14 are ignored: one memory of 8,192 bytes, seen four times. -/
  | ignored
deriving DecidableEq, Repr

/-- The parameters that the spec leaves to the platform (92_eei_decisions, open parameters). State holds one; no step
changes it. -/
structure Platform where
  /-- The memory map; the first region that holds an address decides, and an address in no region is RAM. On a platform
  that ignores the page lines it maps the addresses of page 0. -/
  memMap : List Region
  /-- What becomes of ADR13 and ADR14 (20_memory R41; log 30). -/
  pageLines : PageLines
  /-- `index_wrap` (D7). -/
  indexWrap : IndexWrap
  /-- `dar_cc_defined` (D12). -/
  darCcDefined : Bool
  /-- `rotate_ovf_clears` (D11). -/
  rotateOvfClears : Bool
deriving DecidableEq, Repr

/-- The platform with every parameter at the default of 92_eei_decisions and all of memory RAM at 32,768
different addresses (log 3, 30). -/
def Platform.standard : Platform :=
  { memMap := [], pageLines := .decoded, indexWrap := .wrap, darCcDefined := true, rotateOvfClears := true }

/-- The source of free values (log 9): an arbitrary 16-bit word for each draw, which nothing constrains. A narrower free
value is the low bits of a draw. -/
opaque Config.freeWord : Nat → BitVec 16

end Sys2Proof
end

