-- ==== Sys2Proof/Machine/State.lean ====
section
/-! DEFINITION. The state of the machine (10_state rule R10), the ways a step can stop, and the state after RESET
(10_state rule R32). Every field is plain data. -/

namespace Sys2Proof.Machine

/-- One bank of R1, R2, R3 (10_state R11). -/
structure Bank where
  r1 : Byte
  r2 : Byte
  r3 : Byte
deriving DecidableEq, Repr

/-- The seven general registers: R0 and two banks (10_state R11). -/
structure Regs where
  r0 : Byte
  bank0 : Bank
  bank1 : Bank
deriving DecidableEq, Repr

/-- The Program Status Lower byte, bit by bit; all eight bits hold state (10_state R14; log 24). `pslByte` and
`pslOfByte` are the byte as software reads and writes it. -/
structure Psl where
  /-- Condition Code, bits 7 and 6 (R19). -/
  cc : BitVec 2
  /-- Interdigit Carry, bit 5 (R21). -/
  idc : Bool
  /-- Register bank Select, bit 4 (R22). -/
  rs : Bool
  /-- With/Without Carry, bit 3 (R23). -/
  wc : Bool
  /-- Overflow, bit 2 (R24). -/
  ovf : Bool
  /-- Compare mode, bit 1 (R25). -/
  com : Bool
  /-- Carry/Borrow, bit 0 (R26). -/
  c : Bool
deriving DecidableEq, Repr

/-- The bits of the Program Status Upper byte that hold state: Sense is an input and bits 4 and 3 hold none
(10_state R14, R15, R18; log 24). -/
structure Psu where
  /-- Flag, bit 6 (R16). -/
  flag : Bool
  /-- Interrupt Inhibit, bit 5 (R17). -/
  ii : Bool
  /-- Stack Pointer, bits 2 to 0 (R27). -/
  sp : BitVec 3
deriving DecidableEq, Repr

/-- The run/wait condition (10_state R29). -/
inductive RunMode where
  | run
  | waitHalt
deriving DecidableEq, Repr

/-- The memory cells that are listed, addresses strictly rising, none equal to what an unlisted address reads as
(`Memory.wf`; log 2); on a platform that ignores the page lines all of them in page 0 (20_memory R41, log 30). -/
abbrev Memory := List Host.Cell

/-- An I/O address: the control port, the data port, or one of the 256 extended ports (47_io R200). -/
inductive Port where
  | ctrl
  | data
  | ext (port : Byte)
deriving DecidableEq, Repr

/-- One operation that a device takes part in (47_io R200, 60_exceptions R226, 20_memory R46; log 25). -/
inductive BusEvent where
  /-- `IORead`: the byte the device answered. -/
  | ioRead (p : Port) (v : Byte)
  /-- `IOWrite`: the byte put out. -/
  | ioWrite (p : Port) (v : Byte)
  /-- `IntAckRead`: the vector byte. -/
  | intAck (v : Byte)
  /-- A read of a memory-mapped device. -/
  | memRead (a : Addr) (v : Byte)
  /-- A write to a memory-mapped device. -/
  | memWrite (a : Addr) (v : Byte)
deriving DecidableEq, Repr

/-- The two pins that are looked at between instructions: RESET, and INTREQ as the spec's `intreq`, true while the pin
is low (47_io R201, 60_exceptions R222, 70_reset_and_hazards R250). -/
structure Pins where
  reset : Bool
  intreq : Bool
deriving DecidableEq, Repr

/-- The state of the machine: the processor (`regs` to `mode`), memory, the platform's parameters and inputs, and the
model's own record of device operations and count of free values. -/
structure State where
  /-- General registers (10_state R11). -/
  regs : Regs
  /-- Program Status Lower (10_state R14). -/
  psl : Psl
  /-- Program Status Upper (10_state R14). -/
  psu : Psu
  /-- Instruction Address Register, page latches in its two high bits (10_state R12, R13). -/
  iar : Addr
  /-- Return Address Stack (10_state R27). -/
  ras : Vector Addr 8
  /-- Run or wait (10_state R29). -/
  mode : RunMode
  /-- Memory contents (20_memory R40). -/
  mem : Memory
  /-- The platform's parameters; no step changes them (92_eei_decisions). -/
  platform : Platform
  /-- RESET and INTREQ at the instruction boundaries to come, the next one first; past the end of the list both levels
  are free values (60_exceptions R222, 92_eei_decisions D14, log 8). -/
  pins : List Pins
  /-- The samples of SENSE to come; past the end a sample is a free value (10_state R15, log 7). -/
  senseIn : List Bool
  /-- The bytes devices will put on the data bus, in the order of the reads; past the end a byte is a free value
  (92_eei_decisions D14, log 6). -/
  deviceIn : List Byte
  /-- The device operations done so far, newest first (47_io R200, log 25). -/
  trace : List BusEvent
  /-- How many free values have been drawn (log 9). -/
  draws : Nat
deriving DecidableEq, Repr

/-- Why the machine stops with a fault. The 2650 has no trap; each of these is a point where the spec gives no behaviour
to go on with (60_exceptions R220). -/
inductive Fault where
  /-- Raised by the fetch of byte 0 = 0x00, which "yields indeterminate results" (60_exceptions R220). Safe. -/
  | indeterminateOpcode
  /-- Raised by the fetch of a byte 0 that is in no listing (60_exceptions R220). Safe. -/
  | undefinedOpcode (b : Byte)
  /-- Raised by a memory operation at an address where the platform has nothing: the processor waits for OPACK for ever
  (20_memory R42, R65). Safe. -/
  | neverAcknowledged (a : Addr)
deriving DecidableEq, Repr

/-- Why the model gives no next state. -/
inductive Refusal where
  /-- Raised by an arm of `exec` whose instruction has no meaning yet; no arm does. Safe. -/
  | notModelled (mnemonic : String)
  /-- Raised by an indexed address past offset 8,191 when the platform parameter `index_wrap` is `refuse`
  (20_memory R53, 92_eei_decisions D7). Safe. -/
  | indexedAcrossPage (a : Addr)
deriving DecidableEq, Repr

/-- A stop inside an operation: a fault or a refusal. -/
inductive Stop where
  | fault (f : Fault)
  | refuse (r : Refusal)
deriving DecidableEq, Repr

/-- The result of an operation that may stop. -/
abbrev Res (α : Type) := Except Stop α

/-! ## One update per field -/

/-- `s` with other general registers. -/
def State.setRegs (s : State) (x : Regs) : State := { s with regs := x }
/-- `s` with another PSL. -/
def State.setPsl (s : State) (x : Psl) : State := { s with psl := x }
/-- `s` with another PSU. -/
def State.setPsu (s : State) (x : Psu) : State := { s with psu := x }
/-- `s` with another IAR, all 15 bits (10_state R12). -/
def State.setIar (s : State) (x : Addr) : State := { s with iar := x }
/-- `s` with another return address stack. -/
def State.setRas (s : State) (x : Vector Addr 8) : State := { s with ras := x }
/-- `s` with another run/wait condition. -/
def State.setMode (s : State) (x : RunMode) : State := { s with mode := x }
/-- `s` with other memory contents. -/
def State.setMem (s : State) (x : Memory) : State := { s with mem := x }
/-- `s` with other boundary pins to come. -/
def State.setPins (s : State) (x : List Pins) : State := { s with pins := x }
/-- `s` with other SENSE samples to come. -/
def State.setSenseIn (s : State) (x : List Bool) : State := { s with senseIn := x }
/-- `s` with other device bytes to come. -/
def State.setDeviceIn (s : State) (x : List Byte) : State := { s with deviceIn := x }
/-- `s` with another trace. -/
def State.setTrace (s : State) (x : List BusEvent) : State := { s with trace := x }
/-- `s` with another count of free values. -/
def State.setDraws (s : State) (x : Nat) : State := { s with draws := x }

/-! ## RESET -/

/-- The machine right after RESET: IAR 0, II 0, Run as 10_state R32 and 70_reset_and_hazards R250 state; every item those
rules leave "not stated" at zero (DESIGN CHOICE, log 1); nothing in memory listed (log 2); the standard platform
(log 3); no input settled, so that
every input is a free value (log 6, 7, 8). -/
def State.reset : State :=
  { regs := { r0 := 0, bank0 := { r1 := 0, r2 := 0, r3 := 0 }, bank1 := { r1 := 0, r2 := 0, r3 := 0 } }
    psl := { cc := 0, idc := false, rs := false, wc := false, ovf := false, com := false, c := false }
    psu := { flag := false, ii := false, sp := 0 }
    iar := 0
    ras := Vector.replicate 8 0
    mode := .run
    mem := []
    platform := Platform.standard
    pins := []
    senseIn := []
    deviceIn := []
    trace := []
    draws := 0 }

end Sys2Proof.Machine
end

