-- ==== Sys2Proof/Machine/Flags.lean ====
section
/-! DEFINITION. Every computation on flags and status bytes: the condition code, the adder, compare, rotate, decimal
adjust, the test under mask and the two status bytes (10_state R14 to R26; 41_arithmetic R110, R120; 43_compare_rotate
R140, R145; 44_program_status R158). -/

namespace Sys2Proof.Machine

/-- The condition code of a byte read as two's complement: 01 positive, 00 zero, 10 negative (10_state R20). -/
def signCC (b : Byte) : BitVec 2 :=
  if 0 < b.toInt then 1 else if b.toInt = 0 then 0 else 2

/-- What the adder gives: the result byte, the carry out of bit 7, the carry out of bit 3 and overflow. -/
structure AluOut where
  value : Byte
  c : Bool
  idc : Bool
  ovf : Bool
deriving DecidableEq, Repr

/-- The binary adder: `x + y + cin` computed exactly, then narrowed (41_arithmetic R110). -/
def adder (x y : Byte) (cin : Bool) : AluOut :=
  let t := x.toNat + y.toNat + cin.toNat
  let h := x.toNat % 16 + y.toNat % 16 + cin.toNat
  let res : Byte := BitVec.ofNat 8 t
  { value := res
    c := decide (256 ≤ t)
    idc := decide (16 ≤ h)
    ovf := x.msb == y.msb && res.msb != x.msb }

/-- `add(x, y)`: the carry comes in only when WC = 1 (41_arithmetic R110). -/
def add8 (p : Psl) (x y : Byte) : AluOut :=
  adder x y (p.wc && p.c)

/-- `sub(x, y)`: `x` plus the complement of `y` plus 1, or plus C when WC = 1 (41_arithmetic R110; 90_conflicts C18). -/
def sub8 (p : Psl) (x y : Byte) : AluOut :=
  adder x (~~~y) (!p.wc || p.c)

/-- The PSL after an add or subtract: C, IDC, OVF from the adder and CC from the result (41_arithmetic R110). -/
def pslAfterAlu (p : Psl) (a : AluOut) : Psl :=
  { p with cc := signCC a.value, c := a.c, idc := a.idc, ovf := a.ovf }

/-- `compare(x, y)`: unsigned when COM = 1, two's complement when COM = 0; 01 greater, 00 equal, 10 less
(43_compare_rotate R140). -/
def compareCC (com : Bool) (x y : Byte) : BitVec 2 :=
  let p : Int := if com then x.toNat else x.toInt
  let q : Int := if com then y.toNat else y.toInt
  if q < p then 1 else if p = q then 0 else 2

/-- `test(s, m)`: 00 when every bit selected by `m` is 1 in `s`, else 10 (44_program_status R158). -/
def testCC (s m : Byte) : BitVec 2 :=
  if s &&& m = m then 0 else 2

/-- The byte that a rotate left gives: bit 7, or with WC = 1 the carry, enters bit 0 (43_compare_rotate R145). -/
def rotlValue (p : Psl) (x : Byte) : Byte :=
  (x.extractLsb' 0 7 ++ BitVec.ofBool (if p.wc then p.c else x.msb) : BitVec (7 + 1))

/-- The byte that a rotate right gives: bit 0, or with WC = 1 the carry, enters bit 7 (43_compare_rotate R145). -/
def rotrValue (p : Psl) (x : Byte) : Byte :=
  (BitVec.ofBool (if p.wc then p.c else x.getLsbD 0) ++ x.extractLsb' 1 7 : BitVec (1 + 7))

/-- Decimal adjust: ten is added to the high digit when C = 0 and to the low digit when IDC = 0, each digit modulo 16 and
on its own (41_arithmetic R120; 92_eei_decisions D24; log 20). -/
def decimalAdjust (p : Psl) (x : Byte) : Byte :=
  let hi : BitVec 4 := x.extractLsb' 4 4
  let lo : BitVec 4 := x.extractLsb' 0 4
  ((if p.c then hi else hi + 10) ++ (if p.idc then lo else lo + 10) : BitVec (4 + 4))

/-- The PSL as one byte: CC, IDC, RS, WC, OVF, COM, C from bit 7 down (10_state R14). -/
def pslByte (p : Psl) : Byte :=
  (p.cc ++ BitVec.ofBool p.idc ++ BitVec.ofBool p.rs ++ BitVec.ofBool p.wc ++ BitVec.ofBool p.ovf
    ++ BitVec.ofBool p.com ++ BitVec.ofBool p.c : BitVec (2 + 1 + 1 + 1 + 1 + 1 + 1))

/-- The PSL that a byte holds (10_state R14, 44_program_status R151). -/
def pslOfByte (b : Byte) : Psl :=
  { cc := b.extractLsb' 6 2
    idc := b.getLsbD 5
    rs := b.getLsbD 4
    wc := b.getLsbD 3
    ovf := b.getLsbD 2
    com := b.getLsbD 1
    c := b.getLsbD 0 }

/-- `PSUread()`: Sense, F, II, two zeros, SP (44_program_status, head of the file; 10_state R15, R18). -/
def psuByte (sense : Bool) (u : Psu) : Byte :=
  (BitVec.ofBool sense ++ BitVec.ofBool u.flag ++ BitVec.ofBool u.ii ++ (0 : BitVec 2) ++ u.sp
    : BitVec (1 + 1 + 1 + 2 + 3))

/-- `PSUwrite(b)`: F, II and SP from bits 6, 5 and 2 to 0; bits 7, 4 and 3 are ignored (44_program_status, head of the
file; 10_state R15, R18). -/
def psuOfByte (b : Byte) : Psu :=
  { flag := b.getLsbD 6, ii := b.getLsbD 5, sp := b.extractLsb' 0 3 }

/-- `cond(v)` of the branch-on-true and return instructions (45_branch R165). -/
def condTrue (v : Cond) (p : Psl) : Bool :=
  v == 3 || p.cc == v

/-- The condition of the branch-on-false instructions (45_branch R165). -/
def condFalse (v : Cond) (p : Psl) : Bool :=
  p.cc != v

end Sys2Proof.Machine
end

