-- ==== Sys2Proof/Machine/Ops.lean ====
section
/-! DEFINITION. The named operations of the machine: address arithmetic, registers, free values and devices, memory, the
instruction fetch, the return address stack, and the interrupt, which is the one exception there is (00_scope R7). -/

namespace Sys2Proof.Machine

/-! ## Address arithmetic -/

/-- The page bits of an address (20_memory R40). -/
def pageOf (a : Addr) : PageNo := a.extractLsb' 13 2

/-- The offset of an address in its page (20_memory R40). -/
def offsetOf (a : Addr) : Offset := a.extractLsb' 0 13

/-- `page ++ offset` (00_scope R6). -/
def mkAddr (p : PageNo) (o : Offset) : Addr := (p ++ o : BitVec (2 + 13))

/-- `a` moved by `d` inside its page, modulo 8,192 (20_memory R47, R50). -/
def addOffset (a : Addr) (d : Offset) : Addr := mkAddr (pageOf a) (offsetOf a + d)

/-- The next address of the same page (20_memory R47; 92_eei_decisions D5, D8; log 10). -/
def nextAddr (a : Addr) : Addr := addOffset a 1

/-- `sext_7`: the 7-bit displacement as a 13-bit two's complement number (00_scope R6). -/
def displacement (d : BitVec 7) : Offset := d.signExtend 13

/-! ## Registers -/

/-- The bank that RS selects (10_state R11). -/
def bankOf (rs : Bool) (g : Regs) : Bank := if rs then g.bank1 else g.bank0

/-- `g` with another content in the bank that RS selects (10_state R11). -/
def withBank (rs : Bool) (b : Bank) (g : Regs) : Regs :=
  if rs then { g with bank1 := b } else { g with bank0 := b }

/-- The register that number `r` names while RS is `rs` (10_state R11). -/
def regsRead (rs : Bool) (r : Reg) (g : Regs) : Byte :=
  match r with
  | .r0 => g.r0
  | .r1 => (bankOf rs g).r1
  | .r2 => (bankOf rs g).r2
  | .r3 => (bankOf rs g).r3

/-- A write of the register that number `r` names while RS is `rs` (10_state R11). -/
def regsWrite (rs : Bool) (r : Reg) (v : Byte) (g : Regs) : Regs :=
  match r with
  | .r0 => { g with r0 := v }
  | .r1 => withBank rs { bankOf rs g with r1 := v } g
  | .r2 => withBank rs { bankOf rs g with r2 := v } g
  | .r3 => withBank rs { bankOf rs g with r3 := v } g

/-- `R[r]` (00_scope R7, 10_state R11). -/
def readReg (r : Reg) (s : State) : Byte := regsRead s.psl.rs r s.regs

/-- `R[r] <- v` (00_scope R7, 10_state R11). -/
def writeReg (r : Reg) (v : Byte) (s : State) : State := s.setRegs (regsWrite s.psl.rs r v s.regs)

/-- `CC <- c` (10_state R19). -/
def setCC (c : BitVec 2) (s : State) : State := s.setPsl { s.psl with cc := c }

/-- `R[r] <- v; setCC(R[r])` (10_state R20). -/
def loadReg (r : Reg) (v : Byte) (s : State) : State := setCC (signCC v) (writeReg r v s)

/-! ## Free values and devices -/

/-- Free byte number `n` (log 9). -/
def freeByte (n : Nat) : Byte := (Config.freeWord n).setWidth 8

/-- Free 15-bit address number `n` (log 9). -/
def freeAddr (n : Nat) : Addr := (Config.freeWord n).setWidth 15

/-- Free condition code number `n` (log 9). -/
def freeCC (n : Nat) : BitVec 2 := (Config.freeWord n).setWidth 2

/-- Free bit number `n` (log 9). -/
def freeBit (n : Nat) : Bool := (Config.freeWord n).getLsbD 0

/-- Free levels number `n` of the RESET and INTREQ inputs (92_eei_decisions D14; log 8). -/
def freePins (n : Nat) : Pins := { reset := (Config.freeWord n).getLsbD 0, intreq := (Config.freeWord n).getLsbD 1 }

/-- One free value has been drawn. -/
def drawn (s : State) : State := s.setDraws (s.draws + 1)

/-- A device operation goes on record (log 25). -/
def logEvent (e : BusEvent) (s : State) : State := s.setTrace (e :: s.trace)

/-- The byte the next device read puts on the data bus: the next one of the platform's list, past its end a free value
(92_eei_decisions D14; log 6). -/
def busByte (s : State) : Byte × State :=
  match s.deviceIn with
  | v :: rest => (v, s.setDeviceIn rest)
  | [] => (freeByte s.draws, drawn s)

/-- `IORead(kind, port)` (47_io R200). -/
def ioRead (p : Port) (s : State) : Byte × State :=
  ((busByte s).1, logEvent (.ioRead p (busByte s).1) (busByte s).2)

/-- `IOWrite(kind, port, v)`: an output event that changes no processor state (47_io R200). -/
def ioWrite (p : Port) (v : Byte) (s : State) : State := logEvent (.ioWrite p v) s

/-- `IntAckRead()` (60_exceptions R226). -/
def intAckRead (s : State) : Byte × State :=
  ((busByte s).1, logEvent (.intAck (busByte s).1) (busByte s).2)

/-- `Sense()`: one fresh sample of the SENSE pin, past the end of the platform's list a free value (10_state R15;
log 7). -/
def sampleSense (s : State) : Bool × State :=
  match s.senseIn with
  | v :: rest => (v, s.setSenseIn rest)
  | [] => (freeBit s.draws, drawn s)

/-- The FLAG output pin (10_state R16). -/
def flagPin (s : State) : Bool := s.psu.flag

/-- The RUN/WAIT output pin, high in Run (10_state R29, 47_io R201). -/
def runPin (s : State) : Bool := s.mode == .run

/-! ## Memory -/

/-- What a byte that is not listed reads as (DESIGN CHOICE, log 2). -/
def Memory.unlisted : Byte := 0

/-- The byte at an address. -/
def Memory.read (m : Memory) (a : Nat) : Byte :=
  match m with
  | [] => Memory.unlisted
  | (b, v) :: rest => if b = a then v else Memory.read rest a

/-- The cell that stands for a byte: none for the byte an unlisted address reads as. -/
def Memory.cell (a : Nat) (v : Byte) : Memory :=
  if v = Memory.unlisted then [] else [(a, v)]

/-- The memory after a write of one byte, in canonical form. -/
def Memory.write (m : Memory) (a : Nat) (v : Byte) : Memory :=
  match m with
  | [] => Memory.cell a v
  | (b, w) :: rest =>
    if b < a then (b, w) :: Memory.write rest a v
    else if b = a then Memory.cell a v ++ rest
    else Memory.cell a v ++ (b, w) :: rest

/-- The canonical form between two bounds: addresses from `lo` on, strictly rising, below `hi`, and no listed byte equal
to what an unlisted address reads as. -/
def Memory.wfFrom (lo hi : Nat) (m : Memory) : Bool :=
  match m with
  | [] => true
  | (a, v) :: rest => decide (lo ≤ a) && decide (a < hi) && v != Memory.unlisted && Memory.wfFrom (a + 1) hi rest

/-- The canonical form of a memory of `size` bytes. -/
def Memory.wf (size : Nat) (m : Memory) : Bool := Memory.wfFrom 0 size m

/-- How many different bytes the platform's address lines tell apart (20_memory R40, R41). -/
def memSize (p : Platform) : Nat :=
  match p.pageLines with
  | .decoded => 32768
  | .ignored => 8192

/-- The place in memory that a 15-bit address on the pins reaches: its offset alone where ADR13 and ADR14 are ignored, so
that the four pages are one memory seen four times (20_memory R41; log 30). -/
def cellOf (p : Platform) (a : Addr) : Addr :=
  match p.pageLines with
  | .decoded => a
  | .ignored => mkAddr 0 (offsetOf a)

/-- Whether a region of the memory map holds an address. -/
def inRegion (r : Region) (a : Addr) : Bool :=
  decide (r.base ≤ a.toNat) && decide (a.toNat < r.base + r.size)

/-- What a memory map has at an address: the first region that holds it decides, RAM where none does (log 3). -/
def mapKind (m : List Region) (a : Addr) : MemKind :=
  match m with
  | [] => .ram
  | r :: rest => if inRegion r a then r.kind else mapKind rest a

/-- What the platform has at an address on the pins (20_memory R41, R65). -/
def kindAt (p : Platform) (a : Addr) : MemKind := mapKind p.memMap (cellOf p a)

/-- The byte stored at an address on the pins, for RAM and ROM (20_memory R41). -/
def peek (s : State) (a : Addr) : Byte := Memory.read s.mem (cellOf s.platform a).toNat

/-- `s` with the byte stored at an address on the pins changed (20_memory R41). -/
def poke (a : Addr) (v : Byte) (s : State) : State :=
  s.setMem (Memory.write s.mem (cellOf s.platform a).toNat v)

/-- `MemRead(a, 1)`; a device sees all 15 bits of the address (20_memory R41, R42, R65; log 4, 6). -/
def memRead (a : Addr) (s : State) : Res (Byte × State) :=
  match kindAt s.platform a with
  | .ram => .ok (peek s a, s)
  | .rom => .ok (peek s a, s)
  | .device => .ok ((busByte s).1, logEvent (.memRead a (busByte s).1) (busByte s).2)
  | .absent => .error (.fault (.neverAcknowledged a))

/-- `MemWrite(a, 1, v)`; a write to ROM changes nothing (20_memory R41, R42, R65; 92_eei_decisions D20;
log 4, 5). -/
def memWrite (a : Addr) (v : Byte) (s : State) : Res State :=
  match kindAt s.platform a with
  | .ram => .ok (poke a v s)
  | .rom => .ok s
  | .device => .ok (logEvent (.memWrite a v) s)
  | .absent => .error (.fault (.neverAcknowledged a))

/-- `ReadIndirect(p)`: high byte first, its bit 7 ignored, the second byte in the page of `p` (20_memory R54;
92_eei_decisions D8; log 10). -/
def readIndirect (p : Addr) (s : State) : Res (Addr × State) :=
  (memRead p s).bind fun hi =>
    (memRead (nextAddr p) hi.2).map fun lo => ((hi.1.extractLsb' 0 7 ++ lo.1 : BitVec (7 + 8)), lo.2)

/-- The address an operand means: itself, or the pointer it points to when the indirect bit is set (20_memory R49). -/
def resolve (ind : Bool) (p : Addr) (s : State) : Res (Addr × State) :=
  if ind then readIndirect p s else .ok (p, s)

/-- `ea_zero(b1)`: relative to page 0, byte 0 (20_memory R51). -/
def eaZero (o : RelArg) (s : State) : Res (Addr × State) :=
  resolve o.ind (mkAddr 0 (displacement o.disp)) s

/-! ## Instruction fetch -/

/-- `Fetch()` (20_memory R47). -/
def fetchByte (s : State) : Res (Byte × State) :=
  (memRead s.iar s).map fun x => (x.1, x.2.setIar (nextAddr x.2.iar))

/-- The stop that a refusal of the decoder stands for (60_exceptions R220). A fetch never runs out of bytes. -/
def decodeStop (b0 : Byte) : DecodeError → Stop
  | .indeterminate => .fault .indeterminateOpcode
  | .undefined b => .fault (.undefinedOpcode b)
  | .truncated => .fault (.undefinedOpcode b0)

/-- Fetch of a whole instruction: byte 0, then as many more as it asks for, in order (20_memory R47, R58; 40_load_store
R100 (a)). -/
def fetchInstr (s : State) : Res (Instr × State) :=
  (fetchByte s).bind fun x0 =>
    match decodeFirst x0.1 with
    | .error e => .error (decodeStop x0.1 e)
    | .ok (.one i) => .ok (i, x0.2)
    | .ok (.two f) => (fetchByte x0.2).map fun x1 => (f x1.1, x1.2)
    | .ok (.three f) =>
      (fetchByte x0.2).bind fun x1 => (fetchByte x1.2).map fun x2 => (f x1.1 x2.1, x2.2)

/-! ## Return address stack -/

/-- RAS entry number `k` (10_state R27). -/
def rasRead (v : Vector Addr 8) (k : BitVec 3) : Addr := v[k.toNat]'k.isLt

/-- A write of RAS entry number `k` (10_state R27). -/
def rasWrite (v : Vector Addr 8) (k : BitVec 3) (a : Addr) : Vector Addr 8 := v.set k.toNat a k.isLt

/-- `push(a)`: SP counts up modulo 8, then the entry is written (10_state R28; 92_eei_decisions D18; log 17). -/
def push (a : Addr) (s : State) : State :=
  (s.setPsu { s.psu with sp := s.psu.sp + 1 }).setRas (rasWrite s.ras (s.psu.sp + 1) a)

/-- `call(t)`: the address after the branch is pushed and the IAR takes the target (46_subroutine R185). -/
def callTo (t : Addr) (s : State) : State := (push s.iar s).setIar t

/-- `return()`: the IAR takes the entry SP points to, all 15 bits, and SP counts down modulo 8 (46_subroutine R185). -/
def returnPop (s : State) : State :=
  (s.setIar (rasRead s.ras s.psu.sp)).setPsu { s.psu with sp := s.psu.sp - 1 }

/-! ## The interrupt and its return -/

/-- PSU.II <- b. -/
def setInhibit (b : Bool) (s : State) : State := s.setPsu { s.psu with ii := b }

/-- `interrupt()`: II is set, the device gives the vector, the vector is the second byte of a ZBSR; the IAR is pushed and
the machine runs (60_exceptions R225, R234). -/
def interrupt (s : State) : Res State :=
  (eaZero (relArg (intAckRead (setInhibit true s)).1) (intAckRead (setInhibit true s)).2).map fun x =>
    (callTo x.1 x.2).setMode .run

/-- The return of RETE: the return of RETC, and II is cleared (46_subroutine R195). -/
def returnEnable (s : State) : State := setInhibit false (returnPop s)

/-! ## RESET -/

/-- `reset()` as an event during a run: IAR 0, II 0, Run; memory is kept; every other item takes a free value
(70_reset_and_hazards R250; 10_state R32, R33; 92_eei_decisions D2, D25; log 9, 28). -/
def resetEvent (s : State) : State :=
  let n := s.draws
  { s with
    regs :=
      { r0 := freeByte n
        bank0 := { r1 := freeByte (n + 1), r2 := freeByte (n + 2), r3 := freeByte (n + 3) }
        bank1 := { r1 := freeByte (n + 4), r2 := freeByte (n + 5), r3 := freeByte (n + 6) } }
    psl := pslOfByte (freeByte (n + 7))
    psu := { psuOfByte (freeByte (n + 8)) with ii := false }
    iar := 0
    ras := Vector.ofFn fun k => freeAddr (n + 9 + k.val)
    mode := .run
    draws := n + 17 }

end Sys2Proof.Machine
end

