-- ==== Sys2Proof/Machine/Operands.lean ====
section
/-! DEFINITION. Every operand form: the effective addresses of 20_memory rules R50 to R57, the operands of 40_load_store
rule R100 (b), and the shared shapes of the meanings built on them. -/

namespace Sys2Proof.Machine

/-- `ea_rel(b1)`: `next` plus the displacement, inside the page of `next` (20_memory R50). -/
def eaRel (o : RelArg) (s : State) : Res (Addr × State) :=
  resolve o.ind (addOffset s.iar (displacement o.disp)) s

/-- The sum of an address and an unsigned index inside the page of the address, or a stop when `index_wrap` is `refuse`
and the sum passes offset 8,191 (20_memory R53, R57; 92_eei_decisions D7; log 11). -/
def addIndex (a : Addr) (x : Byte) (s : State) : Res Addr :=
  if s.platform.indexWrap = .refuse ∧ 8192 ≤ (offsetOf a).toNat + x.toNat then
    .error (.refuse (.indexedAcrossPage a))
  else .ok (addOffset a (x.setWidth 13))

/-- The update of the index register that the index control asks for; it writes no flag (20_memory R53). -/
def stepIndex (r : Reg) (ctl : IndexControl) (s : State) : State :=
  match ctl with
  | .none => s
  | .autoInc => writeReg r (readReg r s + 1) s
  | .autoDec => writeReg r (readReg r s - 1) s
  | .indexed => s

/-- What `ea_abs` gives: the effective address, the number of the data register, and the state after the index register
update and the pointer reads. -/
structure Located where
  addr : Addr
  dreg : Reg
  state : State
deriving DecidableEq, Repr

/-- `ea_abs(r, b1, b2)`: the index register is updated first, the pointer is read in the current page, the index is added
last, and an indexed instruction works on R0 (20_memory R52 to R55; 92_eei_decisions D9, D22). -/
def eaAbs (r : Reg) (o : AbsArg) (s : State) : Res Located :=
  (resolve o.ind (mkAddr (pageOf s.iar) o.addr) (stepIndex r o.ctl s)).bind fun p =>
    if o.ctl = .none then .ok { addr := p.1, dreg := r, state := p.2 }
    else (addIndex p.1 (readReg r p.2) p.2).map fun a => { addr := a, dreg := .r0, state := p.2 }

/-- `ea_babs(b1, b2)` (20_memory R56). -/
def eaBra (o : BraArg) (s : State) : Res (Addr × State) :=
  resolve o.ind o.addr s

/-- `ea_bx(b1, b2)`: register 3 of the current bank is added after the indirection (20_memory R57; 92_eei_decisions D21;
log 19). -/
def eaBx (o : BraArg) (s : State) : Res (Addr × State) :=
  (eaBra o s).bind fun p => (addIndex p.1 (readReg .r3 p.2) p.2).map fun a => (a, p.2)

/-- The operand byte of format R (40_load_store R100 (b)). -/
def operandRel (o : RelArg) (s : State) : Res (Byte × State) :=
  (eaRel o s).bind fun p => memRead p.1 p.2

/-- What format A gives: the operand byte, the data register and the state. -/
structure AbsOperand where
  value : Byte
  dreg : Reg
  state : State
deriving DecidableEq, Repr

/-- The operand byte of format A with its data register (40_load_store R100 (b)). -/
def operandAbs (r : Reg) (o : AbsArg) (s : State) : Res AbsOperand :=
  (eaAbs r o s).bind fun p =>
    (memRead p.addr p.state).map fun m => { value := m.1, dreg := p.dreg, state := m.2 }

/-! ## Shapes of meanings -/

/-- The outcome of a step from the result of an operation. -/
def finish : Res State → Host.Outcome State Fault Refusal
  | .ok s => .next s
  | .error (.fault f) => .fault f
  | .error (.refuse r) => .refused r

/-- A two-operand form with a relative operand: `f` gets the register number, the operand and the state. -/
def withRel (f : Reg → Byte → State → State) (r : Reg) (o : RelArg) (s : State) : Host.Outcome State Fault Refusal :=
  finish ((operandRel o s).map fun x => f r x.1 x.2)

/-- A two-operand form with an absolute operand: `f` gets the data register, the operand and the state. -/
def withAbs (f : Reg → Byte → State → State) (r : Reg) (o : AbsArg) (s : State) : Host.Outcome State Fault Refusal :=
  finish ((operandAbs r o s).map fun x => f x.dreg x.value x.state)

/-- `R[r] <- add(R[r], y); setCC(R[r])`, and `sub` likewise (41_arithmetic R110). -/
def arith (alu : Psl → Byte → Byte → AluOut) (r : Reg) (y : Byte) (s : State) : State :=
  let a := alu s.psl (readReg r s) y
  (writeReg r a.value s).setPsl (pslAfterAlu s.psl a)

/-- `R[r] <- R[r] op y; setCC(R[r])` (42_logical R125). -/
def logic (op : Byte → Byte → Byte) (r : Reg) (y : Byte) (s : State) : State :=
  loadReg r (op (readReg r s) y) s

/-- `compare(R[r], y)` (43_compare_rotate R140). -/
def comparing (r : Reg) (y : Byte) (s : State) : State :=
  setCC (compareCC s.psl.com (readReg r s) y) s

/-- The register and PSL writes of a rotate with result `res` and carry out `cout`; with WC = 0 only the register and CC
are written (43_compare_rotate R145; 90_conflicts C1; 92_eei_decisions D11; log 13). -/
def rotateInto (r : Reg) (res : Byte) (cout : Bool) (s : State) : State :=
  let t := loadReg r res s
  if s.psl.wc then
    let p := { t.psl with c := cout, idc := res.getLsbD 5 }
    if res.msb != (readReg r s).msb then t.setPsl { p with ovf := true }
    else if s.platform.rotateOvfClears then t.setPsl { p with ovf := false }
    else drawn (t.setPsl { p with ovf := freeBit s.draws })
  else t

/-- A branch to the address `ea` gives when `c` holds; when it does not hold, `ea` is not computed and no pointer is read
(20_memory R59; 45_branch R177; log 18). -/
def branchWhen (c : Bool) (ea : State → Res (Addr × State)) (s : State) : Host.Outcome State Fault Refusal :=
  if c then finish ((ea s).map fun x => x.2.setIar x.1) else .next s

/-- A subroutine branch to the address `ea` gives when `c` holds (46_subroutine R185; 45_branch R177). -/
def callWhen (c : Bool) (ea : State → Res (Addr × State)) (s : State) : Host.Outcome State Fault Refusal :=
  if c then finish ((ea s).map fun x => callTo x.1 x.2) else .next s

/-- A register is changed by `d` modulo 256, no PSW bit is written, and the branch is taken when the new value is not
zero (45_branch R173; 92_eei_decisions D13; log 15). -/
def countBranch (d : Byte) (r : Reg) (ea : State → Res (Addr × State)) (s : State) : Host.Outcome State Fault Refusal :=
  branchWhen (readReg r s + d != 0) ea (writeReg r (readReg r s + d) s)

end Sys2Proof.Machine
end

