-- ==== Sys2Proof/Machine/Arithmetic.lean ====
section
/-! DEFINITION. Add, subtract and decimal adjust (41_arithmetic rules R112 to R120). -/

namespace Sys2Proof.Machine

/-- ADDZ r (41_arithmetic R112). -/
def execAddz (r : Reg) (s : State) : Host.Outcome State Fault Refusal := .next (arith add8 .r0 (readReg r s) s)
/-- ADDI,r v (41_arithmetic R113). -/
def execAddi (r : Reg) (v : Byte) (s : State) : Host.Outcome State Fault Refusal := .next (arith add8 r v s)
/-- ADDR,r (*)a (41_arithmetic R114). -/
def execAddr (r : Reg) (o : RelArg) (s : State) : Host.Outcome State Fault Refusal := withRel (arith add8) r o s
/-- ADDA,r (*)a(,X) (41_arithmetic R115). -/
def execAdda (r : Reg) (o : AbsArg) (s : State) : Host.Outcome State Fault Refusal := withAbs (arith add8) r o s
/-- SUBZ r (41_arithmetic R116). -/
def execSubz (r : Reg) (s : State) : Host.Outcome State Fault Refusal := .next (arith sub8 .r0 (readReg r s) s)
/-- SUBI,r v (41_arithmetic R117). -/
def execSubi (r : Reg) (v : Byte) (s : State) : Host.Outcome State Fault Refusal := .next (arith sub8 r v s)
/-- SUBR,r (*)a (41_arithmetic R118). -/
def execSubr (r : Reg) (o : RelArg) (s : State) : Host.Outcome State Fault Refusal := withRel (arith sub8) r o s
/-- SUBA,r (*)a(,X) (41_arithmetic R119). -/
def execSuba (r : Reg) (o : AbsArg) (s : State) : Host.Outcome State Fault Refusal := withAbs (arith sub8) r o s
/-- DAR,r: C, IDC and OVF are unchanged; CC is that of the result, or a free value when `dar_cc_defined` is false
(41_arithmetic R120; 92_eei_decisions D12; log 14). -/
def execDar (r : Reg) (s : State) : Host.Outcome State Fault Refusal :=
  let v := decimalAdjust s.psl (readReg r s)
  if s.platform.darCcDefined then .next (loadReg r v s)
  else .next (drawn (setCC (freeCC s.draws) (writeReg r v s)))

end Sys2Proof.Machine
end

