-- ==== Sys2Proof/Machine/Branch.lean ====
section
/-! DEFINITION. The branch instructions (45_branch rules R167 to R180). None writes a PSW bit. -/

namespace Sys2Proof.Machine

/-- BCTR,v (*)a (45_branch R167). -/
def execBctr (v : Cond) (o : RelArg) (s : State) : Host.Outcome State Fault Refusal :=
  branchWhen (condTrue v s.psl) (eaRel o) s
/-- BCTA,v (*)a (45_branch R168). -/
def execBcta (v : Cond) (o : BraArg) (s : State) : Host.Outcome State Fault Refusal :=
  branchWhen (condTrue v s.psl) (eaBra o) s
/-- BCFR,v (*)a (45_branch R169). -/
def execBcfr (v : Cond) (o : RelArg) (s : State) : Host.Outcome State Fault Refusal :=
  branchWhen (condFalse v s.psl) (eaRel o) s
/-- BCFA,v (*)a (45_branch R170). -/
def execBcfa (v : Cond) (o : BraArg) (s : State) : Host.Outcome State Fault Refusal :=
  branchWhen (condFalse v s.psl) (eaBra o) s
/-- BRNR,r (*)a (45_branch R171). -/
def execBrnr (r : Reg) (o : RelArg) (s : State) : Host.Outcome State Fault Refusal :=
  branchWhen (readReg r s != 0) (eaRel o) s
/-- BRNA,r (*)a (45_branch R172). -/
def execBrna (r : Reg) (o : BraArg) (s : State) : Host.Outcome State Fault Refusal :=
  branchWhen (readReg r s != 0) (eaBra o) s
/-- BIRR,r (*)a (45_branch R173). -/
def execBirr (r : Reg) (o : RelArg) (s : State) : Host.Outcome State Fault Refusal :=
  countBranch 1 r (eaRel o) s
/-- BIRA,r (*)a (45_branch R174). -/
def execBira (r : Reg) (o : BraArg) (s : State) : Host.Outcome State Fault Refusal :=
  countBranch 1 r (eaBra o) s
/-- BDRR,r (*)a (45_branch R175). -/
def execBdrr (r : Reg) (o : RelArg) (s : State) : Host.Outcome State Fault Refusal :=
  countBranch (-1) r (eaRel o) s
/-- BDRA,r (*)a (45_branch R176). -/
def execBdra (r : Reg) (o : BraArg) (s : State) : Host.Outcome State Fault Refusal :=
  countBranch (-1) r (eaBra o) s
/-- BXA (*)a,x: always taken, indexed by register 3 (45_branch R178). -/
def execBxa (o : BraArg) (s : State) : Host.Outcome State Fault Refusal :=
  branchWhen true (eaBx o) s
/-- ZBRR (*)a: always taken, relative to page 0, byte 0 (45_branch R180). -/
def execZbrr (o : RelArg) (s : State) : Host.Outcome State Fault Refusal :=
  branchWhen true (eaZero o) s

end Sys2Proof.Machine
end

