-- ==== Sys2Proof/Machine/CompareRotate.lean ====
section
/-! DEFINITION. Compare and rotate (43_compare_rotate rules R141 to R147). -/

namespace Sys2Proof.Machine

/-- COMZ r: R0 is the first operand (43_compare_rotate R141). -/
def execComz (r : Reg) (s : State) : Host.Outcome State Fault Refusal := .next (comparing .r0 (readReg r s) s)
/-- COMI,r v (43_compare_rotate R142). -/
def execComi (r : Reg) (v : Byte) (s : State) : Host.Outcome State Fault Refusal := .next (comparing r v s)
/-- COMR,r (*)a (43_compare_rotate R143). -/
def execComr (r : Reg) (o : RelArg) (s : State) : Host.Outcome State Fault Refusal := withRel comparing r o s
/-- COMA,r (*)a(,X) (43_compare_rotate R144). -/
def execComa (r : Reg) (o : AbsArg) (s : State) : Host.Outcome State Fault Refusal := withAbs comparing r o s
/-- RRR,r: bit 0 goes out (43_compare_rotate R146). -/
def execRrr (r : Reg) (s : State) : Host.Outcome State Fault Refusal :=
  .next (rotateInto r (rotrValue s.psl (readReg r s)) ((readReg r s).getLsbD 0) s)
/-- RRL,r: bit 7 goes out (43_compare_rotate R147). -/
def execRrl (r : Reg) (s : State) : Host.Outcome State Fault Refusal :=
  .next (rotateInto r (rotlValue s.psl (readReg r s)) (readReg r s).msb s)

end Sys2Proof.Machine
end

