-- ==== Sys2Proof/Machine/InputOutput.lean ====
section
/-! DEFINITION. The input/output instructions (47_io rules R202 to R207). -/

namespace Sys2Proof.Machine

/-- A byte is read from a port into a register, which sets CC (47_io R202). -/
def readPort (p : Port) (r : Reg) (s : State) : State := loadReg r (ioRead p s).1 (ioRead p s).2

/-- REDD,r (47_io R202). -/
def execRedd (r : Reg) (s : State) : Host.Outcome State Fault Refusal :=
  .next (readPort .data r s)
/-- REDC,r (47_io R203). -/
def execRedc (r : Reg) (s : State) : Host.Outcome State Fault Refusal :=
  .next (readPort .ctrl r s)
/-- REDE,r v (47_io R204). -/
def execRede (r : Reg) (v : Byte) (s : State) : Host.Outcome State Fault Refusal :=
  .next (readPort (.ext v) r s)
/-- WRTD,r (47_io R205). -/
def execWrtd (r : Reg) (s : State) : Host.Outcome State Fault Refusal :=
  .next (ioWrite .data (readReg r s) s)
/-- WRTC,r (47_io R206). -/
def execWrtc (r : Reg) (s : State) : Host.Outcome State Fault Refusal :=
  .next (ioWrite .ctrl (readReg r s) s)
/-- WRTE,r v (47_io R207). -/
def execWrte (r : Reg) (v : Byte) (s : State) : Host.Outcome State Fault Refusal :=
  .next (ioWrite (.ext v) (readReg r s) s)

end Sys2Proof.Machine
end

