-- ==== Sys2Proof/Machine/LoadStore.lean ====
section
/-! DEFINITION. Load and store (40_load_store rules R101 to R107). -/

namespace Sys2Proof.Machine

/-- LODZ r (40_load_store R101). -/
def execLodz (r : Reg) (s : State) : Host.Outcome State Fault Refusal := .next (loadReg .r0 (readReg r s) s)
/-- LODI,r v (40_load_store R102). -/
def execLodi (r : Reg) (v : Byte) (s : State) : Host.Outcome State Fault Refusal := .next (loadReg r v s)
/-- LODR,r (*)a (40_load_store R103). -/
def execLodr (r : Reg) (o : RelArg) (s : State) : Host.Outcome State Fault Refusal := withRel loadReg r o s
/-- LODA,r (*)a(,X) (40_load_store R104). -/
def execLoda (r : Reg) (o : AbsArg) (s : State) : Host.Outcome State Fault Refusal := withAbs loadReg r o s
/-- STRZ r (40_load_store R105). -/
def execStrz (r : Reg) (s : State) : Host.Outcome State Fault Refusal := .next (loadReg r (readReg .r0 s) s)
/-- STRR,r (*)a: no flag is written (40_load_store R106). -/
def execStrr (r : Reg) (o : RelArg) (s : State) : Host.Outcome State Fault Refusal :=
  finish ((eaRel o s).bind fun p => memWrite p.1 (readReg r p.2) p.2)
/-- STRA,r (*)a(,X): the data register is R0 when indexed, no flag is written (40_load_store R107). -/
def execStra (r : Reg) (o : AbsArg) (s : State) : Host.Outcome State Fault Refusal :=
  finish ((eaAbs r o s).bind fun p => memWrite p.addr (readReg p.dreg p.state) p.state)

end Sys2Proof.Machine
end

