-- ==== Sys2Proof/Machine/Logical.lean ====
section
/-! DEFINITION. The logical instructions (42_logical rules R126 to R137). -/

namespace Sys2Proof.Machine

/-- ANDZ r (42_logical R126). -/
def execAndz (r : Reg) (s : State) : Host.Outcome State Fault Refusal := .next (logic (· &&& ·) .r0 (readReg r s) s)
/-- ANDI,r v (42_logical R127). -/
def execAndi (r : Reg) (v : Byte) (s : State) : Host.Outcome State Fault Refusal := .next (logic (· &&& ·) r v s)
/-- ANDR,r (*)a (42_logical R128). -/
def execAndr (r : Reg) (o : RelArg) (s : State) : Host.Outcome State Fault Refusal := withRel (logic (· &&& ·)) r o s
/-- ANDA,r (*)a(,X) (42_logical R129). -/
def execAnda (r : Reg) (o : AbsArg) (s : State) : Host.Outcome State Fault Refusal := withAbs (logic (· &&& ·)) r o s
/-- IORZ r (42_logical R130). -/
def execIorz (r : Reg) (s : State) : Host.Outcome State Fault Refusal := .next (logic (· ||| ·) .r0 (readReg r s) s)
/-- IORI,r v (42_logical R131). -/
def execIori (r : Reg) (v : Byte) (s : State) : Host.Outcome State Fault Refusal := .next (logic (· ||| ·) r v s)
/-- IORR,r (*)a (42_logical R132). -/
def execIorr (r : Reg) (o : RelArg) (s : State) : Host.Outcome State Fault Refusal := withRel (logic (· ||| ·)) r o s
/-- IORA,r (*)a(,X) (42_logical R133). -/
def execIora (r : Reg) (o : AbsArg) (s : State) : Host.Outcome State Fault Refusal := withAbs (logic (· ||| ·)) r o s
/-- EORZ r (42_logical R134). -/
def execEorz (r : Reg) (s : State) : Host.Outcome State Fault Refusal := .next (logic (· ^^^ ·) .r0 (readReg r s) s)
/-- EORI,r v (42_logical R135). -/
def execEori (r : Reg) (v : Byte) (s : State) : Host.Outcome State Fault Refusal := .next (logic (· ^^^ ·) r v s)
/-- EORR,r (*)a (42_logical R136). -/
def execEorr (r : Reg) (o : RelArg) (s : State) : Host.Outcome State Fault Refusal := withRel (logic (· ^^^ ·)) r o s
/-- EORA,r (*)a(,X) (42_logical R137). -/
def execEora (r : Reg) (o : AbsArg) (s : State) : Host.Outcome State Fault Refusal := withAbs (logic (· ^^^ ·)) r o s

end Sys2Proof.Machine
end

