-- ==== Sys2Proof/Machine/Misc.lean ====
section
/-! DEFINITION. HALT, NOP and TMI (48_misc rules R210 to R212). -/

namespace Sys2Proof.Machine

/-- HALT: the wait begins with the IAR already past the HALT (48_misc R210; log 16). -/
def execHalt (s : State) : Host.Outcome State Fault Refusal :=
  .next (s.setMode .waitHalt)
/-- NOP: nothing beyond the fetch (48_misc R211). -/
def execNop (s : State) : Host.Outcome State Fault Refusal :=
  .next s
/-- TMI,r v (48_misc R212). -/
def execTmi (r : Reg) (v : Byte) (s : State) : Host.Outcome State Fault Refusal :=
  .next (setCC (testCC (readReg r s) v) s)

end Sys2Proof.Machine
end

