-- ==== Sys2Proof/Machine/Status.lean ====
section
/-! DEFINITION. The program status instructions (44_program_status rules R150 to R160). None is privileged
(60_exceptions R240). -/

namespace Sys2Proof.Machine

/-- LPSU (44_program_status R150). -/
def execLpsu (s : State) : Host.Outcome State Fault Refusal := .next (s.setPsu (psuOfByte (readReg .r0 s)))
/-- LPSL: CC takes bits 7 and 6 of R0 (44_program_status R151). -/
def execLpsl (s : State) : Host.Outcome State Fault Refusal := .next (s.setPsl (pslOfByte (readReg .r0 s)))
/-- SPSU: bit 7 is a fresh sample of SENSE (44_program_status R152). -/
def execSpsu (s : State) : Host.Outcome State Fault Refusal :=
  .next (loadReg .r0 (psuByte (sampleSense s).1 s.psu) (sampleSense s).2)
/-- SPSL: the byte stored is the PSL before the instruction (44_program_status R153). -/
def execSpsl (s : State) : Host.Outcome State Fault Refusal := .next (loadReg .r0 (pslByte s.psl) s)
/-- PPSU v: F, II and SP only (44_program_status R154). -/
def execPpsu (v : Byte) (s : State) : Host.Outcome State Fault Refusal :=
  .next (s.setPsu (psuOfByte (psuByte false s.psu ||| v)))
/-- PPSL v (44_program_status R155). -/
def execPpsl (v : Byte) (s : State) : Host.Outcome State Fault Refusal :=
  .next (s.setPsl (pslOfByte (pslByte s.psl ||| v)))
/-- CPSU v: F, II and SP only (44_program_status R156). -/
def execCpsu (v : Byte) (s : State) : Host.Outcome State Fault Refusal :=
  .next (s.setPsu (psuOfByte (psuByte false s.psu &&& ~~~v)))
/-- CPSL v (44_program_status R157). -/
def execCpsl (v : Byte) (s : State) : Host.Outcome State Fault Refusal :=
  .next (s.setPsl (pslOfByte (pslByte s.psl &&& ~~~v)))
/-- TPSU v: bit 7 tested is a fresh sample of SENSE (44_program_status R159). -/
def execTpsu (v : Byte) (s : State) : Host.Outcome State Fault Refusal :=
  .next (setCC (testCC (psuByte (sampleSense s).1 s.psu) v) (sampleSense s).2)
/-- TPSL v: the byte tested is the PSL before the instruction (44_program_status R160). -/
def execTpsl (v : Byte) (s : State) : Host.Outcome State Fault Refusal := .next (setCC (testCC (pslByte s.psl) v) s)

end Sys2Proof.Machine
end

