-- ==== Sys2Proof/Machine/Subroutine.lean ====
section
/-! DEFINITION. Subroutine branches and returns (46_subroutine rules R186 to R195). None writes a PSL bit. -/

namespace Sys2Proof.Machine

/-- BSTR,v (*)a (46_subroutine R186). -/
def execBstr (v : Cond) (o : RelArg) (s : State) : Host.Outcome State Fault Refusal :=
  callWhen (condTrue v s.psl) (eaRel o) s
/-- BSTA,v (*)a (46_subroutine R187). -/
def execBsta (v : Cond) (o : BraArg) (s : State) : Host.Outcome State Fault Refusal :=
  callWhen (condTrue v s.psl) (eaBra o) s
/-- BSFR,v (*)a (46_subroutine R188). -/
def execBsfr (v : Cond) (o : RelArg) (s : State) : Host.Outcome State Fault Refusal :=
  callWhen (condFalse v s.psl) (eaRel o) s
/-- BSFA,v (*)a (46_subroutine R189). -/
def execBsfa (v : Cond) (o : BraArg) (s : State) : Host.Outcome State Fault Refusal :=
  callWhen (condFalse v s.psl) (eaBra o) s
/-- BSNR,r (*)a (46_subroutine R190). -/
def execBsnr (r : Reg) (o : RelArg) (s : State) : Host.Outcome State Fault Refusal :=
  callWhen (readReg r s != 0) (eaRel o) s
/-- BSNA,r (*)a (46_subroutine R191). -/
def execBsna (r : Reg) (o : BraArg) (s : State) : Host.Outcome State Fault Refusal :=
  callWhen (readReg r s != 0) (eaBra o) s
/-- BSXA (*)a,x: always taken, indexed by register 3 (46_subroutine R192). -/
def execBsxa (o : BraArg) (s : State) : Host.Outcome State Fault Refusal :=
  callWhen true (eaBx o) s
/-- ZBSR (*)a: always taken, relative to page 0, byte 0 (46_subroutine R193). -/
def execZbsr (o : RelArg) (s : State) : Host.Outcome State Fault Refusal :=
  callWhen true (eaZero o) s
/-- RETC,v (46_subroutine R194). -/
def execRetc (v : Cond) (s : State) : Host.Outcome State Fault Refusal :=
  .next (if condTrue v s.psl then returnPop s else s)
/-- RETE,v: II is cleared only when the return is taken (46_subroutine R195). -/
def execRete (v : Cond) (s : State) : Host.Outcome State Fault Refusal :=
  .next (if condTrue v s.psl then returnEnable s else s)

end Sys2Proof.Machine
end

