-- ==== Sys2Proof/Machine/Dispatch.lean ====
section
/-! DEFINITION. The meaning of each instruction, one arm per constructor. The state given to `exec` has the IAR past the
instruction's bytes (40_load_store rule R100 (a)). -/

namespace Sys2Proof.Machine

def exec (i : Instr) (s : State) : Host.Outcome State Fault Refusal :=
  match i with
  | .lodz r => Sys2Proof.Machine.execLodz r s
  | .lodi r v => Sys2Proof.Machine.execLodi r v s
  | .lodr r o => Sys2Proof.Machine.execLodr r o s
  | .loda r o => Sys2Proof.Machine.execLoda r o s
  | .strz r => Sys2Proof.Machine.execStrz r s
  | .strr r o => Sys2Proof.Machine.execStrr r o s
  | .stra r o => Sys2Proof.Machine.execStra r o s
  | .addz r => Sys2Proof.Machine.execAddz r s
  | .addi r v => Sys2Proof.Machine.execAddi r v s
  | .addr r o => Sys2Proof.Machine.execAddr r o s
  | .adda r o => Sys2Proof.Machine.execAdda r o s
  | .subz r => Sys2Proof.Machine.execSubz r s
  | .subi r v => Sys2Proof.Machine.execSubi r v s
  | .subr r o => Sys2Proof.Machine.execSubr r o s
  | .suba r o => Sys2Proof.Machine.execSuba r o s
  | .dar r => Sys2Proof.Machine.execDar r s
  | .andz r => Sys2Proof.Machine.execAndz r s
  | .andi r v => Sys2Proof.Machine.execAndi r v s
  | .andr r o => Sys2Proof.Machine.execAndr r o s
  | .anda r o => Sys2Proof.Machine.execAnda r o s
  | .iorz r => Sys2Proof.Machine.execIorz r s
  | .iori r v => Sys2Proof.Machine.execIori r v s
  | .iorr r o => Sys2Proof.Machine.execIorr r o s
  | .iora r o => Sys2Proof.Machine.execIora r o s
  | .eorz r => Sys2Proof.Machine.execEorz r s
  | .eori r v => Sys2Proof.Machine.execEori r v s
  | .eorr r o => Sys2Proof.Machine.execEorr r o s
  | .eora r o => Sys2Proof.Machine.execEora r o s
  | .comz r => Sys2Proof.Machine.execComz r s
  | .comi r v => Sys2Proof.Machine.execComi r v s
  | .comr r o => Sys2Proof.Machine.execComr r o s
  | .coma r o => Sys2Proof.Machine.execComa r o s
  | .rrr r => Sys2Proof.Machine.execRrr r s
  | .rrl r => Sys2Proof.Machine.execRrl r s
  | .lpsu => Sys2Proof.Machine.execLpsu s
  | .lpsl => Sys2Proof.Machine.execLpsl s
  | .spsu => Sys2Proof.Machine.execSpsu s
  | .spsl => Sys2Proof.Machine.execSpsl s
  | .ppsu v => Sys2Proof.Machine.execPpsu v s
  | .ppsl v => Sys2Proof.Machine.execPpsl v s
  | .cpsu v => Sys2Proof.Machine.execCpsu v s
  | .cpsl v => Sys2Proof.Machine.execCpsl v s
  | .tpsu v => Sys2Proof.Machine.execTpsu v s
  | .tpsl v => Sys2Proof.Machine.execTpsl v s
  | .bctr c o => Sys2Proof.Machine.execBctr c o s
  | .bcta c o => Sys2Proof.Machine.execBcta c o s
  | .bcfr c o => Sys2Proof.Machine.execBcfr c o s
  | .bcfa c o => Sys2Proof.Machine.execBcfa c o s
  | .brnr r o => Sys2Proof.Machine.execBrnr r o s
  | .brna r o => Sys2Proof.Machine.execBrna r o s
  | .birr r o => Sys2Proof.Machine.execBirr r o s
  | .bira r o => Sys2Proof.Machine.execBira r o s
  | .bdrr r o => Sys2Proof.Machine.execBdrr r o s
  | .bdra r o => Sys2Proof.Machine.execBdra r o s
  | .bxa o => Sys2Proof.Machine.execBxa o s
  | .zbrr o => Sys2Proof.Machine.execZbrr o s
  | .bstr c o => Sys2Proof.Machine.execBstr c o s
  | .bsta c o => Sys2Proof.Machine.execBsta c o s
  | .bsfr c o => Sys2Proof.Machine.execBsfr c o s
  | .bsfa c o => Sys2Proof.Machine.execBsfa c o s
  | .bsnr r o => Sys2Proof.Machine.execBsnr r o s
  | .bsna r o => Sys2Proof.Machine.execBsna r o s
  | .bsxa o => Sys2Proof.Machine.execBsxa o s
  | .zbsr o => Sys2Proof.Machine.execZbsr o s
  | .retc c => Sys2Proof.Machine.execRetc c s
  | .rete c => Sys2Proof.Machine.execRete c s
  | .redd r => Sys2Proof.Machine.execRedd r s
  | .redc r => Sys2Proof.Machine.execRedc r s
  | .rede r v => Sys2Proof.Machine.execRede r v s
  | .wrtd r => Sys2Proof.Machine.execWrtd r s
  | .wrtc r => Sys2Proof.Machine.execWrtc r s
  | .wrte r v => Sys2Proof.Machine.execWrte r v s
  | .halt => Sys2Proof.Machine.execHalt s
  | .nop => Sys2Proof.Machine.execNop s
  | .tmi r v => Sys2Proof.Machine.execTmi r v s

end Sys2Proof.Machine
end

