-- ==== Sys2Proof/Machine/Fetch.lean ====
section
/-! DEFINITION. What happens at an instruction boundary: the pins are looked at, RESET and the interrupt come first, a
halted machine waits, and otherwise the next instruction is fetched (60_exceptions rules R223, R228, R234;
70_reset_and_hazards rule R250). -/

namespace Sys2Proof.Machine

/-- Both pins at rest: RESET "is normally low", INTREQ is "normally high" (70_reset_and_hazards R250, 60_exceptions
R222; log 8). -/
def quietPins : Pins := { reset := false, intreq := false }

/-- The levels of the two pins at this boundary: the next ones of the platform's list, past its end free values, never a
constant (60_exceptions R222; 92_eei_decisions D14; log 8). -/
def pinsNow (s : State) : Pins :=
  match s.pins with
  | p :: _ => p
  | [] => freePins s.draws

/-- The boundary has passed: its pin levels, listed or free, are used up (log 8). -/
def passBoundary (s : State) : State :=
  match s.pins with
  | _ :: rest => s.setPins rest
  | [] => drawn s

/-- What a boundary leads to: the next state itself (RESET, interrupt entry, waiting), or an instruction to run in the
state after its fetch. -/
inductive Boundary where
  | settled (t : State)
  | run (i : Instr) (t : State)
deriving DecidableEq, Repr

/-- The boundary at the start of a step: RESET overrides everything, then a request with II = 0 is taken, then a halted
machine goes on waiting, and else an instruction is fetched (60_exceptions R223, R228, R234; 70_reset_and_hazards R250,
R251; 92_eei_decisions D23, D25; log 21, 28). -/
def boundary (s : State) : Res Boundary :=
  if (pinsNow s).reset then .ok (.settled (resetEvent (passBoundary s)))
  else if (pinsNow s).intreq && !s.psu.ii then (interrupt (passBoundary s)).map .settled
  else if s.mode = .waitHalt then .ok (.settled (passBoundary s))
  else (fetchInstr (passBoundary s)).map fun x => .run x.1 x.2

/-- `s` in which the boundary to come lets an instruction be fetched: in Run and with levels that are neither
RESET nor a request that II lets through; free levels are settled at rest (log 26). -/
def letFetch (s : State) : State :=
  match s.pins with
  | p :: rest =>
    if p.reset || (p.intreq && !s.psu.ii) then (s.setMode .run).setPins (quietPins :: rest) else s.setMode .run
  | [] => (s.setMode .run).setPins [quietPins]

/-- `s` on a platform that has RAM at `a`. -/
def mapRam (a : Addr) (s : State) : State :=
  { s with platform :=
    { s.platform with memMap := ⟨(cellOf s.platform a).toNat, 1, .ram⟩ :: s.platform.memMap } }

/-- `s` with memory at `a` that can be fetched from: RAM there if the platform has a device or nothing. -/
def letRead (a : Addr) (s : State) : State :=
  match kindAt s.platform a with
  | .ram => s
  | .rom => s
  | .device => mapRam a s
  | .absent => mapRam a s

/-- `s` with a byte loaded at `a`, as the platform loads memory (ROM too). -/
def loadByte (a : Addr) (v : Byte) (s : State) : State :=
  poke a v (letRead a s)

/-- `s` with three bytes loaded where the next instruction is fetched, and that fetch let happen (log 26). -/
def placeInstr (b0 b1 b2 : Byte) (s : State) : State :=
  loadByte (nextAddr (nextAddr s.iar)) b2 (loadByte (nextAddr s.iar) b1 (loadByte s.iar b0 (letFetch s)))

end Sys2Proof.Machine
end

