-- ==== Sys2Proof/Machine/Step.lean ====
section
/-! DEFINITION. One step: an instruction boundary and, if it leads to one, one whole instruction (00_scope rule R5). -/

namespace Sys2Proof.Machine

/-- One step of the machine. -/
def step (s : State) : Host.Outcome State Fault Refusal :=
  match boundary s with
  | .ok (.settled t) => .next t
  | .ok (.run i t) => exec i t
  | .error (.fault f) => .fault f
  | .error (.refuse r) => .refused r

/-- `s` with the instruction whose bits are the low `nbits` of `w`, byte 0 in the low byte and zeros after it, stored
where the next step fetches (log 26). -/
def State.withFetchWord (s : State) (nbits w : Nat) : State :=
  placeInstr (tableByte (w % 2 ^ nbits) 0) (tableByte (w % 2 ^ nbits) 1) (tableByte (w % 2 ^ nbits) 2) s

end Sys2Proof.Machine
end

