-- ==== Sys2Proof/Safety.lean ====
section
/-! DEFINITION. What counts as a safe run, and the terms the claims about the machine use. -/

namespace Sys2Proof.Machine

/-! ## Safe runs -/

/-- An outcome that is a next state: neither a fault nor a refusal. -/
def Completes (o : Host.Outcome State Fault Refusal) : Prop := ∃ t, o = .next t

/-- `n` steps from `s` that all answer a next state. -/
def SafeRun (n : Nat) (s : State) : Prop := ∃ t, Host.Core.run core n s = .next t

/-- The memory is in its one canonical form: no cell stands where the platform's address lines reach none (20_memory R41;
log 2, 30). -/
abbrev Canonical (s : State) : Prop := Memory.wf (memSize s.platform) s.mem = true

/-- Two addresses on the pins that reach the same place in memory: equal ones, or, where ADR13 and ADR14 are ignored, those
whose 13 low bits are equal (20_memory R41). -/
def sameByte (p : Platform) (a b : Addr) : Prop :=
  a = b ∨ (p.pageLines = .ignored ∧ a.toNat % 8192 = b.toNat % 8192)

/-- The platform answers at every address (20_memory R65). -/
def AllMapped (s : State) : Prop := ∀ a : Addr, kindAt s.platform a ≠ .absent

/-- The platform has RAM or ROM at an address, so that a read gives the stored byte. -/
abbrev Plain (s : State) (a : Addr) : Prop := kindAt s.platform a = .ram ∨ kindAt s.platform a = .rom

/-! ## Relations between the state before and after -/

/-- `t` is `s` except for what reads of memory-mapped devices use up: the device bytes to come, the trace and the count
of free values. -/
def BusOnly (s t : State) : Prop :=
  t = { s with deviceIn := t.deviceIn, trace := t.trace, draws := t.draws }

/-- `t` is `s` except for the IAR, which is still in the same page, and for what reads of memory-mapped devices use up: what
a fetch may change (20_memory R47). -/
def FetchOnly (s t : State) : Prop :=
  t = { s with iar := t.iar, deviceIn := t.deviceIn, trace := t.trace, draws := t.draws } ∧ pageOf t.iar = pageOf s.iar

/-- The boundary to come lets an instruction be fetched: Run, no RESET, and no request that II lets through (60_exceptions
R223, R228; 70_reset_and_hazards R250). -/
def Fetches (s : State) : Prop :=
  s.mode = .run ∧ (pinsNow s).reset = false ∧ ((pinsNow s).intreq = true → s.psu.ii = true)

/-- `s` after its boundary has passed: the levels of this boundary are used up, and past the end of the platform's list
they are a draw (60_exceptions R222; 92_eei_decisions D14; log 8). -/
def afterBoundary (s : State) : State :=
  { s with pins := s.pins.tail, draws := if s.pins = [] then s.draws + 1 else s.draws }

/-- `t` is `s` with `v` in register `r` of the bank RS selects and with PSL `p`; every other register, those of the other
bank included, and every other field are those of `s` (10_state R11). -/
def RegResult (r : Reg) (v : Byte) (p : Psl) (s t : State) : Prop :=
  t = { s with regs := t.regs, psl := p } ∧
  (∀ q, regsRead s.psl.rs q t.regs = if q = r then v else regsRead s.psl.rs q s.regs) ∧
  bankOf (!s.psl.rs) t.regs = bankOf (!s.psl.rs) s.regs

/-- `t` is `s` after a subroutine branch to `a`: SP has counted up modulo 8, the entry it now points to holds the IAR of
`s`, the other entries and everything else are those of `s` (46_subroutine R185). -/
def Called (a : Addr) (s t : State) : Prop :=
  t = { s with iar := a, psu := { s.psu with sp := s.psu.sp + 1 }, ras := t.ras } ∧
  ∀ k, rasRead t.ras k = if k = s.psu.sp + 1 then s.iar else rasRead s.ras k

/-- `t` is `s` after a write of byte `v` at `a`, as the platform takes it: RAM stores it, for every address that reaches
the same place, ROM ignores it, a device sees it as an event; every other byte and every other field are those of `s`
(20_memory R41, R42, R65). -/
def Stored (a : Addr) (v : Byte) (s t : State) : Prop :=
  match kindAt s.platform a with
  | .ram => t = { s with mem := t.mem } ∧
      ∀ b, (sameByte s.platform a b → peek t b = v) ∧ (¬ sameByte s.platform a b → peek t b = peek s b)
  | .rom => t = s
  | .device => t = { s with trace := .memWrite a v :: s.trace }
  | .absent => False

/-- `u` is `s` after a device put byte `v` on the data bus: the next byte of the platform's list, or a free value, for
which `v` is not said (92_eei_decisions D14; log 6). -/
def BusRead (v : Byte) (s u : State) : Prop :=
  (∃ rest, s.deviceIn = v :: rest ∧ u = { s with deviceIn := rest }) ∨
  (s.deviceIn = [] ∧ u = { s with draws := s.draws + 1 })

/-- `u` is `s` after a sample of SENSE that gave `b`: the next one of the platform's list, or a free value, for which `b`
is not said (10_state R15; log 7). -/
def SenseSample (b : Bool) (s u : State) : Prop :=
  (∃ rest, s.senseIn = b :: rest ∧ u = { s with senseIn := rest }) ∨
  (s.senseIn = [] ∧ u = { s with draws := s.draws + 1 })

/-- The operand of a relative instruction in state `s` is the byte `m` at address `a`, and `s'` is the state after it is
read (40_load_store R100 (b)). -/
def RelOperand (o : RelArg) (s : State) (a : Addr) (m : Byte) (s' : State) : Prop :=
  ∃ s1, eaRel o s = .ok (a, s1) ∧ memRead a s1 = .ok (m, s')

/-- The operand of an absolute instruction with register field `r` in state `s` is the byte `m` at address `a`, the data
register is `d`, and `s'` is the state after it is read (40_load_store R100 (b)). -/
def AbsOperandIs (r : Reg) (o : AbsArg) (s : State) (a : Addr) (d : Reg) (m : Byte) (s' : State) : Prop :=
  ∃ s1, eaAbs r o s = .ok { addr := a, dreg := d, state := s1 } ∧ memRead a s1 = .ok (m, s')

/-- The data register of an absolute instruction: the register field, or R0 when indexed (30_encoding R78). -/
def dataReg (r : Reg) (o : AbsArg) : Reg := if o.ctl = .none then r else .r0

/-- The byte that the index register holds after the update the index control asks for (20_memory R53). -/
def indexValue (r : Reg) (o : AbsArg) (s : State) : Byte :=
  match o.ctl with
  | .none => readReg r s
  | .autoInc => BitVec.ofNat 8 ((readReg r s).toNat + 1)
  | .autoDec => BitVec.ofNat 8 ((readReg r s).toNat + 255)
  | .indexed => readReg r s

/-- The address with offset `n` modulo 8,192 in the page of `a` (20_memory R47, R50). -/
def inPage (a : Addr) (n : Int) : Addr :=
  BitVec.ofInt 15 ((a.toNat / 8192 * 8192 : Nat) + n % 8192)

/-- The addresses of the `n` bytes from the IAR on, in the page of the IAR (20_memory R47). -/
def addrsFromIar (s : State) (n : Nat) : List Addr :=
  (List.range n).map fun (k : Nat) => inPage s.iar (s.iar.toNat + k)

/-- The two-byte pointer at `p`, high byte first with its bit 7 dropped, the second byte at the next offset of the page
(20_memory R54). -/
def pointerAt (s : State) (p : Addr) : Addr :=
  BitVec.ofNat 15 ((peek s p).toNat % 128 * 256 + (peek s (inPage p (p.toNat + 1))).toNat)

/-- Both bytes of a pointer at `p` are in RAM or ROM. -/
abbrev PlainPointer (s : State) (p : Addr) : Prop := Plain s p ∧ Plain s (inPage p (p.toNat + 1))

/-- The address an operand at `p` means: `p`, or the pointer there when the indirect bit is set (20_memory R49). -/
def meant (ind : Bool) (s : State) (p : Addr) : Addr := if ind then pointerAt s p else p

/-- The address a relative operand forms: IAR plus displacement, in the page of the IAR (20_memory R50). -/
def relBase (o : RelArg) (s : State) : Addr := inPage s.iar (s.iar.toNat + o.disp.toInt)

/-- The address an absolute operand of a non-branch instruction forms: its 13 bits in the page of the IAR
(20_memory R52). -/
def absBase (o : AbsArg) (s : State) : Addr := inPage s.iar o.addr.toNat

/-- The address a zero-page operand forms: the displacement in page 0 (20_memory R51). -/
def zeroBase (o : RelArg) : Addr := inPage 0 o.disp.toInt

/-! ## Values in the spec's own arithmetic -/

/-- The condition code of a byte by its ranges: 0, 1 to 127, 128 to 255 (10_state R20). -/
def ccOfRange (b : Byte) : BitVec 2 :=
  if b.toNat = 0 then 0 else if b.toNat ≤ 127 then 1 else 2

/-- The carry that an addition takes in: C when WC = 1, else 0 (41_arithmetic R110). -/
def carryIn (p : Psl) : Nat := if p.wc && p.c then 1 else 0

/-- The borrow that a subtraction takes in: 1 when WC = 1 and C = 0, else 0 (10_state R26, 41_arithmetic R110). -/
def borrowIn (p : Psl) : Nat := if p.wc && !p.c then 1 else 0

/-- The sum byte of an addition. -/
def sumByte (p : Psl) (x y : Byte) : Byte := BitVec.ofNat 8 (x.toNat + y.toNat + carryIn p)

/-- The PSL after an addition: CC from the sum, C the carry out of bit 7, IDC the carry out of bit 3, OVF two's complement
overflow; RS, WC and COM are kept (41_arithmetic R110, 10_state R24). -/
def sumPsl (p : Psl) (x y : Byte) : Psl :=
  { p with
    cc := ccOfRange (sumByte p x y)
    c := decide (256 ≤ x.toNat + y.toNat + carryIn p)
    idc := decide (16 ≤ x.toNat % 16 + y.toNat % 16 + carryIn p)
    ovf := decide (x.toInt + y.toInt + carryIn p < -128 ∨ 127 < x.toInt + y.toInt + carryIn p) }

/-- The difference byte of a subtraction. -/
def diffByte (p : Psl) (x y : Byte) : Byte := BitVec.ofInt 8 ((x.toNat : Int) - y.toNat - borrowIn p)

/-- The PSL after a subtraction: C = 1 when there is no borrow, IDC = 1 when there is no borrow from the low digit, OVF
two's complement overflow; RS, WC and COM are kept (41_arithmetic R110, 10_state R24, R26). -/
def diffPsl (p : Psl) (x y : Byte) : Psl :=
  { p with
    cc := ccOfRange (diffByte p x y)
    c := decide (y.toNat + borrowIn p ≤ x.toNat)
    idc := decide (y.toNat % 16 + borrowIn p ≤ x.toNat % 16)
    ovf := decide (x.toInt - y.toInt - borrowIn p < -128 ∨ 127 < x.toInt - y.toInt - borrowIn p) }

/-- The PSL as a number: CC, IDC, RS, WC, OVF, COM, C from bit 7 down (10_state R14). -/
def pslNumber (p : Psl) : Byte :=
  BitVec.ofNat 8 (p.cc.toNat * 64 + p.idc.toNat * 32 + p.rs.toNat * 16 + p.wc.toNat * 8 + p.ovf.toNat * 4 +
    p.com.toNat * 2 + p.c.toNat)

/-- The PSU with Sense `b` as a number: S, F, II in bits 7 to 5, zero in bits 4 and 3, SP in bits 2 to 0
(10_state R14). -/
def psuNumber (b : Bool) (u : Psu) : Byte :=
  BitVec.ofNat 8 (b.toNat * 128 + u.flag.toNat * 64 + u.ii.toNat * 32 + u.sp.toNat)

/-- The byte one place to the right, with `top` entering bit 7 (43_compare_rotate R145). -/
def rotatedRight (top : Bool) (x : Byte) : Byte := BitVec.ofNat 8 (x.toNat / 2 + top.toNat * 128)

/-- The byte one place to the left, with `low` entering bit 0 (43_compare_rotate R145). -/
def rotatedLeft (low : Bool) (x : Byte) : Byte := BitVec.ofNat 8 (x.toNat * 2 + low.toNat)

/-- The PSL after a rotate with WC = 1 of `x` into `res` with carry out `c`: CC from the result, IDC its bit 5, OVF whether
bit 7 changed; RS, WC and COM are kept (43_compare_rotate R145). -/
def rotatePsl (p : Psl) (x res : Byte) (c : Bool) : Psl :=
  { p with cc := ccOfRange res, c := c, idc := res.getLsbD 5, ovf := res.getLsbD 7 != x.getLsbD 7 }

/-- The byte whose digits are adjusted one by one: ten is added modulo 16 to the high digit when C = 0 and to the low
digit when IDC = 0 (41_arithmetic R120). -/
def adjustedByte (p : Psl) (x : Byte) : Byte :=
  BitVec.ofNat 8
    ((x.toNat / 16 + if p.c then 0 else 10) % 16 * 16 + (x.toNat % 16 + if p.idc then 0 else 10) % 16)

/-- CC after a comparison: 01 greater, 00 equal, 10 less; unsigned when COM = 1, two's complement when COM = 0
(43_compare_rotate R140). -/
def compared (com : Bool) (x y : Byte) (c : BitVec 2) : Prop :=
  (c = 1 ∨ c = 0 ∨ c = 2) ∧
  (com = true → ((c = 1 ↔ y.toNat < x.toNat) ∧ (c = 0 ↔ x.toNat = y.toNat) ∧ (c = 2 ↔ x.toNat < y.toNat))) ∧
  (com = false → ((c = 1 ↔ y.toInt < x.toInt) ∧ (c = 0 ↔ x.toInt = y.toInt) ∧ (c = 2 ↔ x.toInt < y.toInt)))

/-- CC after a test of `s` under mask `m`: 00 when every bit that is 1 in `m` is 1 in `s`, else 10
(44_program_status R158). -/
def tested (s m : Byte) (c : BitVec 2) : Prop :=
  ((∀ k < 8, m.getLsbD k = true → s.getLsbD k = true) → c = 0) ∧
  ((∃ k < 8, m.getLsbD k = true ∧ s.getLsbD k = false) → c = 2)

/-- The ten codes of byte 0 that are in no listing (30_encoding R86 (b)). -/
def undefinedCodes : List Byte := [0x10, 0x11, 0x90, 0x91, 0xB6, 0xB7, 0xC4, 0xC5, 0xC6, 0xC7]

/-- `n` times the same instruction, stopping at the first fault or refusal. -/
def repeatExec (i : Instr) : Nat → State → Host.Outcome State Fault Refusal
  | 0, s => .next s
  | n + 1, s =>
    match exec i s with
    | .next t => repeatExec i n t
    | .fault f => .fault f
    | .refused r => .refused r

/-- Subroutine calls made one after another from the addresses in a list. -/
def pushAll (l : List Addr) (s : State) : State := l.foldl (fun s a => push a s) s

/-- The addresses that `n` returns go to, in order, and the state after them. -/
def popAll : Nat → State → List Addr × State
  | 0, s => ([], s)
  | n + 1, s => ((returnPop s).iar :: (popAll n (returnPop s)).1, (popAll n (returnPop s)).2)

/-- `s` with another COM. -/
def withCom (b : Bool) (s : State) : State := { s with psl := { s.psl with com := b } }

/-- `s` with other samples of SENSE to come. -/
def withSense (l : List Bool) (s : State) : State := { s with senseIn := l }

/-- The outcome with every next state changed by `f`. -/
def mapNext (f : State → State) : Host.Outcome State Fault Refusal → Host.Outcome State Fault Refusal
  | .next t => .next (f t)
  | .fault e => .fault e
  | .refused r => .refused r

/-! ## Which instructions may change what (10_state R12 to R26, R34; 45_branch R179) -/

/-- Whether an absolute operand changes its index register (20_memory R53). -/
def stepsIndex (o : AbsArg) : Bool := o.ctl = .autoInc || o.ctl = .autoDec

/-- The registers that an instruction may write, by number in the bank of RS before it (10_state R34). -/
def mayWriteReg (i : Instr) (q : Reg) : Bool :=
  match i with
  | .lodz _ | .addz _ | .subz _ | .andz _ | .iorz _ | .eorz _ | .spsu | .spsl => q = .r0
  | .lodi r _ | .addi r _ | .subi r _ | .andi r _ | .iori r _ | .eori r _ | .rede r _ => q = r
  | .lodr r _ | .addr r _ | .subr r _ | .andr r _ | .iorr r _ | .eorr r _ => q = r
  | .birr r _ | .bira r _ | .bdrr r _ | .bdra r _ => q = r
  | .strz r | .dar r | .rrr r | .rrl r | .redd r | .redc r => q = r
  | .loda r o | .adda r o | .suba r o | .anda r o | .iora r o | .eora r o => q = dataReg r o || (q = r && stepsIndex o)
  | .stra r o | .coma r o => q = r && stepsIndex o
  | _ => false

/-- The instructions that store to memory. -/
def storesMemory : Instr → Bool
  | .strr _ _ | .stra _ _ => true
  | _ => false

/-- The instructions that write PSL bits as a whole. -/
def writesWholePsl : Instr → Bool
  | .lpsl | .ppsl _ | .cpsl _ => true
  | _ => false

/-- The instructions that 10_state R19 names as able to make CC 11. -/
def mayMakeCC3 : Instr → Bool
  | .lpsl | .ppsl _ => true
  | _ => false

/-- The instructions that write C, IDC and OVF by their operation. -/
def writesCarry : Instr → Bool
  | .addz _ | .addi _ _ | .addr _ _ | .adda _ _ | .subz _ | .subi _ _ | .subr _ _ | .suba _ _ | .rrr _ | .rrl _ => true
  | _ => false

/-- The instructions that 10_state R19 lists as not writing CC. -/
def keepsCC : Instr → Bool
  | .strr _ _ | .stra _ _ | .bctr _ _ | .bcta _ _ | .bcfr _ _ | .bcfa _ _ | .brnr _ _ | .brna _ _ | .birr _ _ | .bira _ _
  | .bdrr _ _ | .bdra _ _ | .bxa _ | .zbrr _ | .bstr _ _ | .bsta _ _ | .bsfr _ _ | .bsfa _ _ | .bsnr _ _ | .bsna _ _
  | .bsxa _ | .zbsr _ | .retc _ | .rete _ | .wrtc _ | .wrtd _ | .wrte _ _ | .lpsu | .ppsu _ | .cpsu _ | .halt | .nop => true
  | _ => false

/-- The instructions that write F. -/
def writesFlag : Instr → Bool
  | .lpsu | .ppsu _ | .cpsu _ => true
  | _ => false

/-- The instructions that may write II. -/
def writesInhibit : Instr → Bool
  | .lpsu | .ppsu _ | .cpsu _ | .rete _ => true
  | _ => false

/-- The subroutine branches. -/
def pushesRas : Instr → Bool
  | .bstr _ _ | .bsta _ _ | .bsfr _ _ | .bsfa _ _ | .bsnr _ _ | .bsna _ _ | .bsxa _ | .zbsr _ => true
  | _ => false

/-- The instructions that may write SP. -/
def writesSp : Instr → Bool
  | .lpsu | .ppsu _ | .cpsu _ | .retc _ | .rete _ => true
  | i => pushesRas i

/-- The instructions whose branch or return may leave the page (45_branch R179): relative branches only when indirect,
absolute and zero-page branches and returns always. -/
def mayChangePage : Instr → Bool
  | .bctr _ o | .bcfr _ o | .brnr _ o | .birr _ o | .bdrr _ o | .bstr _ o | .bsfr _ o | .bsnr _ o => o.ind
  | .bcta _ _ | .bcfa _ _ | .brna _ _ | .bira _ _ | .bdra _ _ | .bxa _ | .zbrr _ | .bsta _ _ | .bsfa _ _ | .bsna _ _
  | .bsxa _ | .zbsr _ | .retc _ | .rete _ => true
  | _ => false

/-- The instructions that transfer control. -/
def transfersControl : Instr → Bool
  | .bctr _ _ | .bcfr _ _ | .brnr _ _ | .birr _ _ | .bdrr _ _ | .bstr _ _ | .bsfr _ _ | .bsnr _ _ => true
  | i => mayChangePage i

/-- The instructions that sample SENSE. -/
def readsSense : Instr → Bool
  | .spsu | .tpsu _ => true
  | _ => false

/-- The instructions that read COM. -/
def readsCompareMode : Instr → Bool
  | .comz _ | .comi _ _ | .comr _ _ | .coma _ _ | .spsl | .tpsl _ => true
  | _ => false

end Sys2Proof.Machine
end

