-- ==== Sys2Proof/Certificates/Slice0/Obligations.lean ====
section
/-! DEFINITION. The statements about the machine, in the order encoding, step, memory and operands, the instruction
families, the status bits, the interrupt and RESET, and the page lines. Each docstring names the rules of spec/ it comes
from and, where it rests on a convention of the model, the log entry. -/

section Statements

open Sys2Proof Sys2Proof.Machine

/-! ## Encoding -/

/-- The bytes of a well-formed instruction decode to it, with every operand at every value (30_encoding R70 to R85). -/
def Obligations.DecodeEncodeRoundTrip : Prop :=
  ∀ (i : Instr) (rest : List Byte), i.wf = true → decode (encode i ++ rest) = .ok (i, rest)

/-- What decodes is a well-formed instruction, and its encoding is the bytes it was decoded from: no bit of an instruction
is ignored (30_encoding R86 (c)). -/
def Obligations.DecodedBytesReencode : Prop :=
  ∀ (bs : List Byte) (i : Instr) (rest : List Byte), decode bs = .ok (i, rest) → i.wf = true ∧ encode i ++ rest = bs

/-- Decoding is total: 0x00 is indeterminate, ten codes are undefined, every other byte 0 with any bytes 1 and 2 is an
instruction (30_encoding R85, R86, R88; 92_eei_decisions D3, D4; log 22). -/
def Obligations.FirstByteMap : Prop :=
  ∀ b0 b1 b2 : Byte,
    (b0 = 0 → decode [b0, b1, b2] = .error .indeterminate) ∧
    (b0 ∈ undefinedCodes → decode [b0, b1, b2] = .error (.undefined b0)) ∧
    (b0 ≠ 0 → b0 ∉ undefinedCodes → ∃ i rest, decode [b0, b1, b2] = .ok (i, rest) ∧ i.wf = true)

/-- The worked encodings of 30_encoding R98 decode to what they stand for. -/
def Obligations.SpecWordsDecode : Prop :=
  decode [0x05, 0xFF] = .ok (.lodi .r1 0xFF, []) ∧
  decode [0x82] = .ok (.addz .r2, []) ∧
  decode [0x1B, 0x7E] = .ok (.bctr 3 { ind := false, disp := -2 }, []) ∧
  decode [0x1F, 0x23, 0x45] = .ok (.bcta 3 { ind := false, addr := 0x2345 }, []) ∧
  decode [0x0F, 0x21, 0x00] = .ok (.loda .r3 { ind := false, ctl := .autoInc, addr := 0x100 }, []) ∧
  decode [0x0F, 0xE1, 0x00] = .ok (.loda .r3 { ind := true, ctl := .indexed, addr := 0x100 }, []) ∧
  decode [0xCD, 0x5F, 0xFF] = .ok (.stra .r1 { ind := false, ctl := .autoDec, addr := 0x1FFF }, []) ∧
  decode [0x9B, 0x78] = .ok (.zbrr { ind := false, disp := -8 }, []) ∧
  decode [0xBB, 0x9F] = .ok (.zbsr { ind := true, disp := 31 }, []) ∧
  decode [0xDB, 0x79] = .ok (.birr .r3 { ind := false, disp := -7 }, []) ∧
  decode [0x75, 0x08] = .ok (.cpsl 0x08, []) ∧
  decode [0x17] = .ok (.retc 3, []) ∧
  decode [0xF4, 0x01] = .ok (.tmi .r0 0x01, []) ∧
  decode [0x60] = .ok (.iorz .r0, [])

/-! ## Step -/

/-- When the boundary lets an instruction be fetched and the `n` bytes from the IAR on, in RAM or ROM, decode to a
well-formed instruction, the step is that instruction, with the IAR `n` bytes further in its page and this boundary's pin
levels used up (00_scope R5, 20_memory R47, 40_load_store R100 (a); log 8, 10). -/
def Obligations.StepRunsDecodedInstruction : Prop :=
  ∀ (s : State) (n : Nat) (i : Instr), Fetches s → (∀ a ∈ addrsFromIar s n, Plain s a) →
    decode ((addrsFromIar s n).map (peek s)) = .ok (i, []) → i.wf = true →
    step s = exec i { afterBoundary s with iar := inPage s.iar (s.iar.toNat + n) }

/-- A step ends in one of the two named faults exactly when it fetches a byte 0 that has no meaning. That the machine stops
there is the choice of the spec and of the model, not of the manual, which says "indeterminate results" of 0x00 and nothing
of the ten codes (60_exceptions R220; 92_eei_decisions D3, D4; log 22). -/
def Obligations.UndefinedCodesFault : Prop :=
  ∀ s : State, Fetches s → Plain s s.iar →
    (step s = .fault .indeterminateOpcode ↔ peek s s.iar = 0) ∧
    (∀ b, step s = .fault (.undefinedOpcode b) ↔ b = peek s s.iar ∧ b ∈ undefinedCodes)

/-- No instruction stops but at an address where the platform has nothing, or, only if `index_wrap` is `refuse`, at an
indexed address past the page (60_exceptions R221; 92_eei_decisions D7, D20; log 4, 11). -/
def Obligations.ExecStopsAreNamed : Prop :=
  ∀ (i : Instr) (s : State),
    (∀ f, exec i s = .fault f → ∃ a, f = .neverAcknowledged a ∧ kindAt s.platform a = .absent) ∧
    (∀ r, exec i s = .refused r → ∃ a, r = .indexedAcrossPage a ∧ s.platform.indexWrap = .refuse)

/-- On a platform that answers at every address and wraps indexed sums, every instruction completes, whatever its operands
and the rest of the state (60_exceptions R221; 20_memory R42, R44, R64). -/
def Obligations.AllInstructionsComplete : Prop :=
  ∀ (i : Instr) (s : State), AllMapped s → s.platform.indexWrap = .wrap → Completes (exec i s)

/-- Where the platform has nothing, the operand access of every instruction with a relative or absolute operand never
completes: the eight of format R and the eight of format A (20_memory R42, R46, R65; 92_eei_decisions D20; log 4). -/
def Obligations.UnansweredAccessStops : Prop :=
  (∀ (r : Reg) (o : RelArg) (s : State) (a : Addr) (s' : State),
    eaRel o s = .ok (a, s') → kindAt s.platform a = .absent →
    exec (.lodr r o) s = .fault (.neverAcknowledged a) ∧ exec (.strr r o) s = .fault (.neverAcknowledged a) ∧
    exec (.addr r o) s = .fault (.neverAcknowledged a) ∧ exec (.subr r o) s = .fault (.neverAcknowledged a) ∧
    exec (.andr r o) s = .fault (.neverAcknowledged a) ∧ exec (.iorr r o) s = .fault (.neverAcknowledged a) ∧
    exec (.eorr r o) s = .fault (.neverAcknowledged a) ∧ exec (.comr r o) s = .fault (.neverAcknowledged a)) ∧
  (∀ (r d : Reg) (o : AbsArg) (s : State) (a : Addr) (s' : State),
    eaAbs r o s = .ok { addr := a, dreg := d, state := s' } → kindAt s.platform a = .absent →
    exec (.loda r o) s = .fault (.neverAcknowledged a) ∧ exec (.stra r o) s = .fault (.neverAcknowledged a) ∧
    exec (.adda r o) s = .fault (.neverAcknowledged a) ∧ exec (.suba r o) s = .fault (.neverAcknowledged a) ∧
    exec (.anda r o) s = .fault (.neverAcknowledged a) ∧ exec (.iora r o) s = .fault (.neverAcknowledged a) ∧
    exec (.eora r o) s = .fault (.neverAcknowledged a) ∧ exec (.coma r o) s = .fault (.neverAcknowledged a))

/-! ## Memory -/

/-- Every step keeps the memory in its canonical form (log 2, 30). -/
def Obligations.MemoryStaysCanonical : Prop :=
  ∀ s t : State, Canonical s → step s = .next t → Canonical t

/-- A read of RAM or ROM after a write to RAM gives the byte written at every address of that byte, and everywhere else
what was there before (20_memory R41, R61, R65; log 30). -/
def Obligations.MemoryReadAfterWrite : Prop :=
  ∀ (a b : Addr) (v : Byte) (s : State), Canonical s → kindAt s.platform a = .ram → Plain s b →
    ∃ t, memWrite a v s = .ok t ∧
      (sameByte s.platform a b → memRead b t = .ok (v, t)) ∧
      (¬ sameByte s.platform a b → memRead b t = .ok (peek s b, t))

/-- No instruction but STRR and STRA changes a byte of memory (10_state R34, 20_memory R46). -/
def Obligations.OnlyStoresChangeMemory : Prop :=
  ∀ (i : Instr) (s t : State), storesMemory i = false → exec i s = .next t → ∀ a, peek t a = peek s a

/-- No step changes the platform, and none changes a byte that is not RAM (20_memory R65; 92_eei_decisions D20;
log 3, 5). -/
def Obligations.PlatformAndRomNeverChange : Prop :=
  ∀ s t : State, Canonical s → step s = .next t →
    t.platform = s.platform ∧ ∀ a, kindAt s.platform a ≠ .ram → peek t a = peek s a

/-- A byte stored by STRR is the byte that a fetch at its address gives right after (20_memory R60). -/
def Obligations.StoreSeenByFetch : Prop :=
  ∀ (r : Reg) (o : RelArg) (s : State) (a : Addr) (s' : State), Canonical s → eaRel o s = .ok (a, s') →
    kindAt s.platform a = .ram →
    ∃ t u, exec (.strr r o) s = .next t ∧ fetchByte { t with iar := a } = .ok (readReg r s, u)

/-! ## Operand addresses -/

/-- Relative addressing: the displacement is added to the address of the byte following, modulo 8,192 in its page; with
the indirect bit set the two bytes there are the address (20_memory R50). -/
def Obligations.RelativeAddressing : Prop :=
  (∀ b1 : Byte, (relArg b1).ind = b1.getLsbD 7 ∧ (relArg b1).disp.toNat = b1.toNat % 128) ∧
  ∀ (o : RelArg) (s : State),
    (o.ind = false → eaRel o s = .ok (relBase o s, s)) ∧
    (o.ind = true → eaRel o s = readIndirect (relBase o s) s)

/-- Zero-page relative addressing, of ZBRR, ZBSR and the interrupt, whose vector is the next device byte (20_memory R51;
60_exceptions R225, R227; log 6). -/
def Obligations.ZeroPageAddressing : Prop :=
  ∀ (o : RelArg) (s : State),
    (o.ind = false → eaZero o s = .ok (zeroBase o, s)) ∧
    (o.ind = true → eaZero o s = readIndirect (zeroBase o) s) ∧
    (∀ a s', eaZero o s = .ok (a, s') →
      exec (.zbrr o) s = .next { s' with iar := a } ∧ ∃ t, exec (.zbsr o) s = .next t ∧ t.iar = a) ∧
    (∀ v rest, s.deviceIn = v :: rest → (relArg v).ind = false → ∃ t, interrupt s = .ok t ∧ t.iar = zeroBase (relArg v))

/-- Branch absolute addressing: 15 bits of the instruction, or with the indirect bit set the two bytes there; a taken
branch writes all 15 bits (20_memory R56). -/
def Obligations.BranchAddressing : Prop :=
  (∀ b1 b2 : Byte, (braArg b1 b2).ind = b1.getLsbD 7 ∧
    (braArg b1 b2).addr.toNat = b1.toNat % 128 * 256 + b2.toNat) ∧
  ∀ (o : BraArg) (s : State),
    (o.ind = false → eaBra o s = .ok (o.addr, s)) ∧
    (o.ind = true → eaBra o s = readIndirect o.addr s) ∧
    (∀ a s', eaBra o s = .ok (a, s') → exec (.bcta 3 o) s = .next { s' with iar := a })

/-- A pointer in RAM or ROM is read high byte first, bit 7 of the first byte ignored, the second byte in the page of the
first (20_memory R43, R54; 92_eei_decisions D8; log 10). -/
def Obligations.IndirectPointer : Prop :=
  ∀ (p : Addr) (s : State), PlainPointer s p → readIndirect p s = .ok (pointerAt s p, s)

/-- Absolute addressing of non-branch instructions: the index register is stepped first, the pointer is read in the
current page, the unsigned index is added in the page of the base, and an indexed instruction works on R0
(20_memory R52, R53, R55; 30_encoding R78; 92_eei_decisions D7, D9, D22; log 10, 11, 12, 19). -/
def Obligations.AbsoluteAddressing : Prop :=
  ∀ (r : Reg) (o : AbsArg) (s : State), (o.ind = true → PlainPointer s (absBase o s)) →
    RegResult r (indexValue r o s) s.psl s (stepIndex r o.ctl s) ∧
      (o.ctl = .none →
        eaAbs r o s = .ok { addr := meant o.ind s (absBase o s), dreg := r, state := stepIndex r o.ctl s }) ∧
      (o.ctl ≠ .none →
        (s.platform.indexWrap = .wrap ∨
          (meant o.ind s (absBase o s)).toNat % 8192 + (indexValue r o s).toNat < 8192) →
        eaAbs r o s = .ok
          { addr := inPage (meant o.ind s (absBase o s))
              ((meant o.ind s (absBase o s)).toNat + (indexValue r o s).toNat)
            dreg := .r0
            state := stepIndex r o.ctl s }) ∧
      (o.ctl ≠ .none → s.platform.indexWrap = .refuse →
        8192 ≤ (meant o.ind s (absBase o s)).toNat % 8192 + (indexValue r o s).toNat →
        ∃ a, eaAbs r o s = .error (.refuse (.indexedAcrossPage a)))

/-! ## Load and store -/

/-- LODZ, LODI, STRZ: the register, CC from it, and nothing else (40_load_store R101, R102, R105). -/
def Obligations.RegisterLoads : Prop :=
  ∀ (r : Reg) (v : Byte) (s : State),
    (r ≠ .r0 → ∃ t, exec (.lodz r) s = .next t ∧
      RegResult .r0 (readReg r s) { s.psl with cc := ccOfRange (readReg r s) } s t) ∧
    (∃ t, exec (.lodi r v) s = .next t ∧ RegResult r v { s.psl with cc := ccOfRange v } s t) ∧
    (r ≠ .r0 → ∃ t, exec (.strz r) s = .next t ∧
      RegResult r (readReg .r0 s) { s.psl with cc := ccOfRange (readReg .r0 s) } s t)

/-- LODR and LODA: the operand byte goes into the data register, CC follows it; besides that, only the index register and
what device reads use up change. Indexed on register 0, R0 is index and destination (40_load_store R103, R104; 20_memory R53,
R55; 92_eei_decisions D22; log 6, 19). -/
def Obligations.MemoryLoads : Prop :=
  (∀ (r : Reg) (o : RelArg) (s : State) (a : Addr) (m : Byte) (s' : State), RelOperand o s a m s' →
    BusOnly s s' ∧
    ∃ t, exec (.lodr r o) s = .next t ∧ RegResult r m { s.psl with cc := ccOfRange m } s' t) ∧
  (∀ (r d : Reg) (o : AbsArg) (s : State) (a : Addr) (m : Byte) (s' : State), AbsOperandIs r o s a d m s' →
    d = dataReg r o ∧ BusOnly (stepIndex r o.ctl s) s' ∧
    ∃ t, exec (.loda r o) s = .next t ∧ RegResult d m { s.psl with cc := ccOfRange m } s' t)

/-- STRR: register r is stored at the relative address; nothing else changes but what device reads use up
(40_load_store R106; 20_memory R65; log 5). -/
def Obligations.RelativeStore : Prop :=
  ∀ (r : Reg) (o : RelArg) (s : State) (a : Addr) (s' : State), Canonical s → eaRel o s = .ok (a, s') →
    kindAt s.platform a ≠ .absent →
    BusOnly s s' ∧ ∃ t, exec (.strr r o) s = .next t ∧ Stored a (readReg r s) s' t

/-- STRA: the data register, R0 when indexed, is stored at the absolute address, after the index register was stepped;
nothing else changes but what device reads use up (40_load_store R107; 20_memory R65; 92_eei_decisions D22; log 5, 19). -/
def Obligations.AbsoluteStore : Prop :=
  ∀ (r d : Reg) (o : AbsArg) (s : State) (a : Addr) (s' : State), Canonical s →
    eaAbs r o s = .ok { addr := a, dreg := d, state := s' } → kindAt s.platform a ≠ .absent →
    d = dataReg r o ∧ BusOnly (stepIndex r o.ctl s) s' ∧ ∃ t, exec (.stra r o) s = .next t ∧ Stored a (readReg d s') s' t

/-! ## Arithmetic -/

/-- The adder and the subtracter in the spec's arithmetic, and what ADDZ, SUBZ, ADDI and SUBI write with them: the first
operand's register, C, IDC, OVF and CC, and nothing else (41_arithmetic R110). -/
def Obligations.AdderRule : Prop :=
  (∀ (p : Psl) (x y : Byte),
    (add8 p x y).value = sumByte p x y ∧ pslAfterAlu p (add8 p x y) = sumPsl p x y ∧
    (sub8 p x y).value = diffByte p x y ∧ pslAfterAlu p (sub8 p x y) = diffPsl p x y) ∧
  ∀ (r : Reg) (y : Byte) (s : State),
    (∃ t, exec (.addz r) s = .next t ∧
      RegResult .r0 (sumByte s.psl (readReg .r0 s) (readReg r s)) (sumPsl s.psl (readReg .r0 s) (readReg r s)) s t) ∧
    (∃ t, exec (.subz r) s = .next t ∧
      RegResult .r0 (diffByte s.psl (readReg .r0 s) (readReg r s)) (diffPsl s.psl (readReg .r0 s) (readReg r s)) s t) ∧
    (∃ t, exec (.addi r y) s = .next t ∧
      RegResult r (sumByte s.psl (readReg r s) y) (sumPsl s.psl (readReg r s) y) s t) ∧
    (∃ t, exec (.subi r y) s = .next t ∧
      RegResult r (diffByte s.psl (readReg r s) y) (diffPsl s.psl (readReg r s) y) s t)

/-- ADDR, SUBR, ADDA, SUBA: the data register takes the sum or difference of its byte and the operand, and C, IDC, OVF and CC
follow. The data register is R0 when indexed; indexed on register 0, the updated R0 is the first operand (the spec's decision
D22, log 19). Besides that, only the index register, stepped without a flag, and what device reads use up change
(41_arithmetic R110, R114, R115, R118, R119; 20_memory R53, R55; 92_eei_decisions D22; log 6, 19). -/
def Obligations.AddSubMemory : Prop :=
  (∀ (r : Reg) (o : RelArg) (s : State) (a : Addr) (m : Byte) (s' : State), RelOperand o s a m s' →
    BusOnly s s' ∧
    (∃ t, exec (.addr r o) s = .next t ∧
      RegResult r (sumByte s.psl (readReg r s) m) (sumPsl s.psl (readReg r s) m) s' t) ∧
    (∃ t, exec (.subr r o) s = .next t ∧
      RegResult r (diffByte s.psl (readReg r s) m) (diffPsl s.psl (readReg r s) m) s' t)) ∧
  (∀ (r d : Reg) (o : AbsArg) (s : State) (a : Addr) (m : Byte) (s' : State), AbsOperandIs r o s a d m s' →
    d = dataReg r o ∧ BusOnly (stepIndex r o.ctl s) s' ∧
    (∃ t, exec (.adda r o) s = .next t ∧
      RegResult d (sumByte s.psl (readReg d s') m) (sumPsl s.psl (readReg d s') m) s' t) ∧
    (∃ t, exec (.suba r o) s = .next t ∧
      RegResult d (diffByte s.psl (readReg d s') m) (diffPsl s.psl (readReg d s') m) s' t))

/-- DAR: the two digits are adjusted on their own; C, IDC and OVF are kept; CC is that of the result, or any value when
`dar_cc_defined` is false (41_arithmetic R120; 92_eei_decisions D12, D24; log 14, 20). -/
def Obligations.DecimalAdjust : Prop :=
  ∀ (r : Reg) (s : State),
    (s.platform.darCcDefined = true → ∃ t, exec (.dar r) s = .next t ∧
      RegResult r (adjustedByte s.psl (readReg r s))
        { s.psl with cc := ccOfRange (adjustedByte s.psl (readReg r s)) } s t) ∧
    (s.platform.darCcDefined = false → ∃ c t, exec (.dar r) s = .next t ∧
      RegResult r (adjustedByte s.psl (readReg r s)) { s.psl with cc := c } { s with draws := s.draws + 1 } t)

/-! ## Logical -/

/-- The twelve logical instructions: the destination register, CC from it, and no other PSW bit; indexed on register 0, the
updated R0 is combined. Besides that, only the index register and what device reads use up change (42_logical R125 to R137;
20_memory R53, R55; 92_eei_decisions D22; log 6, 19). -/
def Obligations.LogicalInstructions : Prop :=
  (∀ (r : Reg) (v : Byte) (s : State),
    (r ≠ .r0 → ∃ t, exec (.andz r) s = .next t ∧ RegResult .r0 (readReg .r0 s &&& readReg r s)
      { s.psl with cc := ccOfRange (readReg .r0 s &&& readReg r s) } s t) ∧
    (∃ t, exec (.iorz r) s = .next t ∧ RegResult .r0 (readReg .r0 s ||| readReg r s)
      { s.psl with cc := ccOfRange (readReg .r0 s ||| readReg r s) } s t) ∧
    (∃ t, exec (.eorz r) s = .next t ∧ RegResult .r0 (readReg .r0 s ^^^ readReg r s)
      { s.psl with cc := ccOfRange (readReg .r0 s ^^^ readReg r s) } s t) ∧
    (∃ t, exec (.andi r v) s = .next t ∧
      RegResult r (readReg r s &&& v) { s.psl with cc := ccOfRange (readReg r s &&& v) } s t) ∧
    (∃ t, exec (.iori r v) s = .next t ∧
      RegResult r (readReg r s ||| v) { s.psl with cc := ccOfRange (readReg r s ||| v) } s t) ∧
    (∃ t, exec (.eori r v) s = .next t ∧
      RegResult r (readReg r s ^^^ v) { s.psl with cc := ccOfRange (readReg r s ^^^ v) } s t)) ∧
  (∀ (r : Reg) (o : RelArg) (s : State) (a : Addr) (m : Byte) (s' : State), RelOperand o s a m s' →
    BusOnly s s' ∧
    (∃ t, exec (.andr r o) s = .next t ∧
      RegResult r (readReg r s &&& m) { s.psl with cc := ccOfRange (readReg r s &&& m) } s' t) ∧
    (∃ t, exec (.iorr r o) s = .next t ∧
      RegResult r (readReg r s ||| m) { s.psl with cc := ccOfRange (readReg r s ||| m) } s' t) ∧
    (∃ t, exec (.eorr r o) s = .next t ∧
      RegResult r (readReg r s ^^^ m) { s.psl with cc := ccOfRange (readReg r s ^^^ m) } s' t)) ∧
  (∀ (r d : Reg) (o : AbsArg) (s : State) (a : Addr) (m : Byte) (s' : State), AbsOperandIs r o s a d m s' →
    d = dataReg r o ∧ BusOnly (stepIndex r o.ctl s) s' ∧
    (∃ t, exec (.anda r o) s = .next t ∧
      RegResult d (readReg d s' &&& m) { s.psl with cc := ccOfRange (readReg d s' &&& m) } s' t) ∧
    (∃ t, exec (.iora r o) s = .next t ∧
      RegResult d (readReg d s' ||| m) { s.psl with cc := ccOfRange (readReg d s' ||| m) } s' t) ∧
    (∃ t, exec (.eora r o) s = .next t ∧
      RegResult d (readReg d s' ^^^ m) { s.psl with cc := ccOfRange (readReg d s' ^^^ m) } s' t))

/-! ## Compare and rotate -/

/-- The compare core and its four instructions: CC tells greater, equal or less, unsigned when COM = 1 and two's complement
when COM = 0, and nothing else is written but the stepped index register and what device reads use up; COMA indexed on register
0 compares the updated R0 (43_compare_rotate R140 to R144; 20_memory R53, R55; 92_eei_decisions D22; log 6, 19). -/
def Obligations.CompareInstructions : Prop :=
  (∀ (r : Reg) (v : Byte) (s : State),
    (∃ c, compared s.psl.com (readReg .r0 s) (readReg r s) c ∧
      exec (.comz r) s = .next { s with psl := { s.psl with cc := c } }) ∧
    (∃ c, compared s.psl.com (readReg r s) v c ∧
      exec (.comi r v) s = .next { s with psl := { s.psl with cc := c } })) ∧
  (∀ (r : Reg) (o : RelArg) (s : State) (a : Addr) (m : Byte) (s' : State), RelOperand o s a m s' →
    BusOnly s s' ∧ ∃ c, compared s.psl.com (readReg r s) m c ∧
      exec (.comr r o) s = .next { s' with psl := { s.psl with cc := c } }) ∧
  (∀ (r d : Reg) (o : AbsArg) (s : State) (a : Addr) (m : Byte) (s' : State), AbsOperandIs r o s a d m s' →
    d = dataReg r o ∧ BusOnly (stepIndex r o.ctl s) s' ∧ ∃ c, compared s.psl.com (readReg d s') m c ∧
      exec (.coma r o) s = .next { s' with psl := { s.psl with cc := c } })

/-- RRR and RRL with WC = 0 turn the eight bits of the register; only it and CC change (43_compare_rotate R145 to R147;
90_conflicts C1). -/
def Obligations.RotateWithoutCarry : Prop :=
  ∀ (r : Reg) (s : State), s.psl.wc = false →
    (∃ t, exec (.rrr r) s = .next t ∧
      RegResult r (rotatedRight ((readReg r s).getLsbD 0) (readReg r s))
        { s.psl with cc := ccOfRange (rotatedRight ((readReg r s).getLsbD 0) (readReg r s)) } s t) ∧
    (∃ t, exec (.rrl r) s = .next t ∧
      RegResult r (rotatedLeft ((readReg r s).getLsbD 7) (readReg r s))
        { s.psl with cc := ccOfRange (rotatedLeft ((readReg r s).getLsbD 7) (readReg r s)) } s t)

/-- RRR and RRL with WC = 1 turn nine bits, C among them; IDC is bit 5 of the result; OVF is whether bit 7 changed, or, if
it did not and `rotate_ovf_clears` is false, any value (43_compare_rotate R145 to R147; 92_eei_decisions D11; log 13). -/
def Obligations.RotateWithCarry : Prop :=
  ∀ (r : Reg) (s : State) (x right left : Byte), s.psl.wc = true → x = readReg r s →
    right = rotatedRight s.psl.c x → left = rotatedLeft s.psl.c x →
    ((s.platform.rotateOvfClears = true ∨ right.getLsbD 7 ≠ x.getLsbD 7) → ∃ t, exec (.rrr r) s = .next t ∧
      RegResult r right (rotatePsl s.psl x right (x.getLsbD 0)) s t) ∧
    ((s.platform.rotateOvfClears = true ∨ left.getLsbD 7 ≠ x.getLsbD 7) → ∃ t, exec (.rrl r) s = .next t ∧
      RegResult r left (rotatePsl s.psl x left (x.getLsbD 7)) s t) ∧
    (s.platform.rotateOvfClears = false → right.getLsbD 7 = x.getLsbD 7 → ∃ v t, exec (.rrr r) s = .next t ∧
      RegResult r right { rotatePsl s.psl x right (x.getLsbD 0) with ovf := v } { s with draws := s.draws + 1 } t) ∧
    (s.platform.rotateOvfClears = false → left.getLsbD 7 = x.getLsbD 7 → ∃ v t, exec (.rrl r) s = .next t ∧
      RegResult r left { rotatePsl s.psl x left (x.getLsbD 7) with ovf := v } { s with draws := s.draws + 1 } t)

/-- Eight rotates with WC = 0 restore the register, nine with WC = 1 restore the register and C (43_compare_rotate R146, a
consequence the rule states for RRR; for RRL the same by R145). -/
def Obligations.RotatesRestore : Prop :=
  ∀ (r : Reg) (i : Instr) (s : State), (i = .rrr r ∨ i = .rrl r) →
    (s.psl.wc = false → ∃ t, repeatExec i 8 s = .next t ∧ t.regs = s.regs) ∧
    (s.psl.wc = true → ∃ t, repeatExec i 9 s = .next t ∧ t.regs = s.regs ∧ t.psl.c = s.psl.c)

/-! ## Program status -/

/-- LPSU, PPSU, CPSU write F, II and SP from bits 6, 5 and 2 to 0, and nothing else (44_program_status R150, R154,
R156). -/
def Obligations.UpperStatusWrites : Prop :=
  encode .lpsu = [0x92] ∧ (∀ v, encode (.ppsu v) = [0x76, v]) ∧ (∀ v, encode (.cpsu v) = [0x74, v]) ∧
  ∀ (v : Byte) (s : State),
    exec .lpsu s = .next { s with psu :=
      { flag := (readReg .r0 s).getLsbD 6
        ii := (readReg .r0 s).getLsbD 5
        sp := BitVec.ofNat 3 ((readReg .r0 s).toNat % 8) } } ∧
    exec (.ppsu v) s = .next { s with psu :=
      { flag := s.psu.flag || v.getLsbD 6
        ii := s.psu.ii || v.getLsbD 5
        sp := s.psu.sp ||| BitVec.ofNat 3 (v.toNat % 8) } } ∧
    exec (.cpsu v) s = .next { s with psu :=
      { flag := s.psu.flag && !v.getLsbD 6
        ii := s.psu.ii && !v.getLsbD 5
        sp := s.psu.sp &&& ~~~(BitVec.ofNat 3 (v.toNat % 8)) } }

/-- LPSL, PPSL, CPSL write the eight bits of the PSL, CC among them, and nothing else (44_program_status R151, R155,
R157). -/
def Obligations.LowerStatusWrites : Prop :=
  encode .lpsl = [0x93] ∧ (∀ v, encode (.ppsl v) = [0x77, v]) ∧ (∀ v, encode (.cpsl v) = [0x75, v]) ∧
  ∀ (v : Byte) (s : State),
    (∃ p, pslNumber p = readReg .r0 s ∧ exec .lpsl s = .next { s with psl := p }) ∧
    (∃ p, pslNumber p = pslNumber s.psl ||| v ∧ exec (.ppsl v) s = .next { s with psl := p }) ∧
    (∃ p, pslNumber p = pslNumber s.psl &&& ~~~v ∧ exec (.cpsl v) s = .next { s with psl := p })

/-- SPSU and SPSL: R0 takes the status byte, SPSU with a fresh sample of SENSE in bit 7, SPSL as it was before the
instruction; CC follows R0; SPSL and then LPSL leave the PSL as it was (44_program_status R152, R153; the end of the
sample list by log 7). -/
def Obligations.StatusStores : Prop :=
  encode .spsu = [0x12] ∧ encode .spsl = [0x13] ∧
  ∀ s : State,
    (∃ b u t, SenseSample b s u ∧ exec .spsu s = .next t ∧
      RegResult .r0 (psuNumber b s.psu) { s.psl with cc := ccOfRange (psuNumber b s.psu) } u t) ∧
    (∃ t, exec .spsl s = .next t ∧
      RegResult .r0 (pslNumber s.psl) { s.psl with cc := ccOfRange (pslNumber s.psl) } s t) ∧
    (∃ t u, exec .spsl s = .next t ∧ exec .lpsl t = .next u ∧ u.psl = s.psl)

/-- TPSU, TPSL and TMI: CC is 00 when every bit that the mask selects is 1, else 10; nothing else is written but what a
sample of SENSE uses up (44_program_status R158 to R160, 48_misc R212; the end of the sample list by log 7). -/
def Obligations.MaskTests : Prop :=
  ∀ (r : Reg) (v : Byte) (s : State),
    encode (.tpsu v) = [0xB4, v] ∧ encode (.tpsl v) = [0xB5, v] ∧
    encode (.tmi r v) = [BitVec.ofNat 8 (0xF4 + (regBits r).toNat), v] ∧
    (∃ b u c, SenseSample b s u ∧ tested (psuNumber b s.psu) v c ∧
      exec (.tpsu v) s = .next { u with psl := { s.psl with cc := c } }) ∧
    (∃ c, tested (pslNumber s.psl) v c ∧ exec (.tpsl v) s = .next { s with psl := { s.psl with cc := c } }) ∧
    (∃ c, tested (readReg r s) v c ∧ exec (.tmi r v) s = .next { s with psl := { s.psl with cc := c } })

/-- PSU bits 4 and 3 hold no state: writes of them are ignored, SPSU stores zeros there, and a test of one gives CC = 10
(10_state R18). -/
def Obligations.UnassignedPsuBits : Prop :=
  ∀ (v w : Byte) (s : State),
    (v &&& 0xE7 = w &&& 0xE7 →
      exec (.ppsu v) s = exec (.ppsu w) s ∧ exec (.cpsu v) s = exec (.cpsu w) s ∧
      ∃ t u, exec .lpsu (writeReg .r0 v s) = .next t ∧ exec .lpsu (writeReg .r0 w s) = .next u ∧ t.psu = u.psu) ∧
    (∃ t, exec .spsu s = .next t ∧ (readReg .r0 t).getLsbD 4 = false ∧ (readReg .r0 t).getLsbD 3 = false) ∧
    ((v.getLsbD 4 = true ∨ v.getLsbD 3 = true) → ∃ t, exec (.tpsu v) s = .next t ∧ t.psl.cc = 2)

/-! ## Status bits across instructions -/

/-- The condition code of a byte set into a register: 01 for 1 to 127, 00 for 0, 10 for 128 to 255; compares use the same
codes and tests 00 or 10 (10_state R20). -/
def Obligations.ConditionCodeMeaning : Prop :=
  (∀ (r : Reg) (b : Byte) (s : State),
    ((loadReg r b s).psl.cc = 1 ↔ 1 ≤ b.toNat ∧ b.toNat ≤ 127) ∧
    ((loadReg r b s).psl.cc = 0 ↔ b.toNat = 0) ∧
    ((loadReg r b s).psl.cc = 2 ↔ 128 ≤ b.toNat ∧ b.toNat ≤ 255)) ∧
  (∀ (com : Bool) (x y : Byte), compared com x y (compareCC com x y)) ∧
  (∀ x m : Byte, tested x m (testCC x m))

/-- CC is written by no instruction of the list that keeps it, and no instruction but LPSL and PPSL makes it 11
(10_state R19; for DAR with `dar_cc_defined` true, 92_eei_decisions D12, log 14). -/
def Obligations.ConditionCodeWriters : Prop :=
  ∀ (i : Instr) (s t : State), exec i s = .next t →
    (keepsCC i = true → t.psl.cc = s.psl.cc) ∧
    (mayMakeCC3 i = false → s.platform.darCcDefined = true → s.psl.cc ≠ 3 → t.psl.cc ≠ 3)

/-- COM is written only by LPSL, PPSL and CPSL, it decides how a compare reads its bytes, and no instruction but COM, SPSL
and TPSL does anything else for another COM (10_state R25). -/
def Obligations.CompareModeBit : Prop :=
  (∀ (i : Instr) (s t : State), writesWholePsl i = false → exec i s = .next t → t.psl.com = s.psl.com) ∧
  (∀ (i : Instr) (s : State) (b : Bool), readsCompareMode i = false →
    mapNext (withCom false) (exec i (withCom b s)) = mapNext (withCom false) (exec i s)) ∧
  (∀ x y : Byte, compared true x y (compareCC true x y) ∧ compared false x y (compareCC false x y))

/-- Which instructions write the other status bits: F by LPSU, PPSU, CPSU; II by these and RETE; SP by these, the subroutine
branches and the returns; RS and WC by LPSL, PPSL, CPSL; C, IDC and OVF by these, add, subtract and, with WC = 1, rotate;
the RAS by subroutine branches (10_state R14, R16, R17, R22, R23, R24, R26, R27, R34). -/
def Obligations.StatusBitWriters : Prop :=
  ∀ (i : Instr) (s t : State), exec i s = .next t →
    (writesFlag i = false → t.psu.flag = s.psu.flag) ∧
    (writesInhibit i = false → t.psu.ii = s.psu.ii) ∧
    (writesSp i = false → t.psu.sp = s.psu.sp) ∧
    (pushesRas i = false → t.ras = s.ras) ∧
    (writesWholePsl i = false → t.psl.rs = s.psl.rs ∧ t.psl.wc = s.psl.wc) ∧
    (writesWholePsl i = false → (writesCarry i = false ∨ ∃ r, s.psl.wc = false ∧ (i = .rrr r ∨ i = .rrl r)) →
      t.psl.c = s.psl.c ∧ t.psl.idc = s.psl.idc ∧ t.psl.ovf = s.psl.ovf)

/-- No instruction but SPSU and TPSU reads SENSE: for other samples to come it does the same and leaves those samples
(10_state R15). -/
def Obligations.SenseReadersOnly : Prop :=
  ∀ (i : Instr) (s : State) (l : List Bool), readsSense i = false →
    exec i (withSense l s) = mapNext (withSense l) (exec i s)

/-- No instruction changes a register of the bank that RS does not select, nor one of the selected bank but those its
description names (10_state R11, R34). -/
def Obligations.RegisterFrame : Prop :=
  ∀ (i : Instr) (s t : State), exec i s = .next t →
    (∀ q, mayWriteReg i q = false → regsRead s.psl.rs q t.regs = regsRead s.psl.rs q s.regs) ∧
    bankOf (!s.psl.rs) t.regs = bankOf (!s.psl.rs) s.regs

/-! ## Branches -/

/-- BCT and BCF: taken, all 15 bits of the IAR are the effective address; not taken, nothing at all changes, no pointer is
read (45_branch R165, R167 to R170, R177; 92_eei_decisions D19; log 18). -/
def Obligations.ConditionalBranches : Prop :=
  (∀ (v : Cond) (o : RelArg) (s : State) (a : Addr) (s' : State), eaRel o s = .ok (a, s') →
    BusOnly s s' ∧
    ((v = 3 ∨ s.psl.cc = v) → exec (.bctr v o) s = .next { s' with iar := a }) ∧
    (v ≠ 3 → s.psl.cc ≠ v → exec (.bcfr v o) s = .next { s' with iar := a })) ∧
  (∀ (v : Cond) (o : BraArg) (s : State) (a : Addr) (s' : State), eaBra o s = .ok (a, s') →
    BusOnly s s' ∧
    ((v = 3 ∨ s.psl.cc = v) → exec (.bcta v o) s = .next { s' with iar := a }) ∧
    (v ≠ 3 → s.psl.cc ≠ v → exec (.bcfa v o) s = .next { s' with iar := a })) ∧
  (∀ (v : Cond) (o : RelArg) (o' : BraArg) (s : State), v ≠ 3 →
    (s.psl.cc ≠ v → exec (.bctr v o) s = .next s ∧ exec (.bcta v o') s = .next s) ∧
    (s.psl.cc = v → exec (.bcfr v o) s = .next s ∧ exec (.bcfa v o') s = .next s))

/-- BRN: taken when the register is not zero, else nothing changes (45_branch R171, R172, R177; 92_eei_decisions D19;
log 18). -/
def Obligations.RegisterBranches : Prop :=
  ∀ (r : Reg) (o : RelArg) (o' : BraArg) (s : State),
    (readReg r s ≠ 0 → ∀ a s', eaRel o s = .ok (a, s') →
      BusOnly s s' ∧ exec (.brnr r o) s = .next { s' with iar := a }) ∧
    (readReg r s ≠ 0 → ∀ a s', eaBra o' s = .ok (a, s') →
      BusOnly s s' ∧ exec (.brna r o') s = .next { s' with iar := a }) ∧
    (readReg r s = 0 → exec (.brnr r o) s = .next s ∧ exec (.brna r o') s = .next s)

/-- BIR and BDR: the register changes by one modulo 256 whether or not the branch is taken, no PSW bit changes, and the
branch is taken when the new value is not zero (45_branch R173 to R177; 92_eei_decisions D13, D19; log 15, 18). -/
def Obligations.CountBranches : Prop :=
  ∀ (r : Reg) (o : RelArg) (o' : BraArg) (s u d : State) (up down : Byte),
    up = BitVec.ofNat 8 ((readReg r s).toNat + 1) → down = BitVec.ofNat 8 ((readReg r s).toNat + 255) →
    RegResult r up s.psl s u → RegResult r down s.psl s d →
    (up = 0 → exec (.birr r o) s = .next u ∧ exec (.bira r o') s = .next u) ∧
    (up ≠ 0 → ∀ a s', eaRel o u = .ok (a, s') → BusOnly u s' ∧ exec (.birr r o) s = .next { s' with iar := a }) ∧
    (up ≠ 0 → ∀ a s', eaBra o' u = .ok (a, s') → BusOnly u s' ∧ exec (.bira r o') s = .next { s' with iar := a }) ∧
    (down = 0 → exec (.bdrr r o) s = .next d ∧ exec (.bdra r o') s = .next d) ∧
    (down ≠ 0 → ∀ a s', eaRel o d = .ok (a, s') → BusOnly d s' ∧ exec (.bdrr r o) s = .next { s' with iar := a }) ∧
    (down ≠ 0 → ∀ a s', eaBra o' d = .ok (a, s') → BusOnly d s' ∧ exec (.bdra r o') s = .next { s' with iar := a })

/-- BXA adds register 3, unsigned, to the address after the indirection, in the page of that address, and like BSXA stops
where `index_wrap` refuses the sum; ZBRR goes to its
zero-page address (45_branch R178, R180; 20_memory R57; 92_eei_decisions D7, D9, D21; log 11, 12, 19). -/
def Obligations.UnconditionalBranches : Prop :=
  (∀ (o : BraArg) (s : State) (a : Addr) (s' : State), eaBra o s = .ok (a, s') →
    (s.platform.indexWrap = .wrap ∨ a.toNat % 8192 + (readReg .r3 s).toNat < 8192) →
    BusOnly s s' ∧ exec (.bxa o) s = .next { s' with iar := inPage a (a.toNat + (readReg .r3 s).toNat) }) ∧
  (∀ (o : BraArg) (s : State) (a : Addr) (s' : State), eaBra o s = .ok (a, s') →
    s.platform.indexWrap = .refuse → 8192 ≤ a.toNat % 8192 + (readReg .r3 s).toNat →
    exec (.bxa o) s = .refused (.indexedAcrossPage a) ∧ exec (.bsxa o) s = .refused (.indexedAcrossPage a)) ∧
  (∀ (o : RelArg) (s : State) (a : Addr) (s' : State), eaZero o s = .ok (a, s') →
    BusOnly s s' ∧ exec (.zbrr o) s = .next { s' with iar := a })

/-- An instruction that transfers no control leaves the IAR past itself, and only indirect and absolute branches, zero-page
branches and returns change the page (10_state R12, R13; 45_branch R166, R179; 46_subroutine R185). -/
def Obligations.PageChangers : Prop :=
  ∀ (i : Instr) (s t : State), exec i s = .next t →
    (transfersControl i = false → t.iar = s.iar) ∧
    (mayChangePage i = false → t.iar.toNat / 8192 = s.iar.toNat / 8192)

/-! ## Subroutines -/

/-- BST and BSF: taken, SP counts up, the entry it then points to holds the address after the branch, and the IAR is the
effective address; not taken, nothing changes (46_subroutine R185 to R189; 45_branch R177; 92_eei_decisions D18, D19;
log 17, 18). -/
def Obligations.ConditionalCalls : Prop :=
  (∀ (v : Cond) (o : RelArg) (s : State) (a : Addr) (s' : State), eaRel o s = .ok (a, s') →
    BusOnly s s' ∧
    ((v = 3 ∨ s.psl.cc = v) → ∃ t, exec (.bstr v o) s = .next t ∧ Called a s' t) ∧
    (v ≠ 3 → s.psl.cc ≠ v → ∃ t, exec (.bsfr v o) s = .next t ∧ Called a s' t)) ∧
  (∀ (v : Cond) (o : BraArg) (s : State) (a : Addr) (s' : State), eaBra o s = .ok (a, s') →
    BusOnly s s' ∧
    ((v = 3 ∨ s.psl.cc = v) → ∃ t, exec (.bsta v o) s = .next t ∧ Called a s' t) ∧
    (v ≠ 3 → s.psl.cc ≠ v → ∃ t, exec (.bsfa v o) s = .next t ∧ Called a s' t)) ∧
  (∀ (v : Cond) (o : RelArg) (o' : BraArg) (s : State), v ≠ 3 →
    (s.psl.cc ≠ v → exec (.bstr v o) s = .next s ∧ exec (.bsta v o') s = .next s) ∧
    (s.psl.cc = v → exec (.bsfr v o) s = .next s ∧ exec (.bsfa v o') s = .next s))

/-- BSN, BSXA and ZBSR (46_subroutine R185, R190 to R193; 20_memory R57; 92_eei_decisions D7, D9, D18, D19, D21;
log 11, 12, 17 to 19). -/
def Obligations.RegisterAndUnconditionalCalls : Prop :=
  (∀ (r : Reg) (o : RelArg) (o' : BraArg) (s : State),
    (readReg r s ≠ 0 → ∀ a s', eaRel o s = .ok (a, s') →
      BusOnly s s' ∧ ∃ t, exec (.bsnr r o) s = .next t ∧ Called a s' t) ∧
    (readReg r s ≠ 0 → ∀ a s', eaBra o' s = .ok (a, s') →
      BusOnly s s' ∧ ∃ t, exec (.bsna r o') s = .next t ∧ Called a s' t) ∧
    (readReg r s = 0 → exec (.bsnr r o) s = .next s ∧ exec (.bsna r o') s = .next s)) ∧
  (∀ (o : BraArg) (s : State) (a : Addr) (s' : State), eaBra o s = .ok (a, s') →
    (s.platform.indexWrap = .wrap ∨ a.toNat % 8192 + (readReg .r3 s).toNat < 8192) →
    BusOnly s s' ∧ ∃ t, exec (.bsxa o) s = .next t ∧ Called (inPage a (a.toNat + (readReg .r3 s).toNat)) s' t) ∧
  (∀ (o : RelArg) (s : State) (a : Addr) (s' : State), eaZero o s = .ok (a, s') →
    BusOnly s s' ∧ ∃ t, exec (.zbsr o) s = .next t ∧ Called a s' t)

/-- RETC and RETE: taken, the IAR is the entry SP points to, all 15 bits, SP counts down, and RETE clears II; not taken,
nothing changes (46_subroutine R185, R194, R195; 92_eei_decisions D18; log 17). -/
def Obligations.Returns : Prop :=
  ∀ (v : Cond) (s : State),
    ((v = 3 ∨ s.psl.cc = v) →
      exec (.retc v) s = .next { s with
        iar := rasRead s.ras s.psu.sp
        psu := { s.psu with sp := BitVec.ofNat 3 (s.psu.sp.toNat + 7) } } ∧
      exec (.rete v) s = .next { s with
        iar := rasRead s.ras s.psu.sp
        psu := { s.psu with ii := false, sp := BitVec.ofNat 3 (s.psu.sp.toNat + 7) } }) ∧
    (v ≠ 3 → s.psl.cc ≠ v → exec (.retc v) s = .next s ∧ exec (.rete v) s = .next s)

/-- Calls nest to a depth of eight from any SP: up to eight pushes are popped in the reverse order and SP comes back; a
ninth push overwrites the oldest entry (10_state R27, R28; 46_subroutine R185; 92_eei_decisions D18; log 17). -/
def Obligations.StackNesting : Prop :=
  (∀ (l : List Addr) (s : State), l.length ≤ 8 →
    (popAll l.length (pushAll l s)).1 = l.reverse ∧ (popAll l.length (pushAll l s)).2.psu.sp = s.psu.sp) ∧
  (∀ (a b : Addr) (l : List Addr) (s : State), l.length = 7 →
    (popAll 9 (pushAll (a :: l ++ [b]) s)).1 = b :: l.reverse ++ [b])

/-! ## Input, output and the rest -/

/-- REDD, REDC, REDE: a byte the device puts on the bus goes into the register and sets CC. WRTD, WRTC, WRTE: the register
goes out to the port. Either is an event on record and nothing else changes (47_io R200, R202 to R207;
92_eei_decisions D14; log 6, 25). -/
def Obligations.PortTransfers : Prop :=
  ∀ (r : Reg) (n : Byte) (s : State),
    (∃ v u t, BusRead v s u ∧ exec (.redd r) s = .next t ∧
      RegResult r v { s.psl with cc := ccOfRange v } { u with trace := .ioRead .data v :: s.trace } t) ∧
    (∃ v u t, BusRead v s u ∧ exec (.redc r) s = .next t ∧
      RegResult r v { s.psl with cc := ccOfRange v } { u with trace := .ioRead .ctrl v :: s.trace } t) ∧
    (∃ v u t, BusRead v s u ∧ exec (.rede r n) s = .next t ∧
      RegResult r v { s.psl with cc := ccOfRange v } { u with trace := .ioRead (.ext n) v :: s.trace } t) ∧
    exec (.wrtd r) s = .next { s with trace := .ioWrite .data (readReg r s) :: s.trace } ∧
    exec (.wrtc r) s = .next { s with trace := .ioWrite .ctrl (readReg r s) :: s.trace } ∧
    exec (.wrte r n) s = .next { s with trace := .ioWrite (.ext n) (readReg r s) :: s.trace }

/-- NOP is 0xC0 and changes nothing beyond its own fetch (48_misc R211). -/
def Obligations.NopChangesNothing : Prop :=
  encode .nop = [0xC0] ∧ decode [0xC0] = .ok (.nop, []) ∧ ∀ s : State, exec .nop s = .next s

/-! ## RESET, wait and interrupt -/

/-- The state after RESET: IAR 0, II 0, Run (10_state R32, 70_reset_and_hazards R250); and, by the model's choice (log 2),
memory in canonical form with nothing listed. -/
def Obligations.ResetState : Prop :=
  State.reset.iar = 0 ∧ State.reset.psu.ii = false ∧ State.reset.mode = .run ∧ Canonical State.reset ∧
  ∀ a, peek State.reset a = Memory.unlisted

/-- RESET overrides everything at a boundary, also in a wait: IAR 0, II 0, Run, memory and platform as they were, whatever
else (70_reset_and_hazards R250, R254; 10_state R32; 60_exceptions R228; 92_eei_decisions D2, D25; log 9, 28). -/
def Obligations.ResetOverrides : Prop :=
  ∀ s : State, (pinsNow s).reset = true →
    ∃ t, step s = .next t ∧ t.iar = 0 ∧ t.psu.ii = false ∧ t.mode = .run ∧ t.mem = s.mem ∧
      t.platform = s.platform ∧ t.pins = s.pins.tail ∧ t.senseIn = s.senseIn ∧ t.deviceIn = s.deviceIn ∧
      t.trace = s.trace

/-- HALT changes nothing but the run/wait condition. A halted machine waits, which changes nothing but the pin
levels used up, until RESET or a request with II = 0; and a running machine begins to wait only by HALT (60_exceptions R234,
48_misc R210; log 8, 16). -/
def Obligations.WaitState : Prop :=
  (∀ s : State, exec .halt s = .next { s with mode := .waitHalt }) ∧
  (∀ s : State, s.mode = .waitHalt → (pinsNow s).reset = false →
    ((pinsNow s).intreq = true → s.psu.ii = true) → step s = .next (afterBoundary s)) ∧
  (∀ s t : State, s.mode = .waitHalt → step s = .next t → t.mode = .run →
    (pinsNow s).reset = true ∨ ((pinsNow s).intreq = true ∧ s.psu.ii = false)) ∧
  (∀ s t : State, s.mode = .run → step s = .next t → t.mode = .waitHalt →
    ∃ u, fetchInstr (afterBoundary s) = .ok (.halt, u))

/-- Interrupt entry: II is set, one vector byte is read from the device, the IAR is pushed as by a subroutine branch, and
control goes to the zero-page address of the vector or to the pointer there; the machine runs; registers, PSL, F and memory
are as they were (60_exceptions R223 to R227, R234; 92_eei_decisions D8, D9, D14, D17, D18, D23; log 6, 8, 10, 12, 16, 17, 21). -/
def Obligations.InterruptEntry : Prop :=
  ∀ s : State, (pinsNow s).reset = false → (pinsNow s).intreq = true → s.psu.ii = false →
    ∃ v w u, BusRead v (afterBoundary s) w ∧
      u = { w with psu := { s.psu with ii := true }, mode := .run, trace := .intAck v :: s.trace } ∧
      (v.getLsbD 7 = false → ∃ t, step s = .next t ∧ Called (zeroBase (relArg v)) u t) ∧
      (v.getLsbD 7 = true → PlainPointer s (zeroBase (relArg v)) →
        ∃ t, step s = .next t ∧ Called (pointerAt s (zeroBase (relArg v))) u t)

/-- With II = 1 a request is not recognised: the step is the one without it (60_exceptions R222, R223; 10_state R17). -/
def Obligations.InterruptInhibited : Prop :=
  ∀ (s : State) (l : List Pins), s.psu.ii = true →
    step { s with pins := { reset := false, intreq := true } :: l } =
      step { s with pins := { reset := false, intreq := false } :: l }

/-- An unconditional RETE right after an interrupt entry comes back: IAR and SP as before, II cleared, and registers, PSL,
F and memory unchanged by the two (60_exceptions R225, R229, R230, R232; 46_subroutine R195). -/
def Obligations.InterruptThenReturn : Prop :=
  ∀ s t : State, interrupt s = .ok t →
    ∃ u, exec (.rete 3) t = .next u ∧ u.iar = s.iar ∧ u.psu = { s.psu with ii := false } ∧ u.regs = s.regs ∧
      u.psl = s.psl ∧ u.mem = s.mem ∧ u.mode = .run

/-! ## The page lines -/

/-- On a platform that ignores ADR13 and ADR14 the four pages are one memory of 8,192 bytes seen four times: addresses with
one offset have the same there, what is written at one is read at the other, and no memory byte is beyond the 8,192; where
the lines are decoded, different addresses are different bytes (20_memory R40, R41; log 30). -/
def Obligations.MirroredPages : Prop :=
  (∀ (a b : Addr) (s : State), s.platform.pageLines = .ignored → a.toNat % 8192 = b.toNat % 8192 →
    kindAt s.platform a = kindAt s.platform b ∧ peek s a = peek s b ∧
    (Canonical s → kindAt s.platform a = .ram → ∀ v, ∃ t, memWrite a v s = .ok t ∧ memRead b t = .ok (v, t))) ∧
  (∀ s : State, s.platform.pageLines = .ignored → Canonical s → ∀ c ∈ s.mem, c.1 < 8192) ∧
  (∀ (a b : Addr) (v : Byte) (s : State), s.platform.pageLines = .decoded → Canonical s →
    kindAt s.platform a = .ram → a ≠ b → ∃ t, memWrite a v s = .ok t ∧ peek t b = peek s b)

end Statements
end

