-- ==== Sys2Proof/Laws/Decode.lean ====
section
/-! SUPPORT. The laws of the instruction fields: each field of an encoding reads back, and each byte is its fields. -/

namespace Sys2Proof

theorem regOfBits_regBits (r : Reg) : regOfBits (regBits r) = r := by
  cases r <;> rfl

theorem regBits_regOfBits (b : BitVec 2) : regBits (regOfBits b) = b := by
  revert b
  decide

theorem indexControlOfBits_bits (c : IndexControl) : indexControlOfBits (indexControlBits c) = c := by
  cases c <;> rfl

theorem indexControlBits_ofBits (b : BitVec 2) : indexControlBits (indexControlOfBits b) = b := by
  revert b
  decide

theorem firstByte_function (f c : BitVec 3) (r : BitVec 2) : (firstByte f c r).extractLsb' 5 3 = f := by
  revert f c r
  decide

theorem firstByte_class (f c : BitVec 3) (r : BitVec 2) : (firstByte f c r).extractLsb' 2 3 = c := by
  revert f c r
  decide

theorem firstByte_register (f c : BitVec 3) (r : BitVec 2) : (firstByte f c r).extractLsb' 0 2 = r := by
  revert f c r
  decide

/-- Byte 0 is its three fields. -/
theorem firstByte_fields (b : Byte) : firstByte (b.extractLsb' 5 3) (b.extractLsb' 2 3) (b.extractLsb' 0 2) = b := by
  revert b
  decide

theorem relArg_relByte (o : RelArg) : relArg (relByte o) = o := by
  obtain ⟨ind, disp⟩ := o
  revert ind disp
  decide

theorem relByte_relArg (b : Byte) : relByte (relArg b) = b := by
  revert b
  decide

/-- A number of bits is its low byte and the bits above. -/
theorem append_low_byte (n : Nat) (a : BitVec (n + 8)) : (a.extractLsb' 8 n ++ a.extractLsb' 0 8 : BitVec (n + 8)) = a := by
  apply BitVec.eq_of_getLsbD_eq
  intro k hk
  rw [BitVec.getLsbD_append]
  by_cases h : k < 8
  · simp [h]
  · have h1 : k - 8 < n := by omega
    have h2 : 8 + (k - 8) = k := by omega
    simp [h, h1, h2]

theorem extract_low_append (n : Nat) (a : BitVec n) (b : Byte) : (a ++ b : BitVec (n + 8)).extractLsb' 0 8 = b := by
  apply BitVec.eq_of_getLsbD_eq
  intro k hk
  rw [BitVec.getLsbD_extractLsb', BitVec.getLsbD_append]
  simp [hk]

theorem extract_high_append (n : Nat) (a : BitVec n) (b : Byte) : (a ++ b : BitVec (n + 8)).extractLsb' 8 n = a := by
  apply BitVec.eq_of_getLsbD_eq
  intro k hk
  rw [BitVec.getLsbD_extractLsb', BitVec.getLsbD_append]
  simp [hk]

theorem bit_and_seven (i : Bool) (d : BitVec 7) :
    (BitVec.ofBool i ++ d : BitVec (1 + 7)).getLsbD 7 = i ∧ (BitVec.ofBool i ++ d : BitVec (1 + 7)).extractLsb' 0 7 = d := by
  revert i d
  decide

theorem bit_two_and_five (i : Bool) (c : BitVec 2) (d : BitVec 5) :
    (BitVec.ofBool i ++ c ++ d : BitVec (1 + 2 + 5)).getLsbD 7 = i ∧
    (BitVec.ofBool i ++ c ++ d : BitVec (1 + 2 + 5)).extractLsb' 5 2 = c ∧
    (BitVec.ofBool i ++ c ++ d : BitVec (1 + 2 + 5)).extractLsb' 0 5 = d := by
  revert i c d
  decide

theorem braArg_braByte (o : BraArg) : braArg (braByte1 o) (o.addr.extractLsb' 0 8) = o := by
  obtain ⟨ind, addr⟩ := o
  obtain ⟨h1, h2⟩ := bit_and_seven ind (addr.extractLsb' 8 7)
  have h1' : (braByte1 ⟨ind, addr⟩).getLsbD 7 = ind := h1
  have h2' : (braByte1 ⟨ind, addr⟩).extractLsb' 0 7 = addr.extractLsb' 8 7 := h2
  rw [braArg, h1', h2']
  exact congrArg (BraArg.mk ind) (append_low_byte 7 addr)

theorem absArg_absByte (o : AbsArg) : absArg (absByte1 o) (o.addr.extractLsb' 0 8) = o := by
  obtain ⟨ind, ctl, addr⟩ := o
  obtain ⟨h1, h2, h3⟩ := bit_two_and_five ind (indexControlBits ctl) (addr.extractLsb' 8 5)
  have h1' : (absByte1 ⟨ind, ctl, addr⟩).getLsbD 7 = ind := h1
  have h2' : (absByte1 ⟨ind, ctl, addr⟩).extractLsb' 5 2 = indexControlBits ctl := h2
  have h3' : (absByte1 ⟨ind, ctl, addr⟩).extractLsb' 0 5 = addr.extractLsb' 8 5 := h3
  rw [absArg, h1', h2', h3', indexControlOfBits_bits]
  exact congrArg (AbsArg.mk ind ctl) (append_low_byte 5 addr)

theorem byte_seven (b : Byte) : (BitVec.ofBool (b.getLsbD 7) ++ b.extractLsb' 0 7 : BitVec (1 + 7)) = b := by
  revert b
  decide

theorem byte_two_five (b : Byte) :
    (BitVec.ofBool (b.getLsbD 7) ++ b.extractLsb' 5 2 ++ b.extractLsb' 0 5 : BitVec (1 + 2 + 5)) = b := by
  revert b
  decide

theorem braByte1_braArg (b1 b2 : Byte) : braByte1 (braArg b1 b2) = b1 := by
  have h := extract_high_append 7 (b1.extractLsb' 0 7) b2
  have hb := byte_seven b1
  simp only [braByte1, braArg] at h ⊢
  rw [h]
  exact hb

theorem braLow_braArg (b1 b2 : Byte) : (braArg b1 b2).addr.extractLsb' 0 8 = b2 :=
  extract_low_append 7 (b1.extractLsb' 0 7) b2

theorem absByte1_absArg (b1 b2 : Byte) : absByte1 (absArg b1 b2) = b1 := by
  have h := extract_high_append 5 (b1.extractLsb' 0 5) b2
  have hb := byte_two_five b1
  simp only [absByte1, absArg, indexControlBits_ofBits] at h ⊢
  rw [h]
  exact hb

theorem absLow_absArg (b1 b2 : Byte) : (absArg b1 b2).addr.extractLsb' 0 8 = b2 :=
  extract_low_append 5 (b1.extractLsb' 0 5) b2

end Sys2Proof
end

