-- ==== Sys2Proof/Laws/State.lean ====
section
/-! SUPPORT. One lemma per field per update of `State`, true by `rfl` but where an update looks at its input first. -/

namespace Sys2Proof.Machine

@[simp] theorem setRegs_regs (s : State) (x : Regs) : (s.setRegs x).regs = x := rfl
@[simp] theorem setRegs_psl (s : State) (x : Regs) : (s.setRegs x).psl = s.psl := rfl
@[simp] theorem setRegs_psu (s : State) (x : Regs) : (s.setRegs x).psu = s.psu := rfl
@[simp] theorem setRegs_iar (s : State) (x : Regs) : (s.setRegs x).iar = s.iar := rfl
@[simp] theorem setRegs_ras (s : State) (x : Regs) : (s.setRegs x).ras = s.ras := rfl
@[simp] theorem setRegs_mode (s : State) (x : Regs) : (s.setRegs x).mode = s.mode := rfl
@[simp] theorem setRegs_mem (s : State) (x : Regs) : (s.setRegs x).mem = s.mem := rfl
@[simp] theorem setRegs_platform (s : State) (x : Regs) : (s.setRegs x).platform = s.platform := rfl
@[simp] theorem setRegs_pins (s : State) (x : Regs) : (s.setRegs x).pins = s.pins := rfl
@[simp] theorem setRegs_senseIn (s : State) (x : Regs) : (s.setRegs x).senseIn = s.senseIn := rfl
@[simp] theorem setRegs_deviceIn (s : State) (x : Regs) : (s.setRegs x).deviceIn = s.deviceIn := rfl
@[simp] theorem setRegs_trace (s : State) (x : Regs) : (s.setRegs x).trace = s.trace := rfl
@[simp] theorem setRegs_draws (s : State) (x : Regs) : (s.setRegs x).draws = s.draws := rfl
@[simp] theorem setPsl_regs (s : State) (x : Psl) : (s.setPsl x).regs = s.regs := rfl
@[simp] theorem setPsl_psl (s : State) (x : Psl) : (s.setPsl x).psl = x := rfl
@[simp] theorem setPsl_psu (s : State) (x : Psl) : (s.setPsl x).psu = s.psu := rfl
@[simp] theorem setPsl_iar (s : State) (x : Psl) : (s.setPsl x).iar = s.iar := rfl
@[simp] theorem setPsl_ras (s : State) (x : Psl) : (s.setPsl x).ras = s.ras := rfl
@[simp] theorem setPsl_mode (s : State) (x : Psl) : (s.setPsl x).mode = s.mode := rfl
@[simp] theorem setPsl_mem (s : State) (x : Psl) : (s.setPsl x).mem = s.mem := rfl
@[simp] theorem setPsl_platform (s : State) (x : Psl) : (s.setPsl x).platform = s.platform := rfl
@[simp] theorem setPsl_pins (s : State) (x : Psl) : (s.setPsl x).pins = s.pins := rfl
@[simp] theorem setPsl_senseIn (s : State) (x : Psl) : (s.setPsl x).senseIn = s.senseIn := rfl
@[simp] theorem setPsl_deviceIn (s : State) (x : Psl) : (s.setPsl x).deviceIn = s.deviceIn := rfl
@[simp] theorem setPsl_trace (s : State) (x : Psl) : (s.setPsl x).trace = s.trace := rfl
@[simp] theorem setPsl_draws (s : State) (x : Psl) : (s.setPsl x).draws = s.draws := rfl
@[simp] theorem setPsu_regs (s : State) (x : Psu) : (s.setPsu x).regs = s.regs := rfl
@[simp] theorem setPsu_psl (s : State) (x : Psu) : (s.setPsu x).psl = s.psl := rfl
@[simp] theorem setPsu_psu (s : State) (x : Psu) : (s.setPsu x).psu = x := rfl
@[simp] theorem setPsu_iar (s : State) (x : Psu) : (s.setPsu x).iar = s.iar := rfl
@[simp] theorem setPsu_ras (s : State) (x : Psu) : (s.setPsu x).ras = s.ras := rfl
@[simp] theorem setPsu_mode (s : State) (x : Psu) : (s.setPsu x).mode = s.mode := rfl
@[simp] theorem setPsu_mem (s : State) (x : Psu) : (s.setPsu x).mem = s.mem := rfl
@[simp] theorem setPsu_platform (s : State) (x : Psu) : (s.setPsu x).platform = s.platform := rfl
@[simp] theorem setPsu_pins (s : State) (x : Psu) : (s.setPsu x).pins = s.pins := rfl
@[simp] theorem setPsu_senseIn (s : State) (x : Psu) : (s.setPsu x).senseIn = s.senseIn := rfl
@[simp] theorem setPsu_deviceIn (s : State) (x : Psu) : (s.setPsu x).deviceIn = s.deviceIn := rfl
@[simp] theorem setPsu_trace (s : State) (x : Psu) : (s.setPsu x).trace = s.trace := rfl
@[simp] theorem setPsu_draws (s : State) (x : Psu) : (s.setPsu x).draws = s.draws := rfl
@[simp] theorem setIar_regs (s : State) (x : Addr) : (s.setIar x).regs = s.regs := rfl
@[simp] theorem setIar_psl (s : State) (x : Addr) : (s.setIar x).psl = s.psl := rfl
@[simp] theorem setIar_psu (s : State) (x : Addr) : (s.setIar x).psu = s.psu := rfl
@[simp] theorem setIar_iar (s : State) (x : Addr) : (s.setIar x).iar = x := rfl
@[simp] theorem setIar_ras (s : State) (x : Addr) : (s.setIar x).ras = s.ras := rfl
@[simp] theorem setIar_mode (s : State) (x : Addr) : (s.setIar x).mode = s.mode := rfl
@[simp] theorem setIar_mem (s : State) (x : Addr) : (s.setIar x).mem = s.mem := rfl
@[simp] theorem setIar_platform (s : State) (x : Addr) : (s.setIar x).platform = s.platform := rfl
@[simp] theorem setIar_pins (s : State) (x : Addr) : (s.setIar x).pins = s.pins := rfl
@[simp] theorem setIar_senseIn (s : State) (x : Addr) : (s.setIar x).senseIn = s.senseIn := rfl
@[simp] theorem setIar_deviceIn (s : State) (x : Addr) : (s.setIar x).deviceIn = s.deviceIn := rfl
@[simp] theorem setIar_trace (s : State) (x : Addr) : (s.setIar x).trace = s.trace := rfl
@[simp] theorem setIar_draws (s : State) (x : Addr) : (s.setIar x).draws = s.draws := rfl
@[simp] theorem setRas_regs (s : State) (x : Vector Addr 8) : (s.setRas x).regs = s.regs := rfl
@[simp] theorem setRas_psl (s : State) (x : Vector Addr 8) : (s.setRas x).psl = s.psl := rfl
@[simp] theorem setRas_psu (s : State) (x : Vector Addr 8) : (s.setRas x).psu = s.psu := rfl
@[simp] theorem setRas_iar (s : State) (x : Vector Addr 8) : (s.setRas x).iar = s.iar := rfl
@[simp] theorem setRas_ras (s : State) (x : Vector Addr 8) : (s.setRas x).ras = x := rfl
@[simp] theorem setRas_mode (s : State) (x : Vector Addr 8) : (s.setRas x).mode = s.mode := rfl
@[simp] theorem setRas_mem (s : State) (x : Vector Addr 8) : (s.setRas x).mem = s.mem := rfl
@[simp] theorem setRas_platform (s : State) (x : Vector Addr 8) : (s.setRas x).platform = s.platform := rfl
@[simp] theorem setRas_pins (s : State) (x : Vector Addr 8) : (s.setRas x).pins = s.pins := rfl
@[simp] theorem setRas_senseIn (s : State) (x : Vector Addr 8) : (s.setRas x).senseIn = s.senseIn := rfl
@[simp] theorem setRas_deviceIn (s : State) (x : Vector Addr 8) : (s.setRas x).deviceIn = s.deviceIn := rfl
@[simp] theorem setRas_trace (s : State) (x : Vector Addr 8) : (s.setRas x).trace = s.trace := rfl
@[simp] theorem setRas_draws (s : State) (x : Vector Addr 8) : (s.setRas x).draws = s.draws := rfl
@[simp] theorem setMode_regs (s : State) (x : RunMode) : (s.setMode x).regs = s.regs := rfl
@[simp] theorem setMode_psl (s : State) (x : RunMode) : (s.setMode x).psl = s.psl := rfl
@[simp] theorem setMode_psu (s : State) (x : RunMode) : (s.setMode x).psu = s.psu := rfl
@[simp] theorem setMode_iar (s : State) (x : RunMode) : (s.setMode x).iar = s.iar := rfl
@[simp] theorem setMode_ras (s : State) (x : RunMode) : (s.setMode x).ras = s.ras := rfl
@[simp] theorem setMode_mode (s : State) (x : RunMode) : (s.setMode x).mode = x := rfl
@[simp] theorem setMode_mem (s : State) (x : RunMode) : (s.setMode x).mem = s.mem := rfl
@[simp] theorem setMode_platform (s : State) (x : RunMode) : (s.setMode x).platform = s.platform := rfl
@[simp] theorem setMode_pins (s : State) (x : RunMode) : (s.setMode x).pins = s.pins := rfl
@[simp] theorem setMode_senseIn (s : State) (x : RunMode) : (s.setMode x).senseIn = s.senseIn := rfl
@[simp] theorem setMode_deviceIn (s : State) (x : RunMode) : (s.setMode x).deviceIn = s.deviceIn := rfl
@[simp] theorem setMode_trace (s : State) (x : RunMode) : (s.setMode x).trace = s.trace := rfl
@[simp] theorem setMode_draws (s : State) (x : RunMode) : (s.setMode x).draws = s.draws := rfl
@[simp] theorem setMem_regs (s : State) (x : Memory) : (s.setMem x).regs = s.regs := rfl
@[simp] theorem setMem_psl (s : State) (x : Memory) : (s.setMem x).psl = s.psl := rfl
@[simp] theorem setMem_psu (s : State) (x : Memory) : (s.setMem x).psu = s.psu := rfl
@[simp] theorem setMem_iar (s : State) (x : Memory) : (s.setMem x).iar = s.iar := rfl
@[simp] theorem setMem_ras (s : State) (x : Memory) : (s.setMem x).ras = s.ras := rfl
@[simp] theorem setMem_mode (s : State) (x : Memory) : (s.setMem x).mode = s.mode := rfl
@[simp] theorem setMem_mem (s : State) (x : Memory) : (s.setMem x).mem = x := rfl
@[simp] theorem setMem_platform (s : State) (x : Memory) : (s.setMem x).platform = s.platform := rfl
@[simp] theorem setMem_pins (s : State) (x : Memory) : (s.setMem x).pins = s.pins := rfl
@[simp] theorem setMem_senseIn (s : State) (x : Memory) : (s.setMem x).senseIn = s.senseIn := rfl
@[simp] theorem setMem_deviceIn (s : State) (x : Memory) : (s.setMem x).deviceIn = s.deviceIn := rfl
@[simp] theorem setMem_trace (s : State) (x : Memory) : (s.setMem x).trace = s.trace := rfl
@[simp] theorem setMem_draws (s : State) (x : Memory) : (s.setMem x).draws = s.draws := rfl
@[simp] theorem setPins_regs (s : State) (x : List Pins) : (s.setPins x).regs = s.regs := rfl
@[simp] theorem setPins_psl (s : State) (x : List Pins) : (s.setPins x).psl = s.psl := rfl
@[simp] theorem setPins_psu (s : State) (x : List Pins) : (s.setPins x).psu = s.psu := rfl
@[simp] theorem setPins_iar (s : State) (x : List Pins) : (s.setPins x).iar = s.iar := rfl
@[simp] theorem setPins_ras (s : State) (x : List Pins) : (s.setPins x).ras = s.ras := rfl
@[simp] theorem setPins_mode (s : State) (x : List Pins) : (s.setPins x).mode = s.mode := rfl
@[simp] theorem setPins_mem (s : State) (x : List Pins) : (s.setPins x).mem = s.mem := rfl
@[simp] theorem setPins_platform (s : State) (x : List Pins) : (s.setPins x).platform = s.platform := rfl
@[simp] theorem setPins_pins (s : State) (x : List Pins) : (s.setPins x).pins = x := rfl
@[simp] theorem setPins_senseIn (s : State) (x : List Pins) : (s.setPins x).senseIn = s.senseIn := rfl
@[simp] theorem setPins_deviceIn (s : State) (x : List Pins) : (s.setPins x).deviceIn = s.deviceIn := rfl
@[simp] theorem setPins_trace (s : State) (x : List Pins) : (s.setPins x).trace = s.trace := rfl
@[simp] theorem setPins_draws (s : State) (x : List Pins) : (s.setPins x).draws = s.draws := rfl
@[simp] theorem setSenseIn_regs (s : State) (x : List Bool) : (s.setSenseIn x).regs = s.regs := rfl
@[simp] theorem setSenseIn_psl (s : State) (x : List Bool) : (s.setSenseIn x).psl = s.psl := rfl
@[simp] theorem setSenseIn_psu (s : State) (x : List Bool) : (s.setSenseIn x).psu = s.psu := rfl
@[simp] theorem setSenseIn_iar (s : State) (x : List Bool) : (s.setSenseIn x).iar = s.iar := rfl
@[simp] theorem setSenseIn_ras (s : State) (x : List Bool) : (s.setSenseIn x).ras = s.ras := rfl
@[simp] theorem setSenseIn_mode (s : State) (x : List Bool) : (s.setSenseIn x).mode = s.mode := rfl
@[simp] theorem setSenseIn_mem (s : State) (x : List Bool) : (s.setSenseIn x).mem = s.mem := rfl
@[simp] theorem setSenseIn_platform (s : State) (x : List Bool) : (s.setSenseIn x).platform = s.platform := rfl
@[simp] theorem setSenseIn_pins (s : State) (x : List Bool) : (s.setSenseIn x).pins = s.pins := rfl
@[simp] theorem setSenseIn_senseIn (s : State) (x : List Bool) : (s.setSenseIn x).senseIn = x := rfl
@[simp] theorem setSenseIn_deviceIn (s : State) (x : List Bool) : (s.setSenseIn x).deviceIn = s.deviceIn := rfl
@[simp] theorem setSenseIn_trace (s : State) (x : List Bool) : (s.setSenseIn x).trace = s.trace := rfl
@[simp] theorem setSenseIn_draws (s : State) (x : List Bool) : (s.setSenseIn x).draws = s.draws := rfl
@[simp] theorem setDeviceIn_regs (s : State) (x : List Byte) : (s.setDeviceIn x).regs = s.regs := rfl
@[simp] theorem setDeviceIn_psl (s : State) (x : List Byte) : (s.setDeviceIn x).psl = s.psl := rfl
@[simp] theorem setDeviceIn_psu (s : State) (x : List Byte) : (s.setDeviceIn x).psu = s.psu := rfl
@[simp] theorem setDeviceIn_iar (s : State) (x : List Byte) : (s.setDeviceIn x).iar = s.iar := rfl
@[simp] theorem setDeviceIn_ras (s : State) (x : List Byte) : (s.setDeviceIn x).ras = s.ras := rfl
@[simp] theorem setDeviceIn_mode (s : State) (x : List Byte) : (s.setDeviceIn x).mode = s.mode := rfl
@[simp] theorem setDeviceIn_mem (s : State) (x : List Byte) : (s.setDeviceIn x).mem = s.mem := rfl
@[simp] theorem setDeviceIn_platform (s : State) (x : List Byte) : (s.setDeviceIn x).platform = s.platform := rfl
@[simp] theorem setDeviceIn_pins (s : State) (x : List Byte) : (s.setDeviceIn x).pins = s.pins := rfl
@[simp] theorem setDeviceIn_senseIn (s : State) (x : List Byte) : (s.setDeviceIn x).senseIn = s.senseIn := rfl
@[simp] theorem setDeviceIn_deviceIn (s : State) (x : List Byte) : (s.setDeviceIn x).deviceIn = x := rfl
@[simp] theorem setDeviceIn_trace (s : State) (x : List Byte) : (s.setDeviceIn x).trace = s.trace := rfl
@[simp] theorem setDeviceIn_draws (s : State) (x : List Byte) : (s.setDeviceIn x).draws = s.draws := rfl
@[simp] theorem setTrace_regs (s : State) (x : List BusEvent) : (s.setTrace x).regs = s.regs := rfl
@[simp] theorem setTrace_psl (s : State) (x : List BusEvent) : (s.setTrace x).psl = s.psl := rfl
@[simp] theorem setTrace_psu (s : State) (x : List BusEvent) : (s.setTrace x).psu = s.psu := rfl
@[simp] theorem setTrace_iar (s : State) (x : List BusEvent) : (s.setTrace x).iar = s.iar := rfl
@[simp] theorem setTrace_ras (s : State) (x : List BusEvent) : (s.setTrace x).ras = s.ras := rfl
@[simp] theorem setTrace_mode (s : State) (x : List BusEvent) : (s.setTrace x).mode = s.mode := rfl
@[simp] theorem setTrace_mem (s : State) (x : List BusEvent) : (s.setTrace x).mem = s.mem := rfl
@[simp] theorem setTrace_platform (s : State) (x : List BusEvent) : (s.setTrace x).platform = s.platform := rfl
@[simp] theorem setTrace_pins (s : State) (x : List BusEvent) : (s.setTrace x).pins = s.pins := rfl
@[simp] theorem setTrace_senseIn (s : State) (x : List BusEvent) : (s.setTrace x).senseIn = s.senseIn := rfl
@[simp] theorem setTrace_deviceIn (s : State) (x : List BusEvent) : (s.setTrace x).deviceIn = s.deviceIn := rfl
@[simp] theorem setTrace_trace (s : State) (x : List BusEvent) : (s.setTrace x).trace = x := rfl
@[simp] theorem setTrace_draws (s : State) (x : List BusEvent) : (s.setTrace x).draws = s.draws := rfl
@[simp] theorem setDraws_regs (s : State) (x : Nat) : (s.setDraws x).regs = s.regs := rfl
@[simp] theorem setDraws_psl (s : State) (x : Nat) : (s.setDraws x).psl = s.psl := rfl
@[simp] theorem setDraws_psu (s : State) (x : Nat) : (s.setDraws x).psu = s.psu := rfl
@[simp] theorem setDraws_iar (s : State) (x : Nat) : (s.setDraws x).iar = s.iar := rfl
@[simp] theorem setDraws_ras (s : State) (x : Nat) : (s.setDraws x).ras = s.ras := rfl
@[simp] theorem setDraws_mode (s : State) (x : Nat) : (s.setDraws x).mode = s.mode := rfl
@[simp] theorem setDraws_mem (s : State) (x : Nat) : (s.setDraws x).mem = s.mem := rfl
@[simp] theorem setDraws_platform (s : State) (x : Nat) : (s.setDraws x).platform = s.platform := rfl
@[simp] theorem setDraws_pins (s : State) (x : Nat) : (s.setDraws x).pins = s.pins := rfl
@[simp] theorem setDraws_senseIn (s : State) (x : Nat) : (s.setDraws x).senseIn = s.senseIn := rfl
@[simp] theorem setDraws_deviceIn (s : State) (x : Nat) : (s.setDraws x).deviceIn = s.deviceIn := rfl
@[simp] theorem setDraws_trace (s : State) (x : Nat) : (s.setDraws x).trace = s.trace := rfl
@[simp] theorem setDraws_draws (s : State) (x : Nat) : (s.setDraws x).draws = x := rfl

@[simp] theorem writeReg_psl (r : Reg) (v : Byte) (s : State) : (writeReg r v s).psl = s.psl := rfl
@[simp] theorem writeReg_psu (r : Reg) (v : Byte) (s : State) : (writeReg r v s).psu = s.psu := rfl
@[simp] theorem writeReg_iar (r : Reg) (v : Byte) (s : State) : (writeReg r v s).iar = s.iar := rfl
@[simp] theorem writeReg_ras (r : Reg) (v : Byte) (s : State) : (writeReg r v s).ras = s.ras := rfl
@[simp] theorem writeReg_mode (r : Reg) (v : Byte) (s : State) : (writeReg r v s).mode = s.mode := rfl
@[simp] theorem writeReg_mem (r : Reg) (v : Byte) (s : State) : (writeReg r v s).mem = s.mem := rfl
@[simp] theorem writeReg_platform (r : Reg) (v : Byte) (s : State) : (writeReg r v s).platform = s.platform := rfl
@[simp] theorem writeReg_pins (r : Reg) (v : Byte) (s : State) : (writeReg r v s).pins = s.pins := rfl
@[simp] theorem writeReg_senseIn (r : Reg) (v : Byte) (s : State) : (writeReg r v s).senseIn = s.senseIn := rfl
@[simp] theorem writeReg_deviceIn (r : Reg) (v : Byte) (s : State) : (writeReg r v s).deviceIn = s.deviceIn := rfl
@[simp] theorem writeReg_trace (r : Reg) (v : Byte) (s : State) : (writeReg r v s).trace = s.trace := rfl
@[simp] theorem writeReg_draws (r : Reg) (v : Byte) (s : State) : (writeReg r v s).draws = s.draws := rfl
@[simp] theorem setCC_regs (c : BitVec 2) (s : State) : (setCC c s).regs = s.regs := rfl
@[simp] theorem setCC_psu (c : BitVec 2) (s : State) : (setCC c s).psu = s.psu := rfl
@[simp] theorem setCC_iar (c : BitVec 2) (s : State) : (setCC c s).iar = s.iar := rfl
@[simp] theorem setCC_ras (c : BitVec 2) (s : State) : (setCC c s).ras = s.ras := rfl
@[simp] theorem setCC_mode (c : BitVec 2) (s : State) : (setCC c s).mode = s.mode := rfl
@[simp] theorem setCC_mem (c : BitVec 2) (s : State) : (setCC c s).mem = s.mem := rfl
@[simp] theorem setCC_platform (c : BitVec 2) (s : State) : (setCC c s).platform = s.platform := rfl
@[simp] theorem setCC_pins (c : BitVec 2) (s : State) : (setCC c s).pins = s.pins := rfl
@[simp] theorem setCC_senseIn (c : BitVec 2) (s : State) : (setCC c s).senseIn = s.senseIn := rfl
@[simp] theorem setCC_deviceIn (c : BitVec 2) (s : State) : (setCC c s).deviceIn = s.deviceIn := rfl
@[simp] theorem setCC_trace (c : BitVec 2) (s : State) : (setCC c s).trace = s.trace := rfl
@[simp] theorem setCC_draws (c : BitVec 2) (s : State) : (setCC c s).draws = s.draws := rfl
@[simp] theorem loadReg_psu (r : Reg) (v : Byte) (s : State) : (loadReg r v s).psu = s.psu := rfl
@[simp] theorem loadReg_iar (r : Reg) (v : Byte) (s : State) : (loadReg r v s).iar = s.iar := rfl
@[simp] theorem loadReg_ras (r : Reg) (v : Byte) (s : State) : (loadReg r v s).ras = s.ras := rfl
@[simp] theorem loadReg_mode (r : Reg) (v : Byte) (s : State) : (loadReg r v s).mode = s.mode := rfl
@[simp] theorem loadReg_mem (r : Reg) (v : Byte) (s : State) : (loadReg r v s).mem = s.mem := rfl
@[simp] theorem loadReg_platform (r : Reg) (v : Byte) (s : State) : (loadReg r v s).platform = s.platform := rfl
@[simp] theorem loadReg_pins (r : Reg) (v : Byte) (s : State) : (loadReg r v s).pins = s.pins := rfl
@[simp] theorem loadReg_senseIn (r : Reg) (v : Byte) (s : State) : (loadReg r v s).senseIn = s.senseIn := rfl
@[simp] theorem loadReg_deviceIn (r : Reg) (v : Byte) (s : State) : (loadReg r v s).deviceIn = s.deviceIn := rfl
@[simp] theorem loadReg_trace (r : Reg) (v : Byte) (s : State) : (loadReg r v s).trace = s.trace := rfl
@[simp] theorem loadReg_draws (r : Reg) (v : Byte) (s : State) : (loadReg r v s).draws = s.draws := rfl
@[simp] theorem logEvent_regs (e : BusEvent) (s : State) : (logEvent e s).regs = s.regs := rfl
@[simp] theorem logEvent_psl (e : BusEvent) (s : State) : (logEvent e s).psl = s.psl := rfl
@[simp] theorem logEvent_psu (e : BusEvent) (s : State) : (logEvent e s).psu = s.psu := rfl
@[simp] theorem logEvent_iar (e : BusEvent) (s : State) : (logEvent e s).iar = s.iar := rfl
@[simp] theorem logEvent_ras (e : BusEvent) (s : State) : (logEvent e s).ras = s.ras := rfl
@[simp] theorem logEvent_mode (e : BusEvent) (s : State) : (logEvent e s).mode = s.mode := rfl
@[simp] theorem logEvent_mem (e : BusEvent) (s : State) : (logEvent e s).mem = s.mem := rfl
@[simp] theorem logEvent_platform (e : BusEvent) (s : State) : (logEvent e s).platform = s.platform := rfl
@[simp] theorem logEvent_pins (e : BusEvent) (s : State) : (logEvent e s).pins = s.pins := rfl
@[simp] theorem logEvent_senseIn (e : BusEvent) (s : State) : (logEvent e s).senseIn = s.senseIn := rfl
@[simp] theorem logEvent_deviceIn (e : BusEvent) (s : State) : (logEvent e s).deviceIn = s.deviceIn := rfl
@[simp] theorem logEvent_draws (e : BusEvent) (s : State) : (logEvent e s).draws = s.draws := rfl
@[simp] theorem drawn_regs (s : State) : (drawn s).regs = s.regs := rfl
@[simp] theorem drawn_psl (s : State) : (drawn s).psl = s.psl := rfl
@[simp] theorem drawn_psu (s : State) : (drawn s).psu = s.psu := rfl
@[simp] theorem drawn_iar (s : State) : (drawn s).iar = s.iar := rfl
@[simp] theorem drawn_ras (s : State) : (drawn s).ras = s.ras := rfl
@[simp] theorem drawn_mode (s : State) : (drawn s).mode = s.mode := rfl
@[simp] theorem drawn_mem (s : State) : (drawn s).mem = s.mem := rfl
@[simp] theorem drawn_platform (s : State) : (drawn s).platform = s.platform := rfl
@[simp] theorem drawn_pins (s : State) : (drawn s).pins = s.pins := rfl
@[simp] theorem drawn_senseIn (s : State) : (drawn s).senseIn = s.senseIn := rfl
@[simp] theorem drawn_deviceIn (s : State) : (drawn s).deviceIn = s.deviceIn := rfl
@[simp] theorem drawn_trace (s : State) : (drawn s).trace = s.trace := rfl
@[simp] theorem ioWrite_regs (p : Port) (v : Byte) (s : State) : (ioWrite p v s).regs = s.regs := rfl
@[simp] theorem ioWrite_psl (p : Port) (v : Byte) (s : State) : (ioWrite p v s).psl = s.psl := rfl
@[simp] theorem ioWrite_psu (p : Port) (v : Byte) (s : State) : (ioWrite p v s).psu = s.psu := rfl
@[simp] theorem ioWrite_iar (p : Port) (v : Byte) (s : State) : (ioWrite p v s).iar = s.iar := rfl
@[simp] theorem ioWrite_ras (p : Port) (v : Byte) (s : State) : (ioWrite p v s).ras = s.ras := rfl
@[simp] theorem ioWrite_mode (p : Port) (v : Byte) (s : State) : (ioWrite p v s).mode = s.mode := rfl
@[simp] theorem ioWrite_mem (p : Port) (v : Byte) (s : State) : (ioWrite p v s).mem = s.mem := rfl
@[simp] theorem ioWrite_platform (p : Port) (v : Byte) (s : State) : (ioWrite p v s).platform = s.platform := rfl
@[simp] theorem ioWrite_pins (p : Port) (v : Byte) (s : State) : (ioWrite p v s).pins = s.pins := rfl
@[simp] theorem ioWrite_senseIn (p : Port) (v : Byte) (s : State) : (ioWrite p v s).senseIn = s.senseIn := rfl
@[simp] theorem ioWrite_deviceIn (p : Port) (v : Byte) (s : State) : (ioWrite p v s).deviceIn = s.deviceIn := rfl
@[simp] theorem ioWrite_draws (p : Port) (v : Byte) (s : State) : (ioWrite p v s).draws = s.draws := rfl
@[simp] theorem push_regs (a : Addr) (s : State) : (push a s).regs = s.regs := rfl
@[simp] theorem push_psl (a : Addr) (s : State) : (push a s).psl = s.psl := rfl
@[simp] theorem push_iar (a : Addr) (s : State) : (push a s).iar = s.iar := rfl
@[simp] theorem push_mode (a : Addr) (s : State) : (push a s).mode = s.mode := rfl
@[simp] theorem push_mem (a : Addr) (s : State) : (push a s).mem = s.mem := rfl
@[simp] theorem push_platform (a : Addr) (s : State) : (push a s).platform = s.platform := rfl
@[simp] theorem push_pins (a : Addr) (s : State) : (push a s).pins = s.pins := rfl
@[simp] theorem push_senseIn (a : Addr) (s : State) : (push a s).senseIn = s.senseIn := rfl
@[simp] theorem push_deviceIn (a : Addr) (s : State) : (push a s).deviceIn = s.deviceIn := rfl
@[simp] theorem push_trace (a : Addr) (s : State) : (push a s).trace = s.trace := rfl
@[simp] theorem push_draws (a : Addr) (s : State) : (push a s).draws = s.draws := rfl
@[simp] theorem callTo_regs (a : Addr) (s : State) : (callTo a s).regs = s.regs := rfl
@[simp] theorem callTo_psl (a : Addr) (s : State) : (callTo a s).psl = s.psl := rfl
@[simp] theorem callTo_mode (a : Addr) (s : State) : (callTo a s).mode = s.mode := rfl
@[simp] theorem callTo_mem (a : Addr) (s : State) : (callTo a s).mem = s.mem := rfl
@[simp] theorem callTo_platform (a : Addr) (s : State) : (callTo a s).platform = s.platform := rfl
@[simp] theorem callTo_pins (a : Addr) (s : State) : (callTo a s).pins = s.pins := rfl
@[simp] theorem callTo_senseIn (a : Addr) (s : State) : (callTo a s).senseIn = s.senseIn := rfl
@[simp] theorem callTo_deviceIn (a : Addr) (s : State) : (callTo a s).deviceIn = s.deviceIn := rfl
@[simp] theorem callTo_trace (a : Addr) (s : State) : (callTo a s).trace = s.trace := rfl
@[simp] theorem callTo_draws (a : Addr) (s : State) : (callTo a s).draws = s.draws := rfl
@[simp] theorem returnPop_regs (s : State) : (returnPop s).regs = s.regs := rfl
@[simp] theorem returnPop_psl (s : State) : (returnPop s).psl = s.psl := rfl
@[simp] theorem returnPop_ras (s : State) : (returnPop s).ras = s.ras := rfl
@[simp] theorem returnPop_mode (s : State) : (returnPop s).mode = s.mode := rfl
@[simp] theorem returnPop_mem (s : State) : (returnPop s).mem = s.mem := rfl
@[simp] theorem returnPop_platform (s : State) : (returnPop s).platform = s.platform := rfl
@[simp] theorem returnPop_pins (s : State) : (returnPop s).pins = s.pins := rfl
@[simp] theorem returnPop_senseIn (s : State) : (returnPop s).senseIn = s.senseIn := rfl
@[simp] theorem returnPop_deviceIn (s : State) : (returnPop s).deviceIn = s.deviceIn := rfl
@[simp] theorem returnPop_trace (s : State) : (returnPop s).trace = s.trace := rfl
@[simp] theorem returnPop_draws (s : State) : (returnPop s).draws = s.draws := rfl
@[simp] theorem setInhibit_regs (b : Bool) (s : State) : (setInhibit b s).regs = s.regs := rfl
@[simp] theorem setInhibit_psl (b : Bool) (s : State) : (setInhibit b s).psl = s.psl := rfl
@[simp] theorem setInhibit_iar (b : Bool) (s : State) : (setInhibit b s).iar = s.iar := rfl
@[simp] theorem setInhibit_ras (b : Bool) (s : State) : (setInhibit b s).ras = s.ras := rfl
@[simp] theorem setInhibit_mode (b : Bool) (s : State) : (setInhibit b s).mode = s.mode := rfl
@[simp] theorem setInhibit_mem (b : Bool) (s : State) : (setInhibit b s).mem = s.mem := rfl
@[simp] theorem setInhibit_platform (b : Bool) (s : State) : (setInhibit b s).platform = s.platform := rfl
@[simp] theorem setInhibit_pins (b : Bool) (s : State) : (setInhibit b s).pins = s.pins := rfl
@[simp] theorem setInhibit_senseIn (b : Bool) (s : State) : (setInhibit b s).senseIn = s.senseIn := rfl
@[simp] theorem setInhibit_deviceIn (b : Bool) (s : State) : (setInhibit b s).deviceIn = s.deviceIn := rfl
@[simp] theorem setInhibit_trace (b : Bool) (s : State) : (setInhibit b s).trace = s.trace := rfl
@[simp] theorem setInhibit_draws (b : Bool) (s : State) : (setInhibit b s).draws = s.draws := rfl
@[simp] theorem returnEnable_regs (s : State) : (returnEnable s).regs = s.regs := rfl
@[simp] theorem returnEnable_psl (s : State) : (returnEnable s).psl = s.psl := rfl
@[simp] theorem returnEnable_ras (s : State) : (returnEnable s).ras = s.ras := rfl
@[simp] theorem returnEnable_mode (s : State) : (returnEnable s).mode = s.mode := rfl
@[simp] theorem returnEnable_mem (s : State) : (returnEnable s).mem = s.mem := rfl
@[simp] theorem returnEnable_platform (s : State) : (returnEnable s).platform = s.platform := rfl
@[simp] theorem returnEnable_pins (s : State) : (returnEnable s).pins = s.pins := rfl
@[simp] theorem returnEnable_senseIn (s : State) : (returnEnable s).senseIn = s.senseIn := rfl
@[simp] theorem returnEnable_deviceIn (s : State) : (returnEnable s).deviceIn = s.deviceIn := rfl
@[simp] theorem returnEnable_trace (s : State) : (returnEnable s).trace = s.trace := rfl
@[simp] theorem returnEnable_draws (s : State) : (returnEnable s).draws = s.draws := rfl

/-- Everything the passing of a boundary does: one boundary's levels are used up, and past the end of the list one draw. -/
theorem passBoundary_eq (s : State) :
    passBoundary s = { s with pins := s.pins.tail, draws := if s.pins = [] then s.draws + 1 else s.draws } := by
  obtain ⟨_, _, _, _, _, _, _, _, pins, _, _, _, _⟩ := s
  cases pins <;> rfl

@[simp] theorem passBoundary_regs (s : State) : (passBoundary s).regs = s.regs := by
  rw [passBoundary_eq]
@[simp] theorem passBoundary_psl (s : State) : (passBoundary s).psl = s.psl := by
  rw [passBoundary_eq]
@[simp] theorem passBoundary_psu (s : State) : (passBoundary s).psu = s.psu := by
  rw [passBoundary_eq]
@[simp] theorem passBoundary_iar (s : State) : (passBoundary s).iar = s.iar := by
  rw [passBoundary_eq]
@[simp] theorem passBoundary_ras (s : State) : (passBoundary s).ras = s.ras := by
  rw [passBoundary_eq]
@[simp] theorem passBoundary_mode (s : State) : (passBoundary s).mode = s.mode := by
  rw [passBoundary_eq]
@[simp] theorem passBoundary_mem (s : State) : (passBoundary s).mem = s.mem := by
  rw [passBoundary_eq]
@[simp] theorem passBoundary_platform (s : State) : (passBoundary s).platform = s.platform := by
  rw [passBoundary_eq]
@[simp] theorem passBoundary_pins (s : State) : (passBoundary s).pins = s.pins.tail := by
  rw [passBoundary_eq]
@[simp] theorem passBoundary_senseIn (s : State) : (passBoundary s).senseIn = s.senseIn := by
  rw [passBoundary_eq]
@[simp] theorem passBoundary_deviceIn (s : State) : (passBoundary s).deviceIn = s.deviceIn := by
  rw [passBoundary_eq]
@[simp] theorem passBoundary_trace (s : State) : (passBoundary s).trace = s.trace := by
  rw [passBoundary_eq]
@[simp] theorem passBoundary_draws (s : State) : (passBoundary s).draws = if s.pins = [] then s.draws + 1 else s.draws := by
  rw [passBoundary_eq]

@[simp] theorem poke_regs (a : Addr) (v : Byte) (s : State) : (poke a v s).regs = s.regs := rfl
@[simp] theorem poke_psl (a : Addr) (v : Byte) (s : State) : (poke a v s).psl = s.psl := rfl
@[simp] theorem poke_psu (a : Addr) (v : Byte) (s : State) : (poke a v s).psu = s.psu := rfl
@[simp] theorem poke_iar (a : Addr) (v : Byte) (s : State) : (poke a v s).iar = s.iar := rfl
@[simp] theorem poke_ras (a : Addr) (v : Byte) (s : State) : (poke a v s).ras = s.ras := rfl
@[simp] theorem poke_mode (a : Addr) (v : Byte) (s : State) : (poke a v s).mode = s.mode := rfl
@[simp] theorem poke_platform (a : Addr) (v : Byte) (s : State) : (poke a v s).platform = s.platform := rfl
@[simp] theorem poke_pins (a : Addr) (v : Byte) (s : State) : (poke a v s).pins = s.pins := rfl
@[simp] theorem poke_senseIn (a : Addr) (v : Byte) (s : State) : (poke a v s).senseIn = s.senseIn := rfl
@[simp] theorem poke_deviceIn (a : Addr) (v : Byte) (s : State) : (poke a v s).deviceIn = s.deviceIn := rfl
@[simp] theorem poke_trace (a : Addr) (v : Byte) (s : State) : (poke a v s).trace = s.trace := rfl
@[simp] theorem poke_draws (a : Addr) (v : Byte) (s : State) : (poke a v s).draws = s.draws := rfl
@[simp] theorem arith_psu (f : Psl → Byte → Byte → AluOut) (r : Reg) (y : Byte) (s : State) : (arith f r y s).psu = s.psu := rfl
@[simp] theorem arith_iar (f : Psl → Byte → Byte → AluOut) (r : Reg) (y : Byte) (s : State) : (arith f r y s).iar = s.iar := rfl
@[simp] theorem arith_ras (f : Psl → Byte → Byte → AluOut) (r : Reg) (y : Byte) (s : State) : (arith f r y s).ras = s.ras := rfl
@[simp] theorem arith_mode (f : Psl → Byte → Byte → AluOut) (r : Reg) (y : Byte) (s : State) : (arith f r y s).mode = s.mode := rfl
@[simp] theorem arith_mem (f : Psl → Byte → Byte → AluOut) (r : Reg) (y : Byte) (s : State) : (arith f r y s).mem = s.mem := rfl
@[simp] theorem arith_platform (f : Psl → Byte → Byte → AluOut) (r : Reg) (y : Byte) (s : State) : (arith f r y s).platform = s.platform := rfl
@[simp] theorem arith_pins (f : Psl → Byte → Byte → AluOut) (r : Reg) (y : Byte) (s : State) : (arith f r y s).pins = s.pins := rfl
@[simp] theorem arith_senseIn (f : Psl → Byte → Byte → AluOut) (r : Reg) (y : Byte) (s : State) : (arith f r y s).senseIn = s.senseIn := rfl
@[simp] theorem arith_deviceIn (f : Psl → Byte → Byte → AluOut) (r : Reg) (y : Byte) (s : State) : (arith f r y s).deviceIn = s.deviceIn := rfl
@[simp] theorem arith_trace (f : Psl → Byte → Byte → AluOut) (r : Reg) (y : Byte) (s : State) : (arith f r y s).trace = s.trace := rfl
@[simp] theorem arith_draws (f : Psl → Byte → Byte → AluOut) (r : Reg) (y : Byte) (s : State) : (arith f r y s).draws = s.draws := rfl
@[simp] theorem logic_psu (f : Byte → Byte → Byte) (r : Reg) (y : Byte) (s : State) : (logic f r y s).psu = s.psu := rfl
@[simp] theorem logic_iar (f : Byte → Byte → Byte) (r : Reg) (y : Byte) (s : State) : (logic f r y s).iar = s.iar := rfl
@[simp] theorem logic_ras (f : Byte → Byte → Byte) (r : Reg) (y : Byte) (s : State) : (logic f r y s).ras = s.ras := rfl
@[simp] theorem logic_mode (f : Byte → Byte → Byte) (r : Reg) (y : Byte) (s : State) : (logic f r y s).mode = s.mode := rfl
@[simp] theorem logic_mem (f : Byte → Byte → Byte) (r : Reg) (y : Byte) (s : State) : (logic f r y s).mem = s.mem := rfl
@[simp] theorem logic_platform (f : Byte → Byte → Byte) (r : Reg) (y : Byte) (s : State) : (logic f r y s).platform = s.platform := rfl
@[simp] theorem logic_pins (f : Byte → Byte → Byte) (r : Reg) (y : Byte) (s : State) : (logic f r y s).pins = s.pins := rfl
@[simp] theorem logic_senseIn (f : Byte → Byte → Byte) (r : Reg) (y : Byte) (s : State) : (logic f r y s).senseIn = s.senseIn := rfl
@[simp] theorem logic_deviceIn (f : Byte → Byte → Byte) (r : Reg) (y : Byte) (s : State) : (logic f r y s).deviceIn = s.deviceIn := rfl
@[simp] theorem logic_trace (f : Byte → Byte → Byte) (r : Reg) (y : Byte) (s : State) : (logic f r y s).trace = s.trace := rfl
@[simp] theorem logic_draws (f : Byte → Byte → Byte) (r : Reg) (y : Byte) (s : State) : (logic f r y s).draws = s.draws := rfl
@[simp] theorem comparing_regs (r : Reg) (y : Byte) (s : State) : (comparing r y s).regs = s.regs := rfl
@[simp] theorem comparing_psu (r : Reg) (y : Byte) (s : State) : (comparing r y s).psu = s.psu := rfl
@[simp] theorem comparing_iar (r : Reg) (y : Byte) (s : State) : (comparing r y s).iar = s.iar := rfl
@[simp] theorem comparing_ras (r : Reg) (y : Byte) (s : State) : (comparing r y s).ras = s.ras := rfl
@[simp] theorem comparing_mode (r : Reg) (y : Byte) (s : State) : (comparing r y s).mode = s.mode := rfl
@[simp] theorem comparing_mem (r : Reg) (y : Byte) (s : State) : (comparing r y s).mem = s.mem := rfl
@[simp] theorem comparing_platform (r : Reg) (y : Byte) (s : State) : (comparing r y s).platform = s.platform := rfl
@[simp] theorem comparing_pins (r : Reg) (y : Byte) (s : State) : (comparing r y s).pins = s.pins := rfl
@[simp] theorem comparing_senseIn (r : Reg) (y : Byte) (s : State) : (comparing r y s).senseIn = s.senseIn := rfl
@[simp] theorem comparing_deviceIn (r : Reg) (y : Byte) (s : State) : (comparing r y s).deviceIn = s.deviceIn := rfl
@[simp] theorem comparing_trace (r : Reg) (y : Byte) (s : State) : (comparing r y s).trace = s.trace := rfl
@[simp] theorem comparing_draws (r : Reg) (y : Byte) (s : State) : (comparing r y s).draws = s.draws := rfl

@[simp] theorem writeReg_regs (r : Reg) (v : Byte) (s : State) : (writeReg r v s).regs = regsWrite s.psl.rs r v s.regs := rfl
@[simp] theorem setCC_psl (c : BitVec 2) (s : State) : (setCC c s).psl = { s.psl with cc := c } := rfl
@[simp] theorem loadReg_regs (r : Reg) (v : Byte) (s : State) : (loadReg r v s).regs = regsWrite s.psl.rs r v s.regs := rfl
@[simp] theorem loadReg_psl (r : Reg) (v : Byte) (s : State) : (loadReg r v s).psl = { s.psl with cc := signCC v } := rfl
@[simp] theorem logEvent_trace (e : BusEvent) (s : State) : (logEvent e s).trace = e :: s.trace := rfl
@[simp] theorem drawn_draws (s : State) : (drawn s).draws = s.draws + 1 := rfl
@[simp] theorem ioWrite_trace (p : Port) (v : Byte) (s : State) : (ioWrite p v s).trace = .ioWrite p v :: s.trace := rfl
@[simp] theorem push_psu (a : Addr) (s : State) : (push a s).psu = { s.psu with sp := s.psu.sp + 1 } := rfl
@[simp] theorem push_ras (a : Addr) (s : State) : (push a s).ras = rasWrite s.ras (s.psu.sp + 1) a := rfl
@[simp] theorem callTo_psu (a : Addr) (s : State) : (callTo a s).psu = { s.psu with sp := s.psu.sp + 1 } := rfl
@[simp] theorem callTo_ras (a : Addr) (s : State) : (callTo a s).ras = rasWrite s.ras (s.psu.sp + 1) s.iar := rfl
@[simp] theorem callTo_iar (a : Addr) (s : State) : (callTo a s).iar = a := rfl
@[simp] theorem returnPop_psu (s : State) : (returnPop s).psu = { s.psu with sp := s.psu.sp - 1 } := rfl
@[simp] theorem returnPop_iar (s : State) : (returnPop s).iar = rasRead s.ras s.psu.sp := rfl
@[simp] theorem setInhibit_psu (b : Bool) (s : State) : (setInhibit b s).psu = { s.psu with ii := b } := rfl
@[simp] theorem returnEnable_psu (s : State) : (returnEnable s).psu = { s.psu with ii := false, sp := s.psu.sp - 1 } := rfl
@[simp] theorem returnEnable_iar (s : State) : (returnEnable s).iar = rasRead s.ras s.psu.sp := rfl

end Sys2Proof.Machine
end

