-- ==== Sys2Proof/Laws/Registers.lean ====
section
/-! SUPPORT. The laws of the register file, the condition code and the status bytes. -/

namespace Sys2Proof.Machine

@[simp] theorem bankOf_withBank (rs : Bool) (b : Bank) (g : Regs) : bankOf rs (withBank rs b g) = b := by
  cases rs <;> rfl

@[simp] theorem bankOf_not_withBank (rs : Bool) (b : Bank) (g : Regs) :
    bankOf (!rs) (withBank rs b g) = bankOf (!rs) g := by
  cases rs <;> rfl

@[simp] theorem withBank_r0 (rs : Bool) (b : Bank) (g : Regs) : (withBank rs b g).r0 = g.r0 := by
  cases rs <;> rfl

/-- A read after a write of the register file, in the bank of the write. -/
theorem regsRead_regsWrite (rs : Bool) (q r : Reg) (v : Byte) (g : Regs) :
    regsRead rs q (regsWrite rs r v g) = if q = r then v else regsRead rs q g := by
  cases rs <;> cases q <;> cases r <;> rfl

/-- A write of the register file leaves the other bank alone. -/
theorem bankOf_not_regsWrite (rs : Bool) (r : Reg) (v : Byte) (g : Regs) :
    bankOf (!rs) (regsWrite rs r v g) = bankOf (!rs) g := by
  cases rs <;> cases r <;> rfl

theorem readReg_writeReg (q r : Reg) (v : Byte) (s : State) :
    readReg q (writeReg r v s) = if q = r then v else readReg q s :=
  regsRead_regsWrite s.psl.rs q r v s.regs

/-- Two register files that agree on the selected bank's view and on the other bank are equal. -/
theorem regs_ext_of_views (rs : Bool) (g h : Regs) (hv : ∀ q, regsRead rs q g = regsRead rs q h)
    (hb : bankOf (!rs) g = bankOf (!rs) h) : g = h := by
  have h0 := hv .r0
  have h1 := hv .r1
  have h2 := hv .r2
  have h3 := hv .r3
  obtain ⟨g0, ⟨g1, g2, g3⟩, ⟨g4, g5, g6⟩⟩ := g
  obtain ⟨k0, ⟨k1, k2, k3⟩, ⟨k4, k5, k6⟩⟩ := h
  cases rs <;> simp_all [regsRead, bankOf]

/-- What writing a register and then the whole PSL does. -/
theorem writeReg_setPsl_result (r : Reg) (v : Byte) (p : Psl) (s : State) :
    RegResult r v p s ((writeReg r v s).setPsl p) :=
  ⟨rfl, fun q => regsRead_regsWrite s.psl.rs q r v s.regs, bankOf_not_regsWrite s.psl.rs r v s.regs⟩

/-- What a load does: the register, CC, and nothing else. -/
theorem loadReg_result (r : Reg) (v : Byte) (s : State) :
    RegResult r v { s.psl with cc := signCC v } s (loadReg r v s) :=
  writeReg_setPsl_result r v _ s

/-- What an add or subtract does: the register, the PSL of the adder's result, and nothing else. -/
theorem arith_result (f : Psl → Byte → Byte → AluOut) (r : Reg) (y : Byte) (s : State) :
    RegResult r (f s.psl (readReg r s) y).value (pslAfterAlu s.psl (f s.psl (readReg r s) y)) s (arith f r y s) :=
  writeReg_setPsl_result r _ _ s

/-- What a logical operation does: the register, CC, and nothing else. -/
theorem logic_result (op : Byte → Byte → Byte) (r : Reg) (y : Byte) (s : State) :
    RegResult r (op (readReg r s) y) { s.psl with cc := signCC (op (readReg r s) y) } s (logic op r y s) :=
  loadReg_result r _ s

/-- What a rotate does with WC = 0: the register, CC, and nothing else. -/
theorem rotateInto_result_noCarry (r : Reg) (res : Byte) (cout : Bool) (s : State) (h : s.psl.wc = false) :
    RegResult r res { s.psl with cc := signCC res } s (rotateInto r res cout s) := by
  simpa [rotateInto, h] using loadReg_result r res s

/-- `RegResult` names one state. -/
theorem RegResult_unique {r : Reg} {v : Byte} {p : Psl} {s t u : State} (ht : RegResult r v p s t)
    (hu : RegResult r v p s u) : t = u := by
  have hg : t.regs = u.regs :=
    regs_ext_of_views s.psl.rs _ _ (fun q => (ht.2.1 q).trans (hu.2.1 q).symm) (ht.2.2.trans hu.2.2.symm)
  rw [ht.1, hu.1, hg]

/-- The condition code by the ranges of 10_state R20. -/
theorem signCC_eq_ccOfRange (b : Byte) : signCC b = ccOfRange b := by
  have hb := b.isLt
  unfold signCC ccOfRange
  rw [BitVec.toInt_eq_toNat_cond]
  split_ifs <;> first | rfl | omega

theorem pslOfByte_pslByte (p : Psl) : pslOfByte (pslByte p) = p := by
  obtain ⟨cc, idc, rs, wc, ovf, com, c⟩ := p
  revert cc idc rs wc ovf com c
  decide

theorem pslByte_pslOfByte (b : Byte) : pslByte (pslOfByte b) = b := by
  revert b
  decide

theorem psuOfByte_psuByte (sense : Bool) (u : Psu) : psuOfByte (psuByte sense u) = u := by
  obtain ⟨f, ii, sp⟩ := u
  revert sense f ii sp
  decide

end Sys2Proof.Machine
end

