-- ==== Sys2Proof/Laws/Results.lean ====
section
/-! SUPPORT. Inversion lemmas for results that may stop, and for the shapes of meanings built on them. -/

namespace Sys2Proof.Machine

theorem Res_bind_ok {α β : Type} (x : Res α) (f : α → Res β) (b : β) :
    x.bind f = .ok b ↔ ∃ a, x = .ok a ∧ f a = .ok b := by
  cases x <;> simp [Except.bind]

theorem Res_map_ok {α β : Type} (x : Res α) (f : α → β) (b : β) :
    x.map f = .ok b ↔ ∃ a, x = .ok a ∧ f a = b := by
  cases x <;> simp [Except.map]

theorem Res_bind_of_ok {α β : Type} {x : Res α} {a : α} (h : x = .ok a) (f : α → Res β) : x.bind f = f a := by
  subst h; rfl

theorem Res_map_of_ok {α β : Type} {x : Res α} {a : α} (h : x = .ok a) (f : α → β) : x.map f = .ok (f a) := by
  subst h; rfl

@[simp] theorem finish_ok (s : State) : finish (.ok s) = .next s := rfl

theorem finish_next (x : Res State) (t : State) : finish x = .next t ↔ x = .ok t := by
  cases x with
  | ok s => simp [finish]
  | error e => cases e <;> simp [finish]

theorem withRel_next (f : Reg → Byte → State → State) (r : Reg) (o : RelArg) (s t : State) :
    withRel f r o s = .next t ↔ ∃ x, operandRel o s = .ok x ∧ f r x.1 x.2 = t := by
  rw [withRel, finish_next, Res_map_ok]

theorem withAbs_next (f : Reg → Byte → State → State) (r : Reg) (o : AbsArg) (s t : State) :
    withAbs f r o s = .next t ↔ ∃ x, operandAbs r o s = .ok x ∧ f x.dreg x.value x.state = t := by
  rw [withAbs, finish_next, Res_map_ok]

/-- A branch that completes was not taken and left the state, or was taken and set the IAR to the address `ea` gave. -/
theorem branchWhen_next (c : Bool) (ea : State → Res (Addr × State)) (s t : State) :
    branchWhen c ea s = .next t ↔ (c = false ∧ t = s) ∨ (c = true ∧ ∃ x, ea s = .ok x ∧ t = x.2.setIar x.1) := by
  cases c
  · simp [branchWhen, eq_comm (a := t)]
  · simp [branchWhen, finish_next, Res_map_ok, eq_comm (a := t)]

/-- A subroutine branch that completes was not taken and left the state, or was taken and called the address `ea` gave. -/
theorem callWhen_next (c : Bool) (ea : State → Res (Addr × State)) (s t : State) :
    callWhen c ea s = .next t ↔ (c = false ∧ t = s) ∨ (c = true ∧ ∃ x, ea s = .ok x ∧ t = callTo x.1 x.2) := by
  cases c
  · simp [callWhen, eq_comm (a := t)]
  · simp [callWhen, finish_next, Res_map_ok, eq_comm (a := t)]

/-- A counting branch that completes has changed its register and was then taken or not. -/
theorem countBranch_next (d : Byte) (r : Reg) (ea : State → Res (Addr × State)) (s t : State) :
    countBranch d r ea s = .next t ↔
      (readReg r s + d = 0 ∧ t = writeReg r (readReg r s + d) s) ∨
      (readReg r s + d ≠ 0 ∧ ∃ x, ea (writeReg r (readReg r s + d) s) = .ok x ∧ t = x.2.setIar x.1) := by
  simp [countBranch, branchWhen_next]

end Sys2Proof.Machine
end

