-- ==== Sys2Proof/Laws/Memory.lean ====
section
/-! SUPPORT. The laws of memory: read after write, the canonical form, and one lemma for each memory operation that says
all it can do. -/

namespace Sys2Proof.Machine

theorem Memory_read_cell (a b : Nat) (v : Byte) (m : Memory) :
    Memory.read (Memory.cell a v ++ m) b =
      if b = a then (if v = Memory.unlisted then Memory.read m b else v) else Memory.read m b := by
  by_cases hv : v = Memory.unlisted <;> by_cases hb : b = a
  · simp [Memory.cell, hv]
  · simp [Memory.cell, hv]
  · subst hb; simp [Memory.cell, hv, Memory.read]
  · simp [Memory.cell, hv, Memory.read, hb, Ne.symm hb]

/-- Below the bound of a canonical memory nothing is listed. -/
theorem Memory_read_below (lo hi a : Nat) (m : Memory) (h : Memory.wfFrom lo hi m = true) (ha : a < lo) :
    Memory.read m a = Memory.unlisted := by
  induction m generalizing lo with
  | nil => rfl
  | cons c rest ih =>
    obtain ⟨b, w⟩ := c
    simp only [Memory.wfFrom, Bool.and_eq_true, decide_eq_true_eq] at h
    obtain ⟨⟨⟨h1, -⟩, -⟩, h2⟩ := h
    have hne : b ≠ a := by omega
    simp only [Memory.read, hne, if_false]
    exact ih (b + 1) h2 (by omega)

/-- Every listed cell of a canonical memory is below its upper bound. -/
theorem Memory_wfFrom_lt (lo hi : Nat) (m : Memory) (h : Memory.wfFrom lo hi m = true) : ∀ c ∈ m, c.1 < hi := by
  induction m generalizing lo with
  | nil => simp
  | cons x rest ih =>
    obtain ⟨b, w⟩ := x
    simp only [Memory.wfFrom, Bool.and_eq_true, decide_eq_true_eq] at h
    rintro c (_ | ⟨_, hc⟩)
    · exact h.1.1.2
    · exact ih (b + 1) h.2 c hc

theorem Memory_wfFrom_mono (lo lo' hi : Nat) (m : Memory) (h : Memory.wfFrom lo hi m = true) (hl : lo' ≤ lo) :
    Memory.wfFrom lo' hi m = true := by
  cases m with
  | nil => rfl
  | cons c rest =>
    obtain ⟨b, w⟩ := c
    simp only [Memory.wfFrom, Bool.and_eq_true, decide_eq_true_eq] at h ⊢
    exact ⟨⟨⟨by omega, h.1.1.2⟩, h.1.2⟩, h.2⟩

theorem Memory_wfFrom_cell (lo hi a : Nat) (v : Byte) (m : Memory) (hlo : lo ≤ a) (ha : a < hi)
    (hm : Memory.wfFrom (a + 1) hi m = true) : Memory.wfFrom lo hi (Memory.cell a v ++ m) = true := by
  by_cases hv : v = Memory.unlisted
  · simpa [Memory.cell, hv] using Memory_wfFrom_mono (a + 1) lo hi m hm (by omega)
  · simp [Memory.cell, hv, Memory.wfFrom, hlo, ha, hm]

/-- A write keeps the canonical form above a bound. -/
theorem Memory_write_wfFrom (lo hi a : Nat) (v : Byte) (m : Memory) (h : Memory.wfFrom lo hi m = true) (hlo : lo ≤ a)
    (ha : a < hi) : Memory.wfFrom lo hi (Memory.write m a v) = true := by
  induction m generalizing lo with
  | nil => simpa [Memory.write] using Memory_wfFrom_cell lo hi a v [] hlo ha rfl
  | cons c rest ih =>
    obtain ⟨b, w⟩ := c
    have h' := h
    simp only [Memory.wfFrom, Bool.and_eq_true, decide_eq_true_eq] at h
    obtain ⟨⟨⟨h1, h2⟩, h3⟩, h4⟩ := h
    by_cases hba : b < a
    · simp only [Memory.write, hba, if_true, Memory.wfFrom, Bool.and_eq_true, decide_eq_true_eq]
      exact ⟨⟨⟨h1, h2⟩, h3⟩, ih (b + 1) h4 (by omega)⟩
    · by_cases hbe : b = a
      · subst hbe
        simp only [Memory.write, Nat.lt_irrefl, if_false, if_true]
        exact Memory_wfFrom_cell lo hi b v rest hlo ha h4
      · simp only [Memory.write, hba, hbe, if_false]
        refine Memory_wfFrom_cell lo hi a v _ hlo ha ?_
        simp only [Memory.wfFrom, Bool.and_eq_true, decide_eq_true_eq]
        exact ⟨⟨⟨by omega, h2⟩, h3⟩, h4⟩

/-- Every memory operation writes through `Memory.write`, which keeps the canonical form. -/
theorem Memory_write_wf (size a : Nat) (v : Byte) (m : Memory) (h : Memory.wf size m = true) (ha : a < size) :
    Memory.wf size (Memory.write m a v) = true :=
  Memory_write_wfFrom 0 size a v m h (Nat.zero_le _) ha

/-- A read after a write, above a bound. -/
theorem Memory_read_write_from (lo hi a b : Nat) (v : Byte) (m : Memory) (h : Memory.wfFrom lo hi m = true) (hlo : lo ≤ a) :
    Memory.read (Memory.write m a v) b = if b = a then v else Memory.read m b := by
  induction m generalizing lo with
  | nil =>
    have := Memory_read_cell a b v []
    simp only [List.append_nil] at this
    rw [Memory.write, this]
    by_cases hv : v = Memory.unlisted <;> simp [hv, Memory.read]
  | cons c rest ih =>
    obtain ⟨d, w⟩ := c
    simp only [Memory.wfFrom, Bool.and_eq_true, decide_eq_true_eq] at h
    obtain ⟨⟨⟨h1, -⟩, -⟩, h4⟩ := h
    by_cases hda : d < a
    · simp only [Memory.write, hda, if_true, Memory.read, ih (d + 1) h4 (by omega)]
      by_cases hdb : d = b
      · have : b ≠ a := by omega
        simp [hdb, this]
      · simp [hdb]
    · by_cases hde : d = a
      · subst hde
        simp only [Memory.write, Nat.lt_irrefl, if_false, if_true, Memory_read_cell]
        by_cases hb : b = d
        · subst hb
          by_cases hv : v = Memory.unlisted
          · simpa [hv] using Memory_read_below (b + 1) hi b rest h4 (by omega)
          · simp [hv]
        · simp [hb, Memory.read, Ne.symm hb]
      · simp only [Memory.write, hda, hde, if_false, Memory_read_cell]
        by_cases hb : b = a
        · subst hb
          by_cases hv : v = Memory.unlisted
          · have hr := Memory_read_below (d + 1) hi b rest h4 (by omega)
            simp [hv, Memory.read, hde, hr]
          · simp [hv]
        · simp [hb]

/-- A read after a write gives the byte written there and the old byte everywhere else. -/
theorem Memory_read_write (size a b : Nat) (v : Byte) (m : Memory) (h : Memory.wf size m = true) :
    Memory.read (Memory.write m a v) b = if b = a then v else Memory.read m b :=
  Memory_read_write_from 0 size a b v m h (Nat.zero_le _)

/-! ## The place an address reaches -/

theorem pageOf_toNat (a : Addr) : (pageOf a).toNat = a.toNat / 8192 := by
  have := a.isLt
  simp only [pageOf, BitVec.extractLsb'_toNat, Nat.shiftRight_eq_div_pow]
  omega

theorem offsetOf_toNat (a : Addr) : (offsetOf a).toNat = a.toNat % 8192 := by
  simp [offsetOf]

theorem mkAddr_toNat (p : PageNo) (o : Offset) : (mkAddr p o).toNat = p.toNat * 8192 + o.toNat := by
  have ho := o.isLt
  simp only [mkAddr, BitVec.toNat_append]
  rw [Nat.shiftLeft_eq, Nat.mul_comm, ← Nat.two_pow_add_eq_or_of_lt (by omega)]

/-- Every address reaches a place that the platform's memory has. -/
theorem cellOf_lt (p : Platform) (a : Addr) : (cellOf p a).toNat < memSize p := by
  unfold cellOf memSize
  cases p.pageLines
  · exact a.isLt
  · rw [mkAddr_toNat, offsetOf_toNat]
    simp
    omega

/-- Two addresses reach one place exactly when they are the same byte to the platform. -/
theorem cellOf_eq_iff (p : Platform) (a b : Addr) : cellOf p a = cellOf p b ↔ sameByte p a b := by
  unfold cellOf sameByte
  cases p.pageLines
  · simp
  · rw [← BitVec.toNat_inj, mkAddr_toNat, mkAddr_toNat, offsetOf_toNat, offsetOf_toNat]
    simp
    rintro rfl
    rfl

/-- Memory, map and page lines decide what stands at an address, and addresses of one byte have the same there. -/
theorem kindAt_sameByte {p : Platform} {a b : Addr} (h : sameByte p a b) : kindAt p b = kindAt p a := by
  rw [kindAt, kindAt, (cellOf_eq_iff p a b).2 h]

theorem peek_sameByte {s : State} {a b : Addr} (h : sameByte s.platform a b) : peek s b = peek s a := by
  rw [peek, peek, (cellOf_eq_iff s.platform a b).2 h]

/-- Memory and platform decide every byte, and whether the memory is canonical. -/
theorem peek_congr {s t : State} (hm : t.mem = s.mem) (hp : t.platform = s.platform) (a : Addr) : peek t a = peek s a := by
  rw [peek, peek, hm, hp]

theorem Canonical_congr {s t : State} (hm : t.mem = s.mem) (hp : t.platform = s.platform) (h : Canonical s) :
    Canonical t := by
  rw [Canonical, hm, hp]
  exact h

/-- A changed byte is seen at every address that reaches it. -/
theorem peek_poke_same {a b : Addr} (v : Byte) {s : State} (hc : Canonical s) (h : sameByte s.platform a b) :
    peek (poke a v s) b = v := by
  rw [peek, poke, setMem_mem, setMem_platform, Memory_read_write _ _ _ v s.mem hc, if_pos]
  rw [(cellOf_eq_iff s.platform a b).2 h]

/-- A changed byte is seen nowhere else. -/
theorem peek_poke_other {a b : Addr} (v : Byte) {s : State} (hc : Canonical s) (h : ¬ sameByte s.platform a b) :
    peek (poke a v s) b = peek s b := by
  rw [peek, poke, setMem_mem, setMem_platform, Memory_read_write _ _ _ v s.mem hc, if_neg]
  · rfl
  · rw [BitVec.toNat_inj]
    exact fun e => h ((cellOf_eq_iff s.platform a b).1 e.symm)

theorem poke_canonical (a : Addr) (v : Byte) {s : State} (hc : Canonical s) : Canonical (poke a v s) :=
  Memory_write_wf _ _ v s.mem hc (cellOf_lt s.platform a)

/-! ## Device reads -/

theorem BusOnly_refl (s : State) : BusOnly s s := rfl

theorem BusOnly_trans {s t u : State} (h : BusOnly s t) (k : BusOnly t u) : BusOnly s u := by
  unfold BusOnly at *
  rw [k, h]

/-- The next device byte: only the bytes to come or the count of free values change. -/
theorem busByte_busOnly (s : State) : BusOnly s (busByte s).2 := by
  unfold busByte BusOnly
  split <;> rfl

theorem logEvent_busOnly (e : BusEvent) (s : State) : BusOnly s (logEvent e s) := rfl

/-! ## Memory operations -/

/-- A read answers exactly when the platform has something there. -/
theorem memRead_completes (a : Addr) (s : State) : (∃ x, memRead a s = .ok x) ↔ kindAt s.platform a ≠ .absent := by
  unfold memRead
  split <;> simp_all

/-- A read of RAM or ROM gives the stored byte and leaves the state. -/
theorem memRead_plain (a : Addr) (s : State) (h : Plain s a) : memRead a s = .ok (peek s a, s) := by
  unfold memRead
  rcases h with h | h <;> rw [h]

/-- A read where the platform has nothing. -/
theorem memRead_absent {a : Addr} {s : State} (h : kindAt s.platform a = .absent) :
    memRead a s = .error (.fault (.neverAcknowledged a)) := by
  unfold memRead
  rw [h]

/-- Whatever a read answers, only device inputs are used up. -/
theorem memRead_busOnly {a : Addr} {s : State} {x : Byte × State} (h : memRead a s = .ok x) : BusOnly s x.2 := by
  unfold memRead at h
  split at h
  · cases h; exact BusOnly_refl s
  · cases h; exact BusOnly_refl s
  · cases h; exact BusOnly_trans (busByte_busOnly s) (logEvent_busOnly _ _)
  · cases h

/-- A write answers exactly when the platform has something there. -/
theorem memWrite_completes (a : Addr) (v : Byte) (s : State) :
    (∃ t, memWrite a v s = .ok t) ↔ kindAt s.platform a ≠ .absent := by
  unfold memWrite
  split <;> simp_all

/-- A write where the platform has nothing. -/
theorem memWrite_absent {a : Addr} {v : Byte} {s : State} (h : kindAt s.platform a = .absent) :
    memWrite a v s = .error (.fault (.neverAcknowledged a)) := by
  unfold memWrite
  rw [h]

/-- A write to RAM. -/
theorem memWrite_ram {a : Addr} {v : Byte} {s : State} (h : kindAt s.platform a = .ram) :
    memWrite a v s = .ok (poke a v s) := by
  unfold memWrite
  rw [h]

/-- Everything a write does. -/
theorem memWrite_stored {a : Addr} {v : Byte} {s t : State} (hc : Canonical s) (h : memWrite a v s = .ok t) :
    Stored a v s t := by
  unfold memWrite at h
  unfold Stored
  generalize kindAt s.platform a = k at h ⊢
  cases k <;> cases h
  · exact ⟨rfl, fun _ => ⟨peek_poke_same v hc, peek_poke_other v hc⟩⟩
  · rfl
  · rfl

theorem memWrite_canonical {a : Addr} {v : Byte} {s t : State} (hc : Canonical s) (h : memWrite a v s = .ok t) :
    Canonical t := by
  unfold memWrite at h
  split at h <;> cases h
  · exact poke_canonical a v hc
  · exact hc
  · exact hc

end Sys2Proof.Machine
end

