-- ==== Sys2Proof/Laws/Operands.lean ====
section
/-! SUPPORT. The laws of the operand forms: for each, what it gives when it answers, what it gives over plain memory,
and that it answers when the platform answers everywhere. -/

namespace Sys2Proof.Machine

/-! ## What a device read leaves alone -/

theorem BusOnly_regs {s t : State} (h : BusOnly s t) : t.regs = s.regs := by rw [h]
theorem BusOnly_psl {s t : State} (h : BusOnly s t) : t.psl = s.psl := by rw [h]
theorem BusOnly_psu {s t : State} (h : BusOnly s t) : t.psu = s.psu := by rw [h]
theorem BusOnly_iar {s t : State} (h : BusOnly s t) : t.iar = s.iar := by rw [h]
theorem BusOnly_ras {s t : State} (h : BusOnly s t) : t.ras = s.ras := by rw [h]
theorem BusOnly_mode {s t : State} (h : BusOnly s t) : t.mode = s.mode := by rw [h]
theorem BusOnly_mem {s t : State} (h : BusOnly s t) : t.mem = s.mem := by rw [h]
theorem BusOnly_platform {s t : State} (h : BusOnly s t) : t.platform = s.platform := by rw [h]
theorem BusOnly_pins {s t : State} (h : BusOnly s t) : t.pins = s.pins := by rw [h]
theorem BusOnly_senseIn {s t : State} (h : BusOnly s t) : t.senseIn = s.senseIn := by rw [h]

theorem BusOnly_readReg {s t : State} (h : BusOnly s t) (r : Reg) : readReg r t = readReg r s := by
  rw [readReg, readReg, BusOnly_psl h, BusOnly_regs h]

theorem BusOnly_allMapped {s t : State} (h : BusOnly s t) (hm : AllMapped s) : AllMapped t := by
  intro a
  rw [BusOnly_platform h]
  exact hm a

/-! ## Address arithmetic -/

@[simp] theorem pageOf_mkAddr (p : PageNo) (o : Offset) : pageOf (mkAddr p o) = p := by
  apply BitVec.eq_of_getLsbD_eq
  intro i hi
  have h : ¬ 13 + i < 13 := by omega
  simp only [pageOf, mkAddr, BitVec.getLsbD_extractLsb', BitVec.getLsbD_append, hi, h, decide_true, Bool.true_and,
    if_false, Nat.add_sub_cancel_left]

@[simp] theorem offsetOf_mkAddr (p : PageNo) (o : Offset) : offsetOf (mkAddr p o) = o := by
  apply BitVec.eq_of_getLsbD_eq
  intro i hi
  simp only [offsetOf, mkAddr, BitVec.getLsbD_extractLsb', BitVec.getLsbD_append, hi, decide_true, Bool.true_and,
    if_true, Nat.zero_add]

/-- An address is its page and its offset. -/
@[simp] theorem mkAddr_page_offset (a : Addr) : mkAddr (pageOf a) (offsetOf a) = a := by
  apply BitVec.eq_of_getLsbD_eq
  intro i hi
  simp only [mkAddr, pageOf, offsetOf, BitVec.getLsbD_append, BitVec.getLsbD_extractLsb']
  by_cases h : i < 13
  · simp [h]
  · have h1 : i - 13 < 2 := by omega
    have h2 : 13 + (i - 13) = i := by omega
    simp [h, h1, h2]

/-- Address arithmetic stays in the page. -/
@[simp] theorem pageOf_addOffset (a : Addr) (d : Offset) : pageOf (addOffset a d) = pageOf a := by
  simp [addOffset]

@[simp] theorem offsetOf_addOffset (a : Addr) (d : Offset) : offsetOf (addOffset a d) = offsetOf a + d := by
  simp [addOffset]

theorem inPage_toNat (a : Addr) (n : Int) : ((inPage a n).toNat : Int) = (a.toNat / 8192 * 8192 : Nat) + n % 8192 := by
  have := a.isLt
  simp only [inPage, BitVec.toNat_ofInt]
  omega

/-- The model's address arithmetic is the spec's. -/
theorem addOffset_eq_inPage (a : Addr) (d : Offset) : addOffset a d = inPage a (a.toNat + d.toNat) := by
  apply BitVec.eq_of_toNat_eq
  have h := inPage_toNat a (a.toNat + d.toNat)
  rw [addOffset, mkAddr_toNat, pageOf_toNat, BitVec.toNat_add, offsetOf_toNat]
  omega

theorem nextAddr_eq_inPage (a : Addr) : nextAddr a = inPage a (a.toNat + 1) := addOffset_eq_inPage a 1

/-- Only the number modulo 8,192 counts. -/
theorem inPage_congr (a : Addr) (m n : Int) (h : m % 8192 = n % 8192) : inPage a m = inPage a n := by
  rw [inPage, inPage, h]

/-- A displacement as an offset. -/
theorem displacement_toNat_mod (d : BitVec 7) : ((displacement d).toNat : Int) % 8192 = d.toInt % 8192 := by
  revert d
  decide

/-- The address a relative operand forms. -/
theorem addOffset_displacement (o : RelArg) (s : State) : addOffset s.iar (displacement o.disp) = relBase o s := by
  have h := displacement_toNat_mod o.disp
  rw [addOffset_eq_inPage, relBase]
  exact inPage_congr _ _ _ (by omega)

/-- The address a zero-page operand forms. -/
theorem mkAddr_displacement (o : RelArg) : mkAddr 0 (displacement o.disp) = zeroBase o := by
  have h := displacement_toNat_mod o.disp
  have h2 := inPage_toNat 0 o.disp.toInt
  have h3 := (displacement o.disp).isLt
  apply BitVec.eq_of_toNat_eq
  rw [mkAddr_toNat, zeroBase]
  simp at h2 ⊢
  omega

/-- The address an absolute operand forms. -/
theorem mkAddr_page (o : AbsArg) (s : State) : mkAddr (pageOf s.iar) o.addr = absBase o s := by
  have h2 := inPage_toNat s.iar o.addr.toNat
  have h3 := o.addr.isLt
  apply BitVec.eq_of_toNat_eq
  rw [mkAddr_toNat, absBase, pageOf_toNat]
  omega

/-- A pointer as a number: the two bytes, high byte first, without bit 7 of the first. -/
theorem pointer_eq_ofNat (hi lo : Byte) :
    (hi.extractLsb' 0 7 ++ lo : BitVec (7 + 8)) = BitVec.ofNat 15 (hi.toNat % 128 * 256 + lo.toNat) := by
  have hlo := lo.isLt
  apply BitVec.eq_of_toNat_eq
  simp only [BitVec.toNat_append, BitVec.extractLsb'_toNat, Nat.shiftRight_zero, BitVec.toNat_ofNat]
  rw [Nat.shiftLeft_eq, Nat.mul_comm, ← Nat.two_pow_add_eq_or_of_lt (by omega)]
  omega

/-! ## Reads that cannot stop -/

theorem memRead_mapped (a : Addr) (s : State) (h : AllMapped s) : ∃ x, memRead a s = .ok x ∧ BusOnly s x.2 := by
  obtain ⟨x, hx⟩ := (memRead_completes a s).2 (h a)
  exact ⟨x, hx, memRead_busOnly hx⟩

theorem memWrite_mapped (a : Addr) (v : Byte) (s : State) (h : AllMapped s) : ∃ t, memWrite a v s = .ok t :=
  (memWrite_completes a v s).2 (h a)

/-! ## Indirection -/

theorem readIndirect_busOnly {p : Addr} {s : State} {x : Addr × State} (h : readIndirect p s = .ok x) :
    BusOnly s x.2 := by
  simp only [readIndirect, Res_bind_ok, Res_map_ok] at h
  obtain ⟨hi, h1, lo, h2, rfl⟩ := h
  exact BusOnly_trans (memRead_busOnly h1) (memRead_busOnly h2)

theorem readIndirect_mapped (p : Addr) (s : State) (h : AllMapped s) :
    ∃ x, readIndirect p s = .ok x ∧ BusOnly s x.2 := by
  obtain ⟨hi, h1, hb⟩ := memRead_mapped p s h
  obtain ⟨lo, h2, hc⟩ := memRead_mapped (nextAddr p) hi.2 (BusOnly_allMapped hb h)
  refine ⟨((hi.1.extractLsb' 0 7 ++ lo.1 : BitVec (7 + 8)), lo.2), ?_, BusOnly_trans hb hc⟩
  rw [readIndirect, Res_bind_of_ok h1, Res_map_of_ok h2]

/-- The pointer over plain memory. -/
theorem readIndirect_plain (p : Addr) (s : State) (h1 : Plain s p) (h2 : Plain s (nextAddr p)) :
    readIndirect p s = .ok (pointerAt s p, s) := by
  simp only [readIndirect, memRead_plain p s h1, Except.bind, memRead_plain (nextAddr p) s h2, Except.map]
  rw [pointer_eq_ofNat, pointerAt, nextAddr_eq_inPage]

theorem resolve_busOnly {ind : Bool} {p : Addr} {s : State} {x : Addr × State} (h : resolve ind p s = .ok x) :
    BusOnly s x.2 := by
  unfold resolve at h
  split at h
  · exact readIndirect_busOnly h
  · cases h; exact BusOnly_refl s

theorem resolve_mapped (ind : Bool) (p : Addr) (s : State) (h : AllMapped s) :
    ∃ x, resolve ind p s = .ok x ∧ BusOnly s x.2 := by
  unfold resolve
  split
  · exact readIndirect_mapped p s h
  · exact ⟨_, rfl, BusOnly_refl s⟩

/-- A direct operand is the address itself. -/
@[simp] theorem resolve_direct (p : Addr) (s : State) : resolve false p s = .ok (p, s) := rfl

@[simp] theorem resolve_indirect (p : Addr) (s : State) : resolve true p s = readIndirect p s := rfl

/-! ## The effective addresses -/

theorem eaRel_busOnly {o : RelArg} {s : State} {x : Addr × State} (h : eaRel o s = .ok x) : BusOnly s x.2 :=
  resolve_busOnly h

theorem eaRel_mapped (o : RelArg) (s : State) (h : AllMapped s) : ∃ x, eaRel o s = .ok x ∧ BusOnly s x.2 :=
  resolve_mapped _ _ s h

theorem eaBra_busOnly {o : BraArg} {s : State} {x : Addr × State} (h : eaBra o s = .ok x) : BusOnly s x.2 :=
  resolve_busOnly h

theorem eaBra_mapped (o : BraArg) (s : State) (h : AllMapped s) : ∃ x, eaBra o s = .ok x ∧ BusOnly s x.2 :=
  resolve_mapped _ _ s h

theorem eaZero_busOnly {o : RelArg} {s : State} {x : Addr × State} (h : eaZero o s = .ok x) : BusOnly s x.2 :=
  resolve_busOnly h

theorem eaZero_mapped (o : RelArg) (s : State) (h : AllMapped s) : ∃ x, eaZero o s = .ok x ∧ BusOnly s x.2 :=
  resolve_mapped _ _ s h

theorem addIndex_ok {a : Addr} {x : Byte} {s : State} {b : Addr} (h : addIndex a x s = .ok b) :
    b = addOffset a (x.setWidth 13) := by
  unfold addIndex at h
  split at h <;> cases h
  rfl

theorem addIndex_wrap (a : Addr) (x : Byte) (s : State) (h : s.platform.indexWrap = .wrap) :
    addIndex a x s = .ok (addOffset a (x.setWidth 13)) := by
  simp [addIndex, h]

theorem eaBx_ok {o : BraArg} {s : State} {x : Addr × State} (h : eaBx o s = .ok x) :
    ∃ p, eaBra o s = .ok (p, x.2) ∧ x.1 = addOffset p ((readReg .r3 s).setWidth 13) := by
  simp only [eaBx, Res_bind_ok, Res_map_ok] at h
  obtain ⟨p, h1, a, h2, rfl⟩ := h
  exact ⟨p.1, h1, by rw [addIndex_ok h2, BusOnly_readReg (eaBra_busOnly h1)]⟩

theorem eaBx_busOnly {o : BraArg} {s : State} {x : Addr × State} (h : eaBx o s = .ok x) : BusOnly s x.2 := by
  obtain ⟨p, h1, -⟩ := eaBx_ok h
  exact eaBra_busOnly (x := (p, x.2)) h1

theorem eaBx_mapped (o : BraArg) (s : State) (h : AllMapped s) (hw : s.platform.indexWrap = .wrap) :
    ∃ x, eaBx o s = .ok x ∧ BusOnly s x.2 := by
  obtain ⟨p, h1, hb⟩ := eaBra_mapped o s h
  have hw' : p.2.platform.indexWrap = .wrap := by rw [BusOnly_platform hb, hw]
  refine ⟨(addOffset p.1 ((readReg .r3 p.2).setWidth 13), p.2), ?_, hb⟩
  rw [eaBx, Res_bind_of_ok h1, addIndex_wrap _ _ _ hw']
  rfl

/-! ## The index register -/

/-- The update of the index register writes it, or changes nothing. -/
theorem stepIndex_cases (r : Reg) (ctl : IndexControl) (s : State) :
    stepIndex r ctl s = s ∨ ∃ v, stepIndex r ctl s = writeReg r v s := by
  cases ctl
  · exact .inl rfl
  · exact .inr ⟨_, rfl⟩
  · exact .inr ⟨_, rfl⟩
  · exact .inl rfl

@[simp] theorem stepIndex_psl (r : Reg) (ctl : IndexControl) (s : State) : (stepIndex r ctl s).psl = s.psl := by
  cases ctl <;> rfl
@[simp] theorem stepIndex_psu (r : Reg) (ctl : IndexControl) (s : State) : (stepIndex r ctl s).psu = s.psu := by
  cases ctl <;> rfl
@[simp] theorem stepIndex_iar (r : Reg) (ctl : IndexControl) (s : State) : (stepIndex r ctl s).iar = s.iar := by
  cases ctl <;> rfl
@[simp] theorem stepIndex_ras (r : Reg) (ctl : IndexControl) (s : State) : (stepIndex r ctl s).ras = s.ras := by
  cases ctl <;> rfl
@[simp] theorem stepIndex_mode (r : Reg) (ctl : IndexControl) (s : State) : (stepIndex r ctl s).mode = s.mode := by
  cases ctl <;> rfl
@[simp] theorem stepIndex_mem (r : Reg) (ctl : IndexControl) (s : State) : (stepIndex r ctl s).mem = s.mem := by
  cases ctl <;> rfl
@[simp] theorem stepIndex_platform (r : Reg) (ctl : IndexControl) (s : State) :
    (stepIndex r ctl s).platform = s.platform := by
  cases ctl <;> rfl
@[simp] theorem stepIndex_pins (r : Reg) (ctl : IndexControl) (s : State) : (stepIndex r ctl s).pins = s.pins := by
  cases ctl <;> rfl
@[simp] theorem stepIndex_senseIn (r : Reg) (ctl : IndexControl) (s : State) :
    (stepIndex r ctl s).senseIn = s.senseIn := by
  cases ctl <;> rfl
@[simp] theorem stepIndex_deviceIn (r : Reg) (ctl : IndexControl) (s : State) :
    (stepIndex r ctl s).deviceIn = s.deviceIn := by
  cases ctl <;> rfl
@[simp] theorem stepIndex_trace (r : Reg) (ctl : IndexControl) (s : State) : (stepIndex r ctl s).trace = s.trace := by
  cases ctl <;> rfl
@[simp] theorem stepIndex_draws (r : Reg) (ctl : IndexControl) (s : State) : (stepIndex r ctl s).draws = s.draws := by
  cases ctl <;> rfl

/-- The index register after its update, and every other register. -/
theorem readReg_stepIndex (q r : Reg) (o : AbsArg) (s : State) :
    readReg q (stepIndex r o.ctl s) = if q = r then indexValue r o s else readReg q s := by
  have h1 : readReg r s + 1 = BitVec.ofNat 8 ((readReg r s).toNat + 1) := by
    apply BitVec.eq_of_toNat_eq; simp
  have h2 : readReg r s - 1 = BitVec.ofNat 8 ((readReg r s).toNat + 255) := by
    apply BitVec.eq_of_toNat_eq; simp [BitVec.toNat_sub]; omega
  unfold indexValue
  rcases o with ⟨ind, ctl, addr⟩
  cases ctl
  · by_cases h : q = r <;> simp [stepIndex, h]
  · simp only [stepIndex, readReg_writeReg, h1]
  · simp only [stepIndex, readReg_writeReg, h2]
  · by_cases h : q = r <;> simp [stepIndex, h]

theorem stepIndex_allMapped {r : Reg} {ctl : IndexControl} {s : State} (h : AllMapped s) :
    AllMapped (stepIndex r ctl s) := by
  intro a
  rw [stepIndex_platform]
  exact h a

/-- Everything `eaAbs` answers: the base is resolved after the index register update, an indexed address adds the index
in the page of that base, and the data register is R0 exactly when indexed. -/
theorem eaAbs_ok {r : Reg} {o : AbsArg} {s : State} {x : Located} (h : eaAbs r o s = .ok x) :
    ∃ p, resolve o.ind (mkAddr (pageOf s.iar) o.addr) (stepIndex r o.ctl s) = .ok (p, x.state) ∧
      x.dreg = dataReg r o ∧
      x.addr = if o.ctl = .none then p else addOffset p ((indexValue r o s).setWidth 13) := by
  simp only [eaAbs, Res_bind_ok] at h
  obtain ⟨p, h1, h2⟩ := h
  have hr : readReg r p.2 = indexValue r o s := by
    rw [BusOnly_readReg (resolve_busOnly h1), readReg_stepIndex, if_pos rfl]
  split at h2
  · rename_i hc
    cases h2
    exact ⟨p.1, h1, by simp [dataReg, hc], by simp [hc]⟩
  · rename_i hc
    rw [Res_map_ok] at h2
    obtain ⟨a, h3, rfl⟩ := h2
    refine ⟨p.1, h1, by simp [dataReg, hc], ?_⟩
    rw [if_neg hc, ← hr]
    exact addIndex_ok h3

theorem eaAbs_busOnly {r : Reg} {o : AbsArg} {s : State} {x : Located} (h : eaAbs r o s = .ok x) :
    BusOnly (stepIndex r o.ctl s) x.state := by
  obtain ⟨p, h1, -⟩ := eaAbs_ok h
  exact resolve_busOnly h1

theorem eaAbs_mapped (r : Reg) (o : AbsArg) (s : State) (h : AllMapped s) (hw : s.platform.indexWrap = .wrap) :
    ∃ x, eaAbs r o s = .ok x ∧ BusOnly (stepIndex r o.ctl s) x.state := by
  obtain ⟨p, h1, hb⟩ := resolve_mapped o.ind (mkAddr (pageOf s.iar) o.addr) _ (stepIndex_allMapped (ctl := o.ctl) h)
  have hw' : p.2.platform.indexWrap = .wrap := by rw [BusOnly_platform hb, stepIndex_platform, hw]
  by_cases hc : o.ctl = .none
  · exact ⟨⟨p.1, r, p.2⟩, by rw [eaAbs, Res_bind_of_ok h1, if_pos hc], hb⟩
  · refine ⟨⟨addOffset p.1 ((readReg r p.2).setWidth 13), .r0, p.2⟩, ?_, hb⟩
    rw [eaAbs, Res_bind_of_ok h1, if_neg hc, addIndex_wrap _ _ _ hw']
    rfl

/-! ## Operand bytes -/

theorem operandRel_ok {o : RelArg} {s : State} {x : Byte × State} :
    operandRel o s = .ok x ↔ ∃ a, RelOperand o s a x.1 x.2 := by
  simp only [operandRel, Res_bind_ok, RelOperand]
  constructor
  · rintro ⟨p, h1, h2⟩; exact ⟨p.1, p.2, h1, h2⟩
  · rintro ⟨a, s1, h1, h2⟩; exact ⟨(a, s1), h1, h2⟩

theorem operandRel_busOnly {o : RelArg} {s : State} {x : Byte × State} (h : operandRel o s = .ok x) :
    BusOnly s x.2 := by
  obtain ⟨a, s1, h1, h2⟩ := operandRel_ok.1 h
  exact BusOnly_trans (eaRel_busOnly h1) (memRead_busOnly h2)

theorem operandRel_mapped (o : RelArg) (s : State) (h : AllMapped s) : ∃ x, operandRel o s = .ok x := by
  obtain ⟨p, h1, hb⟩ := eaRel_mapped o s h
  obtain ⟨x, h2, -⟩ := memRead_mapped p.1 p.2 (BusOnly_allMapped hb h)
  exact ⟨x, by rw [operandRel, Res_bind_of_ok h1, h2]⟩

theorem operandAbs_ok {r : Reg} {o : AbsArg} {s : State} {x : AbsOperand} :
    operandAbs r o s = .ok x ↔ ∃ a, AbsOperandIs r o s a x.dreg x.value x.state := by
  simp only [operandAbs, Res_bind_ok, Res_map_ok, AbsOperandIs]
  constructor
  · rintro ⟨p, h1, m, h2, rfl⟩
    exact ⟨p.addr, p.state, h1, h2⟩
  · rintro ⟨a, s1, h1, h2⟩
    exact ⟨_, h1, _, h2, rfl⟩

theorem operandAbs_busOnly {r : Reg} {o : AbsArg} {s : State} {x : AbsOperand} (h : operandAbs r o s = .ok x) :
    BusOnly (stepIndex r o.ctl s) x.state := by
  obtain ⟨a, s1, h1, h2⟩ := operandAbs_ok.1 h
  exact BusOnly_trans (eaAbs_busOnly h1) (memRead_busOnly h2)

theorem operandAbs_mapped (r : Reg) (o : AbsArg) (s : State) (h : AllMapped s) (hw : s.platform.indexWrap = .wrap) :
    ∃ x, operandAbs r o s = .ok x := by
  obtain ⟨p, h1, hb⟩ := eaAbs_mapped r o s h hw
  obtain ⟨m, h2, -⟩ := memRead_mapped p.addr p.state (BusOnly_allMapped hb (stepIndex_allMapped h))
  exact ⟨_, by rw [operandAbs, Res_bind_of_ok h1, Res_map_of_ok h2]⟩

/-! ## The return address stack -/

theorem rasRead_rasWrite (v : Vector Addr 8) (j k : BitVec 3) (a : Addr) :
    rasRead (rasWrite v j a) k = if k = j then a else rasRead v k := by
  simp only [rasRead, rasWrite, Vector.getElem_set]
  by_cases h : k = j
  · simp [h]
  · have : ¬ j.toNat = k.toNat := fun e => h (BitVec.eq_of_toNat_eq e.symm)
    simp [h, this]

/-- What a subroutine branch does, and nothing else. -/
theorem callTo_called (a : Addr) (s : State) : Called a s (callTo a s) :=
  ⟨rfl, fun k => rasRead_rasWrite s.ras (s.psu.sp + 1) k s.iar⟩

/-- A return after a call goes to the address after the call. -/
theorem returnPop_callTo_iar (a : Addr) (s : State) : (returnPop (callTo a s)).iar = s.iar := by
  rw [returnPop_iar, callTo_ras, callTo_psu, rasRead_rasWrite, if_pos rfl]

end Sys2Proof.Machine
end

