-- ==== Sys2Proof/Laws/Step.lean ====
section
/-! SUPPORT. The laws of the fetch, the interrupt, the boundary and the step: for each, everything it can do. -/

namespace Sys2Proof.Machine

/-! ## Fetch -/

theorem FetchOnly_trans {s t u : State} (h : FetchOnly s t) (k : FetchOnly t u) : FetchOnly s u := by
  refine ⟨?_, k.2.trans h.2⟩
  have h1 := h.1
  have k1 := k.1
  rw [k1, h1]

theorem fetchByte_fetchOnly {s : State} {x : Byte × State} (h : fetchByte s = .ok x) : FetchOnly s x.2 := by
  simp only [fetchByte, Res_map_ok] at h
  obtain ⟨m, h1, rfl⟩ := h
  have hb := memRead_busOnly h1
  refine ⟨?_, ?_⟩
  · simp only [State.setIar, BusOnly_regs hb, BusOnly_psl hb, BusOnly_psu hb, BusOnly_ras hb, BusOnly_mode hb,
      BusOnly_mem hb, BusOnly_platform hb, BusOnly_pins hb, BusOnly_senseIn hb]
  · simp [nextAddr, BusOnly_iar hb]

/-- A fetch of a byte over plain memory. -/
theorem fetchByte_plain (s : State) (h : Plain s s.iar) :
    fetchByte s = .ok (peek s s.iar, s.setIar (nextAddr s.iar)) := by
  rw [fetchByte, memRead_plain s.iar s h]
  rfl

/-- A fetch that answers gives one of the instructions of the first byte, and changes nothing but the IAR and device
inputs. -/
theorem fetchInstr_fetchOnly {s : State} {x : Instr × State} (h : fetchInstr s = .ok x) : FetchOnly s x.2 := by
  simp only [fetchInstr, Res_bind_ok] at h
  obtain ⟨x0, h0, h⟩ := h
  have f0 := fetchByte_fetchOnly h0
  split at h
  · cases h
  · cases h; exact f0
  · rw [Res_map_ok] at h
    obtain ⟨x1, h1, rfl⟩ := h
    exact FetchOnly_trans f0 (fetchByte_fetchOnly h1)
  · simp only [Res_bind_ok, Res_map_ok] at h
    obtain ⟨x1, h1, x2, h2, rfl⟩ := h
    exact FetchOnly_trans (FetchOnly_trans f0 (fetchByte_fetchOnly h1)) (fetchByte_fetchOnly h2)

/-! ## Interrupt -/

theorem intAckRead_busOnly (s : State) : BusOnly s (intAckRead s).2 :=
  BusOnly_trans (busByte_busOnly s) (logEvent_busOnly _ _)

theorem ioRead_busOnly (p : Port) (s : State) : BusOnly s (ioRead p s).2 :=
  BusOnly_trans (busByte_busOnly s) (logEvent_busOnly _ _)

/-- Interrupt entry: II is set, the IAR is called away to the address the vector gives, the machine runs. -/
theorem interrupt_ok {s t : State} (h : interrupt s = .ok t) :
    ∃ a s1, eaZero (relArg (intAckRead (setInhibit true s)).1) (intAckRead (setInhibit true s)).2 = .ok (a, s1) ∧
      BusOnly (setInhibit true s) s1 ∧ t = (callTo a s1).setMode .run := by
  simp only [interrupt, Res_map_ok] at h
  obtain ⟨x, h1, rfl⟩ := h
  exact ⟨x.1, x.2, h1, BusOnly_trans (intAckRead_busOnly _) (eaZero_busOnly h1), rfl⟩

/-- An interrupt entry cannot stop when the platform answers everywhere. -/
theorem interrupt_mapped (s : State) (h : AllMapped s) : ∃ t, interrupt s = .ok t := by
  have hm : AllMapped (intAckRead (setInhibit true s)).2 :=
    BusOnly_allMapped (intAckRead_busOnly (setInhibit true s)) h
  obtain ⟨x, h1, -⟩ := eaZero_mapped (relArg (intAckRead (setInhibit true s)).1) _ hm
  exact ⟨(callTo x.1 x.2).setMode .run, by rw [interrupt, Res_map_of_ok h1]⟩

/-! ## Boundary and step -/

/-- The passing of a boundary in the terms of the statements. -/
theorem passBoundary_eq_afterBoundary (s : State) : passBoundary s = afterBoundary s := passBoundary_eq s

/-- The passing of a boundary changes no byte and no place in memory. -/
theorem peek_passBoundary (s : State) (a : Addr) : peek (passBoundary s) a = peek s a :=
  peek_congr (passBoundary_mem s) (passBoundary_platform s) a

theorem Plain_passBoundary {s : State} {a : Addr} (h : Plain s a) : Plain (passBoundary s) a := by
  rw [Plain, passBoundary_platform]
  exact h

/-- The four things a boundary can lead to, in their order of precedence. -/
theorem boundary_cases {s : State} {b : Boundary} (h : boundary s = .ok b) :
    ((pinsNow s).reset = true ∧ b = .settled (resetEvent (passBoundary s))) ∨
    ((pinsNow s).reset = false ∧ (pinsNow s).intreq = true ∧ s.psu.ii = false ∧
      ∃ t, interrupt (passBoundary s) = .ok t ∧ b = .settled t) ∨
    ((pinsNow s).reset = false ∧ ((pinsNow s).intreq = true → s.psu.ii = true) ∧ s.mode = .waitHalt ∧
      b = .settled (passBoundary s)) ∨
    (Fetches s ∧ ∃ i t, fetchInstr (passBoundary s) = .ok (i, t) ∧ b = .run i t) := by
  unfold boundary at h
  by_cases hr : (pinsNow s).reset = true
  · rw [if_pos hr] at h
    cases h
    exact .inl ⟨hr, rfl⟩
  · rw [if_neg hr] at h
    have hr' : (pinsNow s).reset = false := by simpa using hr
    by_cases hi : ((pinsNow s).intreq && !s.psu.ii) = true
    · rw [if_pos hi, Res_map_ok] at h
      obtain ⟨t, h1, rfl⟩ := h
      simp only [Bool.and_eq_true, Bool.not_eq_true'] at hi
      exact .inr (.inl ⟨hr', hi.1, hi.2, t, h1, rfl⟩)
    · rw [if_neg hi] at h
      have hi' : (pinsNow s).intreq = true → s.psu.ii = true := by
        intro hq
        simpa [hq] using hi
      by_cases hw : s.mode = .waitHalt
      · rw [if_pos hw] at h
        cases h
        exact .inr (.inr (.inl ⟨hr', hi', hw, rfl⟩))
      · rw [if_neg hw, Res_map_ok] at h
        obtain ⟨x, h1, rfl⟩ := h
        have hm : s.mode = .run := by
          cases hm : s.mode
          · rfl
          · exact absurd hm hw
        exact .inr (.inr (.inr ⟨⟨hm, hr', hi'⟩, x.1, x.2, h1, rfl⟩))

/-- Everything a step that completes can have done. -/
theorem step_cases {s t : State} (h : step s = .next t) :
    ((pinsNow s).reset = true ∧ t = resetEvent (passBoundary s)) ∨
    ((pinsNow s).reset = false ∧ (pinsNow s).intreq = true ∧ s.psu.ii = false ∧
      interrupt (passBoundary s) = .ok t) ∨
    ((pinsNow s).reset = false ∧ ((pinsNow s).intreq = true → s.psu.ii = true) ∧ s.mode = .waitHalt ∧
      t = passBoundary s) ∨
    (Fetches s ∧ ∃ i u, fetchInstr (passBoundary s) = .ok (i, u) ∧ exec i u = .next t) := by
  unfold step at h
  split at h
  · rename_i b hb
    cases h
    rcases boundary_cases hb with ⟨h1, h2⟩ | ⟨h1, h2, h3, u, h4, h5⟩ | ⟨h1, h2, h3, h4⟩ | ⟨-, i, u, -, h5⟩
    · cases h2; exact .inl ⟨h1, rfl⟩
    · cases h5; exact .inr (.inl ⟨h1, h2, h3, h4⟩)
    · cases h4; exact .inr (.inr (.inl ⟨h1, h2, h3, rfl⟩))
    · cases h5
  · rename_i i u hb
    rcases boundary_cases hb with ⟨-, h2⟩ | ⟨-, -, -, v, -, h5⟩ | ⟨-, -, -, h4⟩ | ⟨h1, j, v, h4, h5⟩
    · cases h2
    · cases h5
    · cases h4
    · cases h5; exact .inr (.inr (.inr ⟨h1, i, u, h4, h⟩))
  · cases h
  · cases h

/-- When the boundary lets an instruction be fetched, the step is the fetch and the instruction. -/
theorem step_fetches (s : State) (h : Fetches s) :
    step s = match fetchInstr (passBoundary s) with
      | .ok (i, t) => exec i t
      | .error (.fault f) => .fault f
      | .error (.refuse r) => .refused r := by
  obtain ⟨hm, hr, hi⟩ := h
  have hb : boundary s = (fetchInstr (passBoundary s)).map fun x => .run x.1 x.2 := by
    have hi' : ((pinsNow s).intreq && !s.psu.ii) = false := by
      cases hq : (pinsNow s).intreq
      · rfl
      · simp [hi hq]
    simp [boundary, hr, hi', hm]
  rw [step, hb]
  cases fetchInstr (passBoundary s) with
  | ok x => rfl
  | error e => cases e <;> rfl

end Sys2Proof.Machine
end

