-- ==== Sys2Proof/Laws/Exec.lean ====
section
/-! SUPPORT. What each instruction can have done when it completes, said once: the inversion of `exec`. -/

namespace Sys2Proof.Machine

/-- The next state `t` of an instruction in state `s`, with every memory access resolved. -/
def ExecResult (s t : State) : Instr → Prop
  | .lodz r => t = loadReg .r0 (readReg r s) s
  | .lodi r v => t = loadReg r v s
  | .lodr r o => ∃ a m u, RelOperand o s a m u ∧ BusOnly s u ∧ t = loadReg r m u
  | .loda r o =>
    ∃ a m u, AbsOperandIs r o s a (dataReg r o) m u ∧ BusOnly (stepIndex r o.ctl s) u ∧ t = loadReg (dataReg r o) m u
  | .strz r => t = loadReg r (readReg .r0 s) s
  | .strr r o => ∃ a u, eaRel o s = .ok (a, u) ∧ BusOnly s u ∧ memWrite a (readReg r s) u = .ok t
  | .stra r o =>
    ∃ a u, eaAbs r o s = .ok ⟨a, dataReg r o, u⟩ ∧ BusOnly (stepIndex r o.ctl s) u ∧ memWrite a (readReg (dataReg r o) u) u = .ok t
  | .addz r => t = arith add8 .r0 (readReg r s) s
  | .addi r v => t = arith add8 r v s
  | .addr r o => ∃ a m u, RelOperand o s a m u ∧ BusOnly s u ∧ t = arith add8 r m u
  | .adda r o =>
    ∃ a m u, AbsOperandIs r o s a (dataReg r o) m u ∧ BusOnly (stepIndex r o.ctl s) u ∧ t = arith add8 (dataReg r o) m u
  | .subz r => t = arith sub8 .r0 (readReg r s) s
  | .subi r v => t = arith sub8 r v s
  | .subr r o => ∃ a m u, RelOperand o s a m u ∧ BusOnly s u ∧ t = arith sub8 r m u
  | .suba r o =>
    ∃ a m u, AbsOperandIs r o s a (dataReg r o) m u ∧ BusOnly (stepIndex r o.ctl s) u ∧ t = arith sub8 (dataReg r o) m u
  | .dar r =>
    t = (if s.platform.darCcDefined then loadReg r (decimalAdjust s.psl (readReg r s)) s
      else drawn (setCC (freeCC s.draws) (writeReg r (decimalAdjust s.psl (readReg r s)) s)))
  | .andz r => t = logic (· &&& ·) .r0 (readReg r s) s
  | .andi r v => t = logic (· &&& ·) r v s
  | .andr r o => ∃ a m u, RelOperand o s a m u ∧ BusOnly s u ∧ t = logic (· &&& ·) r m u
  | .anda r o =>
    ∃ a m u, AbsOperandIs r o s a (dataReg r o) m u ∧ BusOnly (stepIndex r o.ctl s) u ∧ t = logic (· &&& ·) (dataReg r o) m u
  | .iorz r => t = logic (· ||| ·) .r0 (readReg r s) s
  | .iori r v => t = logic (· ||| ·) r v s
  | .iorr r o => ∃ a m u, RelOperand o s a m u ∧ BusOnly s u ∧ t = logic (· ||| ·) r m u
  | .iora r o =>
    ∃ a m u, AbsOperandIs r o s a (dataReg r o) m u ∧ BusOnly (stepIndex r o.ctl s) u ∧ t = logic (· ||| ·) (dataReg r o) m u
  | .eorz r => t = logic (· ^^^ ·) .r0 (readReg r s) s
  | .eori r v => t = logic (· ^^^ ·) r v s
  | .eorr r o => ∃ a m u, RelOperand o s a m u ∧ BusOnly s u ∧ t = logic (· ^^^ ·) r m u
  | .eora r o =>
    ∃ a m u, AbsOperandIs r o s a (dataReg r o) m u ∧ BusOnly (stepIndex r o.ctl s) u ∧ t = logic (· ^^^ ·) (dataReg r o) m u
  | .comz r => t = comparing .r0 (readReg r s) s
  | .comi r v => t = comparing r v s
  | .comr r o => ∃ a m u, RelOperand o s a m u ∧ BusOnly s u ∧ t = comparing r m u
  | .coma r o =>
    ∃ a m u, AbsOperandIs r o s a (dataReg r o) m u ∧ BusOnly (stepIndex r o.ctl s) u ∧ t = comparing (dataReg r o) m u
  | .rrr r => t = rotateInto r (rotrValue s.psl (readReg r s)) ((readReg r s).getLsbD 0) s
  | .rrl r => t = rotateInto r (rotlValue s.psl (readReg r s)) (readReg r s).msb s
  | .lpsu => t = s.setPsu (psuOfByte (readReg .r0 s))
  | .lpsl => t = s.setPsl (pslOfByte (readReg .r0 s))
  | .spsu => t = loadReg .r0 (psuByte (sampleSense s).1 s.psu) (sampleSense s).2
  | .spsl => t = loadReg .r0 (pslByte s.psl) s
  | .ppsu v => t = s.setPsu (psuOfByte (psuByte false s.psu ||| v))
  | .ppsl v => t = s.setPsl (pslOfByte (pslByte s.psl ||| v))
  | .cpsu v => t = s.setPsu (psuOfByte (psuByte false s.psu &&& ~~~v))
  | .cpsl v => t = s.setPsl (pslOfByte (pslByte s.psl &&& ~~~v))
  | .tpsu v => t = setCC (testCC (psuByte (sampleSense s).1 s.psu) v) (sampleSense s).2
  | .tpsl v => t = setCC (testCC (pslByte s.psl) v) s
  | .bctr c o =>
    (condTrue c s.psl = false ∧ t = s) ∨
      (condTrue c s.psl = true ∧ ∃ a u, eaRel o s = .ok (a, u) ∧ BusOnly s u ∧ t = u.setIar a)
  | .bcta c o =>
    (condTrue c s.psl = false ∧ t = s) ∨
      (condTrue c s.psl = true ∧ ∃ a u, eaBra o s = .ok (a, u) ∧ BusOnly s u ∧ t = u.setIar a)
  | .bcfr c o =>
    (condFalse c s.psl = false ∧ t = s) ∨
      (condFalse c s.psl = true ∧ ∃ a u, eaRel o s = .ok (a, u) ∧ BusOnly s u ∧ t = u.setIar a)
  | .bcfa c o =>
    (condFalse c s.psl = false ∧ t = s) ∨
      (condFalse c s.psl = true ∧ ∃ a u, eaBra o s = .ok (a, u) ∧ BusOnly s u ∧ t = u.setIar a)
  | .brnr r o =>
    ((readReg r s != 0) = false ∧ t = s) ∨
      ((readReg r s != 0) = true ∧ ∃ a u, eaRel o s = .ok (a, u) ∧ BusOnly s u ∧ t = u.setIar a)
  | .brna r o =>
    ((readReg r s != 0) = false ∧ t = s) ∨
      ((readReg r s != 0) = true ∧ ∃ a u, eaBra o s = .ok (a, u) ∧ BusOnly s u ∧ t = u.setIar a)
  | .birr r o =>
    (readReg r s + 1 = 0 ∧ t = writeReg r (readReg r s + 1) s) ∨
      (readReg r s + 1 ≠ 0 ∧ ∃ a u, eaRel o (writeReg r (readReg r s + 1) s) = .ok (a, u) ∧
        BusOnly (writeReg r (readReg r s + 1) s) u ∧ t = u.setIar a)
  | .bira r o =>
    (readReg r s + 1 = 0 ∧ t = writeReg r (readReg r s + 1) s) ∨
      (readReg r s + 1 ≠ 0 ∧ ∃ a u, eaBra o (writeReg r (readReg r s + 1) s) = .ok (a, u) ∧
        BusOnly (writeReg r (readReg r s + 1) s) u ∧ t = u.setIar a)
  | .bdrr r o =>
    (readReg r s + -1 = 0 ∧ t = writeReg r (readReg r s + -1) s) ∨
      (readReg r s + -1 ≠ 0 ∧ ∃ a u, eaRel o (writeReg r (readReg r s + -1) s) = .ok (a, u) ∧
        BusOnly (writeReg r (readReg r s + -1) s) u ∧ t = u.setIar a)
  | .bdra r o =>
    (readReg r s + -1 = 0 ∧ t = writeReg r (readReg r s + -1) s) ∨
      (readReg r s + -1 ≠ 0 ∧ ∃ a u, eaBra o (writeReg r (readReg r s + -1) s) = .ok (a, u) ∧
        BusOnly (writeReg r (readReg r s + -1) s) u ∧ t = u.setIar a)
  | .bxa o => ∃ a u, eaBx o s = .ok (a, u) ∧ BusOnly s u ∧ t = u.setIar a
  | .zbrr o => ∃ a u, eaZero o s = .ok (a, u) ∧ BusOnly s u ∧ t = u.setIar a
  | .bstr c o =>
    (condTrue c s.psl = false ∧ t = s) ∨
      (condTrue c s.psl = true ∧ ∃ a u, eaRel o s = .ok (a, u) ∧ BusOnly s u ∧ t = callTo a u)
  | .bsta c o =>
    (condTrue c s.psl = false ∧ t = s) ∨
      (condTrue c s.psl = true ∧ ∃ a u, eaBra o s = .ok (a, u) ∧ BusOnly s u ∧ t = callTo a u)
  | .bsfr c o =>
    (condFalse c s.psl = false ∧ t = s) ∨
      (condFalse c s.psl = true ∧ ∃ a u, eaRel o s = .ok (a, u) ∧ BusOnly s u ∧ t = callTo a u)
  | .bsfa c o =>
    (condFalse c s.psl = false ∧ t = s) ∨
      (condFalse c s.psl = true ∧ ∃ a u, eaBra o s = .ok (a, u) ∧ BusOnly s u ∧ t = callTo a u)
  | .bsnr r o =>
    ((readReg r s != 0) = false ∧ t = s) ∨
      ((readReg r s != 0) = true ∧ ∃ a u, eaRel o s = .ok (a, u) ∧ BusOnly s u ∧ t = callTo a u)
  | .bsna r o =>
    ((readReg r s != 0) = false ∧ t = s) ∨
      ((readReg r s != 0) = true ∧ ∃ a u, eaBra o s = .ok (a, u) ∧ BusOnly s u ∧ t = callTo a u)
  | .bsxa o => ∃ a u, eaBx o s = .ok (a, u) ∧ BusOnly s u ∧ t = callTo a u
  | .zbsr o => ∃ a u, eaZero o s = .ok (a, u) ∧ BusOnly s u ∧ t = callTo a u
  | .retc c => t = (if condTrue c s.psl then returnPop s else s)
  | .rete c => t = (if condTrue c s.psl then returnEnable s else s)
  | .redd r => t = readPort .data r s
  | .redc r => t = readPort .ctrl r s
  | .rede r v => t = readPort (.ext v) r s
  | .wrtd r => t = ioWrite .data (readReg r s) s
  | .wrtc r => t = ioWrite .ctrl (readReg r s) s
  | .wrte r v => t = ioWrite (.ext v) (readReg r s) s
  | .halt => t = s.setMode .waitHalt
  | .nop => t = s
  | .tmi r v => t = setCC (testCC (readReg r s) v) s

theorem next_inj {s t : State} (h : Host.Outcome.next s = (Host.Outcome.next t : Host.Outcome State Fault Refusal)) :
    t = s := by
  cases h; rfl

theorem withRel_cases {f : Reg → Byte → State → State} {r : Reg} {o : RelArg} {s t : State}
    (h : withRel f r o s = .next t) : ∃ a m u, RelOperand o s a m u ∧ BusOnly s u ∧ t = f r m u := by
  obtain ⟨x, h1, rfl⟩ := (withRel_next f r o s t).1 h
  obtain ⟨a, h2⟩ := operandRel_ok.1 h1
  exact ⟨a, x.1, x.2, h2, operandRel_busOnly h1, rfl⟩

theorem withAbs_cases {f : Reg → Byte → State → State} {r : Reg} {o : AbsArg} {s t : State}
    (h : withAbs f r o s = .next t) :
    ∃ a m u, AbsOperandIs r o s a (dataReg r o) m u ∧ BusOnly (stepIndex r o.ctl s) u ∧ t = f (dataReg r o) m u := by
  obtain ⟨x, h1, rfl⟩ := (withAbs_next f r o s t).1 h
  obtain ⟨a, h2⟩ := operandAbs_ok.1 h1
  have hb := operandAbs_busOnly h1
  obtain ⟨s1, h3, h4⟩ := h2
  obtain ⟨p, -, h5, -⟩ := eaAbs_ok h3
  simp only at h5
  rw [h5] at h3 ⊢
  exact ⟨a, x.value, x.state, ⟨s1, h3, h4⟩, hb, rfl⟩

theorem branchWhen_cases {c : Bool} {ea : State → Res (Addr × State)} {s t : State}
    (hea : ∀ {x}, ea s = .ok x → BusOnly s x.2) (h : branchWhen c ea s = .next t) :
    (c = false ∧ t = s) ∨ (c = true ∧ ∃ a u, ea s = .ok (a, u) ∧ BusOnly s u ∧ t = u.setIar a) := by
  rcases (branchWhen_next c ea s t).1 h with h1 | ⟨h1, x, h2, h3⟩
  · exact .inl h1
  · exact .inr ⟨h1, x.1, x.2, h2, hea h2, h3⟩

theorem callWhen_cases {c : Bool} {ea : State → Res (Addr × State)} {s t : State}
    (hea : ∀ {x}, ea s = .ok x → BusOnly s x.2) (h : callWhen c ea s = .next t) :
    (c = false ∧ t = s) ∨ (c = true ∧ ∃ a u, ea s = .ok (a, u) ∧ BusOnly s u ∧ t = callTo a u) := by
  rcases (callWhen_next c ea s t).1 h with h1 | ⟨h1, x, h2, h3⟩
  · exact .inl h1
  · exact .inr ⟨h1, x.1, x.2, h2, hea h2, h3⟩

theorem countBranch_cases {d : Byte} {r : Reg} {ea : State → Res (Addr × State)} {s t : State}
    (hea : ∀ {u x}, ea u = .ok x → BusOnly u x.2) (h : countBranch d r ea s = .next t) :
    (readReg r s + d = 0 ∧ t = writeReg r (readReg r s + d) s) ∨
    (readReg r s + d ≠ 0 ∧ ∃ a u, ea (writeReg r (readReg r s + d) s) = .ok (a, u) ∧
      BusOnly (writeReg r (readReg r s + d) s) u ∧ t = u.setIar a) := by
  rcases (countBranch_next d r ea s t).1 h with h1 | ⟨h1, x, h2, h3⟩
  · exact .inl h1
  · exact .inr ⟨h1, x.1, x.2, h2, hea h2, h3⟩

theorem always_of_cases {P Q : Prop} (h : (true = false ∧ P) ∨ (true = true ∧ Q)) : Q := by
  rcases h with ⟨h, -⟩ | ⟨-, h⟩
  · cases h
  · exact h

/-- Everything an instruction that completes can have done. -/
theorem exec_cases {i : Instr} {s t : State} (h : exec i s = .next t) : ExecResult s t i := by
  cases i with
  | lodz r => exact next_inj h
  | lodi r v => exact next_inj h
  | lodr r o => exact withRel_cases h
  | loda r o => exact withAbs_cases h
  | strz r => exact next_inj h
  | strr r o =>
    obtain ⟨x, h1, h2⟩ := (Res_bind_ok _ _ _).1 ((finish_next _ _).1 h)
    exact ⟨x.1, x.2, h1, eaRel_busOnly h1, by rw [← BusOnly_readReg (eaRel_busOnly h1)]; exact h2⟩
  | stra r o =>
    obtain ⟨x, h1, h2⟩ := (Res_bind_ok _ _ _).1 ((finish_next _ _).1 h)
    obtain ⟨p, -, h3, -⟩ := eaAbs_ok h1
    rw [h3] at h2
    exact ⟨x.addr, x.state, by rw [h1, ← h3], eaAbs_busOnly h1, h2⟩
  | addz r => exact next_inj h
  | addi r v => exact next_inj h
  | addr r o => exact withRel_cases h
  | adda r o => exact withAbs_cases h
  | subz r => exact next_inj h
  | subi r v => exact next_inj h
  | subr r o => exact withRel_cases h
  | suba r o => exact withAbs_cases h
  | dar r =>
    simp only [exec, execDar] at h
    split at h <;> rename_i hd <;> cases next_inj h <;> simp [ExecResult, hd]
  | andz r => exact next_inj h
  | andi r v => exact next_inj h
  | andr r o => exact withRel_cases h
  | anda r o => exact withAbs_cases h
  | iorz r => exact next_inj h
  | iori r v => exact next_inj h
  | iorr r o => exact withRel_cases h
  | iora r o => exact withAbs_cases h
  | eorz r => exact next_inj h
  | eori r v => exact next_inj h
  | eorr r o => exact withRel_cases h
  | eora r o => exact withAbs_cases h
  | comz r => exact next_inj h
  | comi r v => exact next_inj h
  | comr r o => exact withRel_cases h
  | coma r o => exact withAbs_cases h
  | rrr r => exact next_inj h
  | rrl r => exact next_inj h
  | lpsu => exact next_inj h
  | lpsl => exact next_inj h
  | spsu => exact next_inj h
  | spsl => exact next_inj h
  | ppsu v => exact next_inj h
  | ppsl v => exact next_inj h
  | cpsu v => exact next_inj h
  | cpsl v => exact next_inj h
  | tpsu v => exact next_inj h
  | tpsl v => exact next_inj h
  | bctr c o => exact branchWhen_cases eaRel_busOnly h
  | bcta c o => exact branchWhen_cases eaBra_busOnly h
  | bcfr c o => exact branchWhen_cases eaRel_busOnly h
  | bcfa c o => exact branchWhen_cases eaBra_busOnly h
  | brnr r o => exact branchWhen_cases eaRel_busOnly h
  | brna r o => exact branchWhen_cases eaBra_busOnly h
  | birr r o => exact countBranch_cases eaRel_busOnly h
  | bira r o => exact countBranch_cases eaBra_busOnly h
  | bdrr r o => exact countBranch_cases eaRel_busOnly h
  | bdra r o => exact countBranch_cases eaBra_busOnly h
  | bxa o => exact always_of_cases (branchWhen_cases eaBx_busOnly h)
  | zbrr o => exact always_of_cases (branchWhen_cases eaZero_busOnly h)
  | bstr c o => exact callWhen_cases eaRel_busOnly h
  | bsta c o => exact callWhen_cases eaBra_busOnly h
  | bsfr c o => exact callWhen_cases eaRel_busOnly h
  | bsfa c o => exact callWhen_cases eaBra_busOnly h
  | bsnr r o => exact callWhen_cases eaRel_busOnly h
  | bsna r o => exact callWhen_cases eaBra_busOnly h
  | bsxa o => exact always_of_cases (callWhen_cases eaBx_busOnly h)
  | zbsr o => exact always_of_cases (callWhen_cases eaZero_busOnly h)
  | retc c => exact next_inj h
  | rete c => exact next_inj h
  | redd r => exact next_inj h
  | redc r => exact next_inj h
  | rede r v => exact next_inj h
  | wrtd r => exact next_inj h
  | wrtc r => exact next_inj h
  | wrte r v => exact next_inj h
  | halt => exact next_inj h
  | nop => exact next_inj h
  | tmi r v => exact next_inj h

end Sys2Proof.Machine
end

