-- ==== Sys2Proof/Laws/Operations.lean ====
section
/-! SUPPORT. What the remaining shared operations do, said once in the terms of Safety: inputs, indexed sums, operands,
branches and calls, the fetch along a page, rotates, decimal adjust and the status bytes. -/

namespace Sys2Proof.Machine

/-! ## Inputs -/

/-- The data bus gives the next byte of the platform's list or a free value. -/
theorem busByte_read (s : State) : BusRead (busByte s).1 s (busByte s).2 := by
  unfold busByte BusRead
  split
  · rename_i v rest h
    exact .inl ⟨rest, h, rfl⟩
  · rename_i h
    exact .inr ⟨h, rfl⟩

/-- A sample of SENSE is the next one of the platform's list or a free value. -/
theorem sampleSense_sample (s : State) : SenseSample (sampleSense s).1 s (sampleSense s).2 := by
  unfold sampleSense SenseSample
  split
  · rename_i v rest h
    exact .inl ⟨rest, h, rfl⟩
  · rename_i h
    exact .inr ⟨h, rfl⟩

/-! ## Operands -/

/-- A relative operand that is read lets the instruction go on with it. -/
theorem withRel_of_operand {f : Reg → Byte → State → State} {r : Reg} {o : RelArg} {s : State} {a : Addr} {m : Byte}
    {u : State} (h : RelOperand o s a m u) : withRel f r o s = .next (f r m u) :=
  (withRel_next f r o s _).2 ⟨(m, u), operandRel_ok.2 ⟨a, h⟩, rfl⟩

/-- An absolute operand that is read lets the instruction go on with it. -/
theorem withAbs_of_operand {f : Reg → Byte → State → State} {r : Reg} {o : AbsArg} {s : State} {a : Addr} {d : Reg}
    {m : Byte} {u : State} (h : AbsOperandIs r o s a d m u) : withAbs f r o s = .next (f d m u) :=
  (withAbs_next f r o s _).2 ⟨⟨m, d, u⟩, operandAbs_ok.2 ⟨a, h⟩, rfl⟩

theorem RelOperand_busOnly {o : RelArg} {s : State} {a : Addr} {m : Byte} {u : State} (h : RelOperand o s a m u) :
    BusOnly s u :=
  operandRel_busOnly (x := (m, u)) (operandRel_ok.2 ⟨a, h⟩)

/-- The data register of an absolute operand, and what its reading leaves alone. -/
theorem AbsOperandIs_cases {r : Reg} {o : AbsArg} {s : State} {a : Addr} {d : Reg} {m : Byte} {u : State}
    (h : AbsOperandIs r o s a d m u) : d = dataReg r o ∧ BusOnly (stepIndex r o.ctl s) u := by
  refine ⟨?_, operandAbs_busOnly (x := ⟨m, d, u⟩) (operandAbs_ok.2 ⟨a, h⟩)⟩
  obtain ⟨s1, h1, -⟩ := h
  obtain ⟨p, -, h2, -⟩ := eaAbs_ok h1
  exact h2

/-- An indexed sum inside the page, or wrapped. -/
theorem addIndex_inPage {a : Addr} {x : Byte} {s : State}
    (h : s.platform.indexWrap = .wrap ∨ a.toNat % 8192 + x.toNat < 8192) :
    addIndex a x s = .ok (inPage a (a.toNat + x.toNat)) := by
  have hx : (x.setWidth 13).toNat = x.toNat := by
    have := x.isLt
    simp
    omega
  rw [addIndex, if_neg, addOffset_eq_inPage, hx]
  rw [offsetOf_toNat]
  rintro ⟨h1, h2⟩
  rcases h with h | h
  · rw [h] at h1
    cases h1
  · omega

/-- An indexed sum past the page that the platform refuses. -/
theorem addIndex_refused {a : Addr} {x : Byte} {s : State} (h1 : s.platform.indexWrap = .refuse)
    (h2 : 8192 ≤ a.toNat % 8192 + x.toNat) : addIndex a x s = .error (.refuse (.indexedAcrossPage a)) := by
  rw [addIndex, if_pos]
  rw [offsetOf_toNat]
  exact ⟨h1, h2⟩

theorem eaBx_inPage {o : BraArg} {s : State} {a : Addr} {u : State} (h : eaBra o s = .ok (a, u))
    (hw : s.platform.indexWrap = .wrap ∨ a.toNat % 8192 + (readReg .r3 s).toNat < 8192) :
    eaBx o s = .ok (inPage a (a.toNat + (readReg .r3 s).toNat), u) := by
  have hb := eaBra_busOnly h
  rw [eaBx, Res_bind_of_ok h, BusOnly_readReg hb, addIndex_inPage (by rw [BusOnly_platform hb]; exact hw)]
  rfl

theorem eaBx_refused {o : BraArg} {s : State} {a : Addr} {u : State} (h : eaBra o s = .ok (a, u))
    (h1 : s.platform.indexWrap = .refuse) (h2 : 8192 ≤ a.toNat % 8192 + (readReg .r3 s).toNat) :
    eaBx o s = .error (.refuse (.indexedAcrossPage a)) := by
  have hb := eaBra_busOnly h
  rw [eaBx, Res_bind_of_ok h, BusOnly_readReg hb, addIndex_refused (by rw [BusOnly_platform hb]; exact h1) h2]
  rfl

/-! ## Branches and calls -/

theorem branchWhen_taken {c : Bool} {ea : State → Res (Addr × State)} {s : State} {a : Addr} {u : State} (hc : c = true)
    (h : ea s = .ok (a, u)) : branchWhen c ea s = .next { u with iar := a } :=
  (branchWhen_next c ea s _).2 (.inr ⟨hc, (a, u), h, rfl⟩)

theorem branchWhen_untaken {c : Bool} {ea : State → Res (Addr × State)} {s : State} (hc : c = false) :
    branchWhen c ea s = .next s :=
  (branchWhen_next c ea s s).2 (.inl ⟨hc, rfl⟩)

theorem callWhen_taken {c : Bool} {ea : State → Res (Addr × State)} {s : State} {a : Addr} {u : State} (hc : c = true)
    (h : ea s = .ok (a, u)) : ∃ t, callWhen c ea s = .next t ∧ Called a u t :=
  ⟨_, (callWhen_next c ea s _).2 (.inr ⟨hc, (a, u), h, rfl⟩), callTo_called a u⟩

theorem callWhen_untaken {c : Bool} {ea : State → Res (Addr × State)} {s : State} (hc : c = false) :
    callWhen c ea s = .next s :=
  (callWhen_next c ea s s).2 (.inl ⟨hc, rfl⟩)

theorem condTrue_iff (v : Cond) (p : Psl) : condTrue v p = true ↔ v = 3 ∨ p.cc = v := by
  simp [condTrue]

theorem condFalse_iff (v : Cond) (p : Psl) : condFalse v p = true ↔ p.cc ≠ v := by
  simp [condFalse]

/-! ## The fetch along a page -/

/-- The address after offset `n` from an address is offset `n + 1` from it, in its page. -/
theorem nextAddr_inPage (a : Addr) (n : Nat) : nextAddr (inPage a (a.toNat + n)) = inPage a (a.toNat + (n + 1 : Nat)) := by
  apply BitVec.eq_of_toNat_eq
  rw [nextAddr_eq_inPage]
  have h1 := inPage_toNat (inPage a (a.toNat + n)) ((inPage a (a.toNat + n)).toNat + 1)
  have h2 := inPage_toNat a (a.toNat + n)
  have h3 := inPage_toNat a (a.toNat + (n + 1 : Nat))
  push_cast at *
  omega

theorem inPage_self (a : Addr) : inPage a (a.toNat + (0 : Nat)) = a := by
  apply BitVec.eq_of_toNat_eq
  have h := inPage_toNat a (a.toNat + (0 : Nat))
  push_cast at *
  omega

/-- A fetch `n` bytes on from the IAR. -/
theorem fetchByte_along (s : State) (n : Nat) (h : Plain s (inPage s.iar (s.iar.toNat + n))) :
    fetchByte { s with iar := inPage s.iar (s.iar.toNat + n) } =
      .ok (peek s (inPage s.iar (s.iar.toNat + n)), { s with iar := inPage s.iar (s.iar.toNat + (n + 1 : Nat)) }) := by
  rw [fetchByte_plain _ h, ← nextAddr_inPage]
  rfl

/-! ## Rotates, decimal adjust and the status bytes in the spec's arithmetic -/

theorem ofBool_append_high (b : Bool) (x : Byte) :
    (BitVec.ofBool b ++ x.extractLsb' 1 7 : BitVec (1 + 7)) = rotatedRight b x := by
  revert b x
  decide

theorem append_ofBool_low (b : Bool) (x : Byte) :
    (x.extractLsb' 0 7 ++ BitVec.ofBool b : BitVec (7 + 1)) = rotatedLeft b x := by
  revert b x
  decide

theorem rotrValue_eq (p : Psl) (x : Byte) : rotrValue p x = rotatedRight (if p.wc then p.c else x.getLsbD 0) x :=
  ofBool_append_high _ x

theorem rotlValue_eq (p : Psl) (x : Byte) : rotlValue p x = rotatedLeft (if p.wc then p.c else x.msb) x :=
  append_ofBool_low _ x

theorem msb_eq_bit_seven (x : Byte) : x.msb = x.getLsbD 7 := by
  revert x
  decide

theorem decimalAdjust_eq (p : Psl) (x : Byte) : decimalAdjust p x = adjustedByte p x := by
  have h : ∀ (c i : Bool) (x : Byte),
      ((if c then x.extractLsb' 4 4 else x.extractLsb' 4 4 + 10) ++
        (if i then x.extractLsb' 0 4 else x.extractLsb' 0 4 + 10) : BitVec (4 + 4)) =
      BitVec.ofNat 8
        ((x.toNat / 16 + if c then 0 else 10) % 16 * 16 + (x.toNat % 16 + if i then 0 else 10) % 16) := by
    decide
  exact h p.c p.idc x

theorem pslNumber_eq (p : Psl) : pslNumber p = pslByte p := by
  obtain ⟨cc, idc, rs, wc, ovf, com, c⟩ := p
  revert cc idc rs wc ovf com c
  decide

theorem psuNumber_eq (b : Bool) (u : Psu) : psuNumber b u = psuByte b u := by
  obtain ⟨flag, ii, sp⟩ := u
  revert b flag ii sp
  decide

end Sys2Proof.Machine
end

