-- ==== Sys2Proof/Laws/PerInstr.lean ====
section
/-! SUPPORT. Statements about every instruction as syntax, one lemma per constructor. -/

namespace Sys2Proof.Laws.EncodedLength

/-- The number of bytes of an instruction, from the "bytes" column of 30_encoding R84. -/
def bytes : Instr → Nat
  | .lodz _ => 1
  | .lodi _ _ => 2
  | .lodr _ _ => 2
  | .loda _ _ => 3
  | .strz _ => 1
  | .strr _ _ => 2
  | .stra _ _ => 3
  | .addz _ => 1
  | .addi _ _ => 2
  | .addr _ _ => 2
  | .adda _ _ => 3
  | .subz _ => 1
  | .subi _ _ => 2
  | .subr _ _ => 2
  | .suba _ _ => 3
  | .dar _ => 1
  | .andz _ => 1
  | .andi _ _ => 2
  | .andr _ _ => 2
  | .anda _ _ => 3
  | .iorz _ => 1
  | .iori _ _ => 2
  | .iorr _ _ => 2
  | .iora _ _ => 3
  | .eorz _ => 1
  | .eori _ _ => 2
  | .eorr _ _ => 2
  | .eora _ _ => 3
  | .comz _ => 1
  | .comi _ _ => 2
  | .comr _ _ => 2
  | .coma _ _ => 3
  | .rrr _ => 1
  | .rrl _ => 1
  | .lpsu => 1
  | .lpsl => 1
  | .spsu => 1
  | .spsl => 1
  | .ppsu _ => 2
  | .ppsl _ => 2
  | .cpsu _ => 2
  | .cpsl _ => 2
  | .tpsu _ => 2
  | .tpsl _ => 2
  | .bctr _ _ => 2
  | .bcta _ _ => 3
  | .bcfr _ _ => 2
  | .bcfa _ _ => 3
  | .brnr _ _ => 2
  | .brna _ _ => 3
  | .birr _ _ => 2
  | .bira _ _ => 3
  | .bdrr _ _ => 2
  | .bdra _ _ => 3
  | .bxa _ => 3
  | .zbrr _ => 2
  | .bstr _ _ => 2
  | .bsta _ _ => 3
  | .bsfr _ _ => 2
  | .bsfa _ _ => 3
  | .bsnr _ _ => 2
  | .bsna _ _ => 3
  | .bsxa _ => 3
  | .zbsr _ => 2
  | .retc _ => 1
  | .rete _ => 1
  | .redd _ => 1
  | .redc _ => 1
  | .rede _ _ => 2
  | .wrtd _ => 1
  | .wrtc _ => 1
  | .wrte _ _ => 2
  | .halt => 1
  | .nop => 1
  | .tmi _ _ => 2

/-- The encoding has as many bytes as the instruction list says. -/
def Statement (i : Instr) : Prop := (encode i).length = bytes i

theorem lodz (r : Reg) : Statement (.lodz r) := rfl
theorem lodi (r : Reg) (v : Byte) : Statement (.lodi r v) := rfl
theorem lodr (r : Reg) (o : RelArg) : Statement (.lodr r o) := rfl
theorem loda (r : Reg) (o : AbsArg) : Statement (.loda r o) := rfl
theorem strz (r : Reg) : Statement (.strz r) := rfl
theorem strr (r : Reg) (o : RelArg) : Statement (.strr r o) := rfl
theorem stra (r : Reg) (o : AbsArg) : Statement (.stra r o) := rfl
theorem addz (r : Reg) : Statement (.addz r) := rfl
theorem addi (r : Reg) (v : Byte) : Statement (.addi r v) := rfl
theorem addr (r : Reg) (o : RelArg) : Statement (.addr r o) := rfl
theorem adda (r : Reg) (o : AbsArg) : Statement (.adda r o) := rfl
theorem subz (r : Reg) : Statement (.subz r) := rfl
theorem subi (r : Reg) (v : Byte) : Statement (.subi r v) := rfl
theorem subr (r : Reg) (o : RelArg) : Statement (.subr r o) := rfl
theorem suba (r : Reg) (o : AbsArg) : Statement (.suba r o) := rfl
theorem dar (r : Reg) : Statement (.dar r) := rfl
theorem andz (r : Reg) : Statement (.andz r) := rfl
theorem andi (r : Reg) (v : Byte) : Statement (.andi r v) := rfl
theorem andr (r : Reg) (o : RelArg) : Statement (.andr r o) := rfl
theorem anda (r : Reg) (o : AbsArg) : Statement (.anda r o) := rfl
theorem iorz (r : Reg) : Statement (.iorz r) := rfl
theorem iori (r : Reg) (v : Byte) : Statement (.iori r v) := rfl
theorem iorr (r : Reg) (o : RelArg) : Statement (.iorr r o) := rfl
theorem iora (r : Reg) (o : AbsArg) : Statement (.iora r o) := rfl
theorem eorz (r : Reg) : Statement (.eorz r) := rfl
theorem eori (r : Reg) (v : Byte) : Statement (.eori r v) := rfl
theorem eorr (r : Reg) (o : RelArg) : Statement (.eorr r o) := rfl
theorem eora (r : Reg) (o : AbsArg) : Statement (.eora r o) := rfl
theorem comz (r : Reg) : Statement (.comz r) := rfl
theorem comi (r : Reg) (v : Byte) : Statement (.comi r v) := rfl
theorem comr (r : Reg) (o : RelArg) : Statement (.comr r o) := rfl
theorem coma (r : Reg) (o : AbsArg) : Statement (.coma r o) := rfl
theorem rrr (r : Reg) : Statement (.rrr r) := rfl
theorem rrl (r : Reg) : Statement (.rrl r) := rfl
theorem lpsu : Statement (.lpsu) := rfl
theorem lpsl : Statement (.lpsl) := rfl
theorem spsu : Statement (.spsu) := rfl
theorem spsl : Statement (.spsl) := rfl
theorem ppsu (v : Byte) : Statement (.ppsu v) := rfl
theorem ppsl (v : Byte) : Statement (.ppsl v) := rfl
theorem cpsu (v : Byte) : Statement (.cpsu v) := rfl
theorem cpsl (v : Byte) : Statement (.cpsl v) := rfl
theorem tpsu (v : Byte) : Statement (.tpsu v) := rfl
theorem tpsl (v : Byte) : Statement (.tpsl v) := rfl
theorem bctr (c : Cond) (o : RelArg) : Statement (.bctr c o) := rfl
theorem bcta (c : Cond) (o : BraArg) : Statement (.bcta c o) := rfl
theorem bcfr (c : Cond) (o : RelArg) : Statement (.bcfr c o) := rfl
theorem bcfa (c : Cond) (o : BraArg) : Statement (.bcfa c o) := rfl
theorem brnr (r : Reg) (o : RelArg) : Statement (.brnr r o) := rfl
theorem brna (r : Reg) (o : BraArg) : Statement (.brna r o) := rfl
theorem birr (r : Reg) (o : RelArg) : Statement (.birr r o) := rfl
theorem bira (r : Reg) (o : BraArg) : Statement (.bira r o) := rfl
theorem bdrr (r : Reg) (o : RelArg) : Statement (.bdrr r o) := rfl
theorem bdra (r : Reg) (o : BraArg) : Statement (.bdra r o) := rfl
theorem bxa (o : BraArg) : Statement (.bxa o) := rfl
theorem zbrr (o : RelArg) : Statement (.zbrr o) := rfl
theorem bstr (c : Cond) (o : RelArg) : Statement (.bstr c o) := rfl
theorem bsta (c : Cond) (o : BraArg) : Statement (.bsta c o) := rfl
theorem bsfr (c : Cond) (o : RelArg) : Statement (.bsfr c o) := rfl
theorem bsfa (c : Cond) (o : BraArg) : Statement (.bsfa c o) := rfl
theorem bsnr (r : Reg) (o : RelArg) : Statement (.bsnr r o) := rfl
theorem bsna (r : Reg) (o : BraArg) : Statement (.bsna r o) := rfl
theorem bsxa (o : BraArg) : Statement (.bsxa o) := rfl
theorem zbsr (o : RelArg) : Statement (.zbsr o) := rfl
theorem retc (c : Cond) : Statement (.retc c) := rfl
theorem rete (c : Cond) : Statement (.rete c) := rfl
theorem redd (r : Reg) : Statement (.redd r) := rfl
theorem redc (r : Reg) : Statement (.redc r) := rfl
theorem rede (r : Reg) (v : Byte) : Statement (.rede r v) := rfl
theorem wrtd (r : Reg) : Statement (.wrtd r) := rfl
theorem wrtc (r : Reg) : Statement (.wrtc r) := rfl
theorem wrte (r : Reg) (v : Byte) : Statement (.wrte r v) := rfl
theorem halt : Statement (.halt) := rfl
theorem nop : Statement (.nop) := rfl
theorem tmi (r : Reg) (v : Byte) : Statement (.tmi r v) := rfl

end Sys2Proof.Laws.EncodedLength
end

