-- ==== Sys2Proof/Laws/Shapes.lean ====
section
/-! SUPPORT. What the shared operations that read an input, rotate, or write memory leave alone, and the fields they write. -/

namespace Sys2Proof.Machine

/-! ## Reads of inputs -/

@[simp] theorem busByte_regs (s : State) : (busByte s).2.regs = s.regs := by
  unfold busByte
  split <;> rfl
@[simp] theorem busByte_psl (s : State) : (busByte s).2.psl = s.psl := by
  unfold busByte
  split <;> rfl
@[simp] theorem busByte_psu (s : State) : (busByte s).2.psu = s.psu := by
  unfold busByte
  split <;> rfl
@[simp] theorem busByte_iar (s : State) : (busByte s).2.iar = s.iar := by
  unfold busByte
  split <;> rfl
@[simp] theorem busByte_ras (s : State) : (busByte s).2.ras = s.ras := by
  unfold busByte
  split <;> rfl
@[simp] theorem busByte_mode (s : State) : (busByte s).2.mode = s.mode := by
  unfold busByte
  split <;> rfl
@[simp] theorem busByte_mem (s : State) : (busByte s).2.mem = s.mem := by
  unfold busByte
  split <;> rfl
@[simp] theorem busByte_platform (s : State) : (busByte s).2.platform = s.platform := by
  unfold busByte
  split <;> rfl
@[simp] theorem busByte_pins (s : State) : (busByte s).2.pins = s.pins := by
  unfold busByte
  split <;> rfl
@[simp] theorem busByte_senseIn (s : State) : (busByte s).2.senseIn = s.senseIn := by
  unfold busByte
  split <;> rfl
@[simp] theorem sampleSense_regs (s : State) : (sampleSense s).2.regs = s.regs := by
  unfold sampleSense
  split <;> rfl
@[simp] theorem sampleSense_psl (s : State) : (sampleSense s).2.psl = s.psl := by
  unfold sampleSense
  split <;> rfl
@[simp] theorem sampleSense_psu (s : State) : (sampleSense s).2.psu = s.psu := by
  unfold sampleSense
  split <;> rfl
@[simp] theorem sampleSense_iar (s : State) : (sampleSense s).2.iar = s.iar := by
  unfold sampleSense
  split <;> rfl
@[simp] theorem sampleSense_ras (s : State) : (sampleSense s).2.ras = s.ras := by
  unfold sampleSense
  split <;> rfl
@[simp] theorem sampleSense_mode (s : State) : (sampleSense s).2.mode = s.mode := by
  unfold sampleSense
  split <;> rfl
@[simp] theorem sampleSense_mem (s : State) : (sampleSense s).2.mem = s.mem := by
  unfold sampleSense
  split <;> rfl
@[simp] theorem sampleSense_platform (s : State) : (sampleSense s).2.platform = s.platform := by
  unfold sampleSense
  split <;> rfl
@[simp] theorem sampleSense_pins (s : State) : (sampleSense s).2.pins = s.pins := by
  unfold sampleSense
  split <;> rfl
@[simp] theorem sampleSense_deviceIn (s : State) : (sampleSense s).2.deviceIn = s.deviceIn := by
  unfold sampleSense
  split <;> rfl
@[simp] theorem sampleSense_trace (s : State) : (sampleSense s).2.trace = s.trace := by
  unfold sampleSense
  split <;> rfl
@[simp] theorem ioRead_regs (p : Port) (s : State) : (ioRead p s).2.regs = s.regs := by
  simp [ioRead]
@[simp] theorem ioRead_psl (p : Port) (s : State) : (ioRead p s).2.psl = s.psl := by
  simp [ioRead]
@[simp] theorem ioRead_psu (p : Port) (s : State) : (ioRead p s).2.psu = s.psu := by
  simp [ioRead]
@[simp] theorem ioRead_iar (p : Port) (s : State) : (ioRead p s).2.iar = s.iar := by
  simp [ioRead]
@[simp] theorem ioRead_ras (p : Port) (s : State) : (ioRead p s).2.ras = s.ras := by
  simp [ioRead]
@[simp] theorem ioRead_mode (p : Port) (s : State) : (ioRead p s).2.mode = s.mode := by
  simp [ioRead]
@[simp] theorem ioRead_mem (p : Port) (s : State) : (ioRead p s).2.mem = s.mem := by
  simp [ioRead]
@[simp] theorem ioRead_platform (p : Port) (s : State) : (ioRead p s).2.platform = s.platform := by
  simp [ioRead]
@[simp] theorem ioRead_pins (p : Port) (s : State) : (ioRead p s).2.pins = s.pins := by
  simp [ioRead]
@[simp] theorem ioRead_senseIn (p : Port) (s : State) : (ioRead p s).2.senseIn = s.senseIn := by
  simp [ioRead]
@[simp] theorem intAckRead_regs (s : State) : (intAckRead s).2.regs = s.regs := by
  simp [intAckRead]
@[simp] theorem intAckRead_psl (s : State) : (intAckRead s).2.psl = s.psl := by
  simp [intAckRead]
@[simp] theorem intAckRead_psu (s : State) : (intAckRead s).2.psu = s.psu := by
  simp [intAckRead]
@[simp] theorem intAckRead_iar (s : State) : (intAckRead s).2.iar = s.iar := by
  simp [intAckRead]
@[simp] theorem intAckRead_ras (s : State) : (intAckRead s).2.ras = s.ras := by
  simp [intAckRead]
@[simp] theorem intAckRead_mode (s : State) : (intAckRead s).2.mode = s.mode := by
  simp [intAckRead]
@[simp] theorem intAckRead_mem (s : State) : (intAckRead s).2.mem = s.mem := by
  simp [intAckRead]
@[simp] theorem intAckRead_platform (s : State) : (intAckRead s).2.platform = s.platform := by
  simp [intAckRead]
@[simp] theorem intAckRead_pins (s : State) : (intAckRead s).2.pins = s.pins := by
  simp [intAckRead]
@[simp] theorem intAckRead_senseIn (s : State) : (intAckRead s).2.senseIn = s.senseIn := by
  simp [intAckRead]

/-! ## Rotate -/

@[simp] theorem rotateInto_psu (r : Reg) (v : Byte) (c : Bool) (s : State) : (rotateInto r v c s).psu = s.psu := by
  unfold rotateInto
  dsimp only
  split_ifs <;> rfl
@[simp] theorem rotateInto_iar (r : Reg) (v : Byte) (c : Bool) (s : State) : (rotateInto r v c s).iar = s.iar := by
  unfold rotateInto
  dsimp only
  split_ifs <;> rfl
@[simp] theorem rotateInto_ras (r : Reg) (v : Byte) (c : Bool) (s : State) : (rotateInto r v c s).ras = s.ras := by
  unfold rotateInto
  dsimp only
  split_ifs <;> rfl
@[simp] theorem rotateInto_mode (r : Reg) (v : Byte) (c : Bool) (s : State) : (rotateInto r v c s).mode = s.mode := by
  unfold rotateInto
  dsimp only
  split_ifs <;> rfl
@[simp] theorem rotateInto_mem (r : Reg) (v : Byte) (c : Bool) (s : State) : (rotateInto r v c s).mem = s.mem := by
  unfold rotateInto
  dsimp only
  split_ifs <;> rfl
@[simp] theorem rotateInto_platform (r : Reg) (v : Byte) (c : Bool) (s : State) : (rotateInto r v c s).platform = s.platform := by
  unfold rotateInto
  dsimp only
  split_ifs <;> rfl
@[simp] theorem rotateInto_pins (r : Reg) (v : Byte) (c : Bool) (s : State) : (rotateInto r v c s).pins = s.pins := by
  unfold rotateInto
  dsimp only
  split_ifs <;> rfl
@[simp] theorem rotateInto_senseIn (r : Reg) (v : Byte) (c : Bool) (s : State) : (rotateInto r v c s).senseIn = s.senseIn := by
  unfold rotateInto
  dsimp only
  split_ifs <;> rfl
@[simp] theorem rotateInto_deviceIn (r : Reg) (v : Byte) (c : Bool) (s : State) : (rotateInto r v c s).deviceIn = s.deviceIn := by
  unfold rotateInto
  dsimp only
  split_ifs <;> rfl
@[simp] theorem rotateInto_trace (r : Reg) (v : Byte) (c : Bool) (s : State) : (rotateInto r v c s).trace = s.trace := by
  unfold rotateInto
  dsimp only
  split_ifs <;> rfl
@[simp] theorem rotateInto_regs (r : Reg) (v : Byte) (c : Bool) (s : State) :
    (rotateInto r v c s).regs = regsWrite s.psl.rs r v s.regs := by
  unfold rotateInto
  dsimp only
  split_ifs <;> rfl
@[simp] theorem rotateInto_psl_rs (r : Reg) (v : Byte) (c : Bool) (s : State) : (rotateInto r v c s).psl.rs = s.psl.rs := by
  unfold rotateInto
  dsimp only
  split_ifs <;> rfl
@[simp] theorem rotateInto_psl_wc (r : Reg) (v : Byte) (c : Bool) (s : State) : (rotateInto r v c s).psl.wc = s.psl.wc := by
  unfold rotateInto
  dsimp only
  split_ifs <;> rfl
@[simp] theorem rotateInto_psl_com (r : Reg) (v : Byte) (c : Bool) (s : State) : (rotateInto r v c s).psl.com = s.psl.com := by
  unfold rotateInto
  dsimp only
  split_ifs <;> rfl
@[simp] theorem rotateInto_psl_cc (r : Reg) (v : Byte) (c : Bool) (s : State) : (rotateInto r v c s).psl.cc = signCC v := by
  unfold rotateInto
  dsimp only
  split_ifs <;> rfl

/-- A rotate with WC = 0 writes CC only. -/
theorem rotateInto_psl_noCarry (r : Reg) (v : Byte) (c : Bool) (s : State) (h : s.psl.wc = false) :
    (rotateInto r v c s).psl = { s.psl with cc := signCC v } := by
  simp [rotateInto, h]

/-- A rotate with WC = 1 writes C and IDC. -/
theorem rotateInto_psl_carry (r : Reg) (v : Byte) (c : Bool) (s : State) (h : s.psl.wc = true) :
    (rotateInto r v c s).psl.c = c ∧ (rotateInto r v c s).psl.idc = v.getLsbD 5 := by
  unfold rotateInto
  dsimp only
  split_ifs <;> exact ⟨rfl, rfl⟩

/-! ## Shapes that write a register or CC -/

@[simp] theorem arith_regs (f : Psl → Byte → Byte → AluOut) (r : Reg) (y : Byte) (s : State) :
    (arith f r y s).regs = regsWrite s.psl.rs r (f s.psl (readReg r s) y).value s.regs := rfl

@[simp] theorem arith_psl (f : Psl → Byte → Byte → AluOut) (r : Reg) (y : Byte) (s : State) :
    (arith f r y s).psl = pslAfterAlu s.psl (f s.psl (readReg r s) y) := rfl

@[simp] theorem pslAfterAlu_rs (p : Psl) (a : AluOut) : (pslAfterAlu p a).rs = p.rs := rfl
@[simp] theorem pslAfterAlu_wc (p : Psl) (a : AluOut) : (pslAfterAlu p a).wc = p.wc := rfl
@[simp] theorem pslAfterAlu_com (p : Psl) (a : AluOut) : (pslAfterAlu p a).com = p.com := rfl
@[simp] theorem pslAfterAlu_cc (p : Psl) (a : AluOut) : (pslAfterAlu p a).cc = signCC a.value := rfl

@[simp] theorem logic_regs (f : Byte → Byte → Byte) (r : Reg) (y : Byte) (s : State) :
    (logic f r y s).regs = regsWrite s.psl.rs r (f (readReg r s) y) s.regs := rfl

@[simp] theorem logic_psl (f : Byte → Byte → Byte) (r : Reg) (y : Byte) (s : State) :
    (logic f r y s).psl = { s.psl with cc := signCC (f (readReg r s) y) } := rfl

@[simp] theorem comparing_psl (r : Reg) (y : Byte) (s : State) :
    (comparing r y s).psl = { s.psl with cc := compareCC s.psl.com (readReg r s) y } := rfl

@[simp] theorem readPort_psu (p : Port) (r : Reg) (s : State) : (readPort p r s).psu = s.psu := by
  simp [readPort]
@[simp] theorem readPort_iar (p : Port) (r : Reg) (s : State) : (readPort p r s).iar = s.iar := by
  simp [readPort]
@[simp] theorem readPort_ras (p : Port) (r : Reg) (s : State) : (readPort p r s).ras = s.ras := by
  simp [readPort]
@[simp] theorem readPort_mode (p : Port) (r : Reg) (s : State) : (readPort p r s).mode = s.mode := by
  simp [readPort]
@[simp] theorem readPort_mem (p : Port) (r : Reg) (s : State) : (readPort p r s).mem = s.mem := by
  simp [readPort]
@[simp] theorem readPort_platform (p : Port) (r : Reg) (s : State) : (readPort p r s).platform = s.platform := by
  simp [readPort]
@[simp] theorem readPort_pins (p : Port) (r : Reg) (s : State) : (readPort p r s).pins = s.pins := by
  simp [readPort]
@[simp] theorem readPort_senseIn (p : Port) (r : Reg) (s : State) : (readPort p r s).senseIn = s.senseIn := by
  simp [readPort]
@[simp] theorem readPort_regs (p : Port) (r : Reg) (s : State) :
    (readPort p r s).regs = regsWrite s.psl.rs r (ioRead p s).1 s.regs := by
  simp [readPort]
@[simp] theorem readPort_psl (p : Port) (r : Reg) (s : State) :
    (readPort p r s).psl = { s.psl with cc := signCC (ioRead p s).1 } := by
  simp [readPort]

/-! ## Memory writes -/

/-- A write changes memory and the trace only. -/
theorem memWrite_only {a : Addr} {v : Byte} {s t : State} (h : memWrite a v s = .ok t) :
    t = { s with mem := t.mem, trace := t.trace } := by
  unfold memWrite at h
  split at h <;> cases h <;> rfl

/-! ## Condition codes -/

theorem signCC_ne_three (b : Byte) : signCC b ≠ 3 := by
  unfold signCC
  split_ifs <;> decide

theorem compareCC_ne_three (com : Bool) (x y : Byte) : compareCC com x y ≠ 3 := by
  unfold compareCC
  dsimp only
  split_ifs <;> decide

theorem testCC_ne_three (s m : Byte) : testCC s m ≠ 3 := by
  unfold testCC
  split_ifs <;> decide

end Sys2Proof.Machine
end

