-- ==== Sys2Proof/Tests/Slice0.lean ====
section
/-! SUPPORT. Tests of the model: the well-formedness smoke, a word written out from the spec's encoding for every
constructor, single steps with the expected results of 95_test_vectors, and a witness for every obligation that has
hypotheses. -/

namespace Sys2Proof.Tests

open Sys2Proof Sys2Proof.Machine

/-! ## Well-formedness: each check refuses an ill-formed term -/

theorem smoke_lodz_r0_refused : (Instr.lodz .r0).wf = false := by decide
theorem smoke_strz_r0_refused : (Instr.strz .r0).wf = false := by decide
theorem smoke_andz_r0_refused : (Instr.andz .r0).wf = false := by decide
theorem smoke_bcfr_always_refused : (Instr.bcfr 3 ⟨false, 0⟩).wf = false := by decide
theorem smoke_bcfa_always_refused : (Instr.bcfa 3 ⟨false, 0⟩).wf = false := by decide
theorem smoke_bsfr_always_refused : (Instr.bsfr 3 ⟨false, 0⟩).wf = false := by decide
theorem smoke_bsfa_always_refused : (Instr.bsfa 3 ⟨false, 0⟩).wf = false := by decide

/-! ## Decoding: words written out from 30_encoding R72 to R85, bits of byte 0 as function, class, register -/

theorem test_decode_load_store :
    decode [0b00000001] = .ok (.lodz .r1, []) ∧
    decode [0b00000101, 0xFF] = .ok (.lodi .r1 0xFF, []) ∧
    decode [0b00001010, 0b00001110] = .ok (.lodr .r2 ⟨false, 14⟩, []) ∧
    decode [0b00001111, 0b11100001, 0x00] = .ok (.loda .r3 ⟨true, .indexed, 0x100⟩, []) ∧
    decode [0b11000010] = .ok (.strz .r2, []) ∧
    decode [0b11001000, 0b10000000] = .ok (.strr .r0 ⟨true, 0⟩, []) ∧
    decode [0b11001101, 0b01011111, 0xFF] = .ok (.stra .r1 ⟨false, .autoDec, 0x1FFF⟩, []) :=
  ⟨rfl, rfl, rfl, rfl, rfl, rfl, rfl⟩

theorem test_decode_arithmetic :
    decode [0b10000010] = .ok (.addz .r2, []) ∧
    decode [0b10000100, 0x01] = .ok (.addi .r0 1, []) ∧
    decode [0b10001001, 0b00000000] = .ok (.addr .r1 ⟨false, 0⟩, []) ∧
    decode [0b10001101, 0b00100001, 0x00] = .ok (.adda .r1 ⟨false, .autoInc, 0x100⟩, []) ∧
    decode [0b10100001] = .ok (.subz .r1, []) ∧
    decode [0b10100110, 0x03] = .ok (.subi .r2 3, []) ∧
    decode [0b10101011, 0b01111111] = .ok (.subr .r3 ⟨false, -1⟩, []) ∧
    decode [0b10101110, 0b01100001, 0x03] = .ok (.suba .r2 ⟨false, .indexed, 0x103⟩, []) ∧
    decode [0b10010111] = .ok (.dar .r3, []) :=
  ⟨rfl, rfl, rfl, rfl, rfl, rfl, rfl, rfl, rfl⟩

theorem test_decode_logical :
    decode [0b01000011] = .ok (.andz .r3, []) ∧
    decode [0b01000110, 0x0F] = .ok (.andi .r2 0x0F, []) ∧
    decode [0b01001001, 0b00111111] = .ok (.andr .r1 ⟨false, 63⟩, []) ∧
    decode [0b01001111, 0b10000001, 0x00] = .ok (.anda .r3 ⟨true, .none, 0x100⟩, []) ∧
    decode [0b01100000] = .ok (.iorz .r0, []) ∧
    decode [0b01100101, 0x80] = .ok (.iori .r1 0x80, []) ∧
    decode [0b01101000, 0b01111100] = .ok (.iorr .r0 ⟨false, -4⟩, []) ∧
    decode [0b01101110, 0b00000001, 0x00] = .ok (.iora .r2 ⟨false, .none, 0x100⟩, []) ∧
    decode [0b00100011] = .ok (.eorz .r3, []) ∧
    decode [0b00100101, 0xFF] = .ok (.eori .r1 0xFF, []) ∧
    decode [0b00101010, 0b11000000] = .ok (.eorr .r2 ⟨true, -64⟩, []) ∧
    decode [0b00101111, 0b01000001, 0x00] = .ok (.eora .r3 ⟨false, .autoDec, 0x100⟩, []) :=
  ⟨rfl, rfl, rfl, rfl, rfl, rfl, rfl, rfl, rfl, rfl, rfl, rfl⟩

theorem test_decode_compare_rotate :
    decode [0b11100001] = .ok (.comz .r1, []) ∧
    decode [0b11100100, 0xFF] = .ok (.comi .r0 0xFF, []) ∧
    decode [0b11101010, 0b00000000] = .ok (.comr .r2 ⟨false, 0⟩, []) ∧
    decode [0b11101101, 0b00100001, 0x00] = .ok (.coma .r1 ⟨false, .autoInc, 0x100⟩, []) ∧
    decode [0b01010001] = .ok (.rrr .r1, []) ∧
    decode [0b11010010] = .ok (.rrl .r2, []) :=
  ⟨rfl, rfl, rfl, rfl, rfl, rfl⟩

theorem test_decode_status :
    decode [0b10010010] = .ok (.lpsu, []) ∧
    decode [0b10010011] = .ok (.lpsl, []) ∧
    decode [0b00010010] = .ok (.spsu, []) ∧
    decode [0b00010011] = .ok (.spsl, []) ∧
    decode [0b01110110, 0x40] = .ok (.ppsu 0x40, []) ∧
    decode [0b01110111, 0x18] = .ok (.ppsl 0x18, []) ∧
    decode [0b01110100, 0x20] = .ok (.cpsu 0x20, []) ∧
    decode [0b01110101, 0x08] = .ok (.cpsl 0x08, []) ∧
    decode [0b10110100, 0x80] = .ok (.tpsu 0x80, []) ∧
    decode [0b10110101, 0x01] = .ok (.tpsl 0x01, []) :=
  ⟨rfl, rfl, rfl, rfl, rfl, rfl, rfl, rfl, rfl, rfl⟩

theorem test_decode_branch :
    decode [0b00011010, 0b00010000] = .ok (.bctr 2 ⟨false, 16⟩, []) ∧
    decode [0b00011111, 0b00100011, 0x45] = .ok (.bcta 3 ⟨false, 0x2345⟩, []) ∧
    decode [0b10011000, 0b00000101] = .ok (.bcfr 0 ⟨false, 5⟩, []) ∧
    decode [0b10011101, 0b01000000, 0x00] = .ok (.bcfa 1 ⟨false, 0x4000⟩, []) ∧
    decode [0b01011001, 0b01111100] = .ok (.brnr .r1 ⟨false, -4⟩, []) ∧
    decode [0b01011100, 0b01100000, 0x00] = .ok (.brna .r0 ⟨false, 0x6000⟩, []) ∧
    decode [0b11011011, 0b01111001] = .ok (.birr .r3 ⟨false, -7⟩, []) ∧
    decode [0b11011110, 0b00000011, 0x00] = .ok (.bira .r2 ⟨false, 0x300⟩, []) ∧
    decode [0b11111001, 0b01111100] = .ok (.bdrr .r1 ⟨false, -4⟩, []) ∧
    decode [0b11111111, 0b10000010, 0x00] = .ok (.bdra .r3 ⟨true, 0x200⟩, []) ∧
    decode [0b10011111, 0b10000010, 0x00] = .ok (.bxa ⟨true, 0x200⟩, []) ∧
    decode [0b10011011, 0b01111000] = .ok (.zbrr ⟨false, -8⟩, []) :=
  ⟨rfl, rfl, rfl, rfl, rfl, rfl, rfl, rfl, rfl, rfl, rfl, rfl⟩

theorem test_decode_subroutine :
    decode [0b00111011, 0b00010000] = .ok (.bstr 3 ⟨false, 16⟩, []) ∧
    decode [0b00111110, 0b10000010, 0x00] = .ok (.bsta 2 ⟨true, 0x200⟩, []) ∧
    decode [0b10111001, 0b01111110] = .ok (.bsfr 1 ⟨false, -2⟩, []) ∧
    decode [0b10111100, 0b00000011, 0x00] = .ok (.bsfa 0 ⟨false, 0x300⟩, []) ∧
    decode [0b01111001, 0b00000010] = .ok (.bsnr .r1 ⟨false, 2⟩, []) ∧
    decode [0b01111110, 0b00000011, 0x00] = .ok (.bsna .r2 ⟨false, 0x300⟩, []) ∧
    decode [0b10111111, 0b00000011, 0x00] = .ok (.bsxa ⟨false, 0x300⟩, []) ∧
    decode [0b10111011, 0b10011111] = .ok (.zbsr ⟨true, 31⟩, []) ∧
    decode [0b00010100] = .ok (.retc 0, []) ∧
    decode [0b00110101] = .ok (.rete 1, []) :=
  ⟨rfl, rfl, rfl, rfl, rfl, rfl, rfl, rfl, rfl, rfl⟩

theorem test_decode_io_misc :
    decode [0b01110000] = .ok (.redd .r0, []) ∧
    decode [0b00110001] = .ok (.redc .r1, []) ∧
    decode [0b01010110, 0x7F] = .ok (.rede .r2 0x7F, []) ∧
    decode [0b11110010] = .ok (.wrtd .r2, []) ∧
    decode [0b10110000] = .ok (.wrtc .r0, []) ∧
    decode [0b11010111, 0x10] = .ok (.wrte .r3 0x10, []) ∧
    decode [0b01000000] = .ok (.halt, []) ∧
    decode [0b11000000] = .ok (.nop, []) ∧
    decode [0b11110110, 0xC3] = .ok (.tmi .r2 0xC3, []) :=
  ⟨rfl, rfl, rfl, rfl, rfl, rfl, rfl, rfl, rfl⟩

/-- What does not decode: the indeterminate code and an undefined one (30_encoding R86). -/
theorem test_decode_refused :
    decode [0x00, 0x00, 0x00] = .error .indeterminate ∧ decode [0xC4, 0x00] = .error (.undefined 0xC4) := ⟨rfl, rfl⟩

/-! ## Single steps, with the results 95_test_vectors lists -/

/-- The state after RESET, with both pins at rest at the boundary to come. -/
def start0 : State := { State.reset with pins := [quietPins] }

/-- A state with a PSL and registers R0 and R1 to R3 of the bank it selects; the other bank holds 0xEE. -/
def start (psl : Byte) (a b c d : Byte) : State :=
  { start0 with
    psl := pslOfByte psl
    regs :=
      { r0 := a
        bank0 := if psl.getLsbD 4 then ⟨0xEE, 0xEE, 0xEE⟩ else ⟨b, c, d⟩
        bank1 := if psl.getLsbD 4 then ⟨b, c, d⟩ else ⟨0xEE, 0xEE, 0xEE⟩ } }

/-- `s` with bytes stored. -/
def withBytes (l : List (Nat × Byte)) (s : State) : State :=
  l.foldl (fun s x => s.setMem (Memory.write s.mem x.1 x.2)) s

/-- The bytes of an instruction at `a` and after it in its page. -/
def code (a : Addr) : List Byte → List (Nat × Byte)
  | [] => []
  | b :: bs => (a.toNat, b) :: code (nextAddr a) bs

/-- What `f` sees after one step at `a` on these instruction bytes and this memory, if the step completes. -/
def ran {α : Type} (f : State → α) (a : Addr) (bs : List Byte) (m : List (Nat × Byte)) (s : State) : Option α :=
  match step ((withBytes (code a bs ++ m) s).setIar a) with
  | .next t => some (f t)
  | _ => none

/-- All seven registers (R0, bank 0, bank 1), the PSL byte and the IAR. -/
def shown (t : State) : List Byte × Byte × Addr :=
  ([t.regs.r0, t.regs.bank0.r1, t.regs.bank0.r2, t.regs.bank0.r3, t.regs.bank1.r1, t.regs.bank1.r2, t.regs.bank1.r3],
    pslByte t.psl, t.iar)

/-! ### Load and store (95_test_vectors B.1) -/

/-- Vector L1. -/
theorem test_lodz_L1 :
    ran (fun t => shown t)
      0x0100 [0x01] [] (start 0x00 0x00 0x80 0x00 0x00) =
    some ([0x80, 0x80, 0x00, 0x00, 0xEE, 0xEE, 0xEE], 0x80, 0x0101) := by
  decide

/-- Vector L2. -/
theorem test_lodz_L2 :
    ran (fun t => shown t)
      0x0100 [0x03] [] (start 0x10 0x00 0x00 0x00 0x00) =
    some ([0x00, 0xEE, 0xEE, 0xEE, 0x00, 0x00, 0x00], 0x10, 0x0101) := by
  decide

/-- Vector L5. -/
theorem test_lodi_L5 :
    ran (fun t => shown t)
      0x0100 [0x05, 0xFF] [] (start 0x00 0x00 0x00 0x00 0x00) =
    some ([0x00, 0xFF, 0x00, 0x00, 0xEE, 0xEE, 0xEE], 0x80, 0x0102) := by
  decide

/-- Vector L6. -/
theorem test_lodi_L6 :
    ran (fun t => shown t)
      0x1FFF [0x04, 0x55] [] (start 0x00 0x00 0x00 0x00 0x00) =
    some ([0x55, 0x00, 0x00, 0x00, 0xEE, 0xEE, 0xEE], 0x40, 0x0001) := by
  decide

/-- Vector L7. -/
theorem test_lodr_L7 :
    ran (fun t => shown t)
      0x1FFC [0x0A, 0x0E] [(0x000C, 0x5A)] (start 0x00 0x00 0x00 0x00 0x00) =
    some ([0x00, 0x00, 0x5A, 0x00, 0xEE, 0xEE, 0xEE], 0x40, 0x1FFE) := by
  decide

/-- Vector L10. -/
theorem test_lodr_L10 :
    ran (fun t => shown t)
      0x0010 [0x0A, 0x85] [(0x0017, 0x81), (0x0018, 0x28), (0x0128, 0x67)] (start 0x00 0x00 0x00 0x00 0x00) =
    some ([0x00, 0x00, 0x67, 0x00, 0xEE, 0xEE, 0xEE], 0x40, 0x0012) := by
  decide

/-- Vector L13. -/
theorem test_loda_L13 :
    ran (fun t => shown t)
      0x0010 [0x0F, 0x21, 0x00] [(0x0100, 0x9C)] (start 0x00 0x00 0x00 0x00 0xFF) =
    some ([0x9C, 0x00, 0x00, 0x00, 0xEE, 0xEE, 0xEE], 0x80, 0x0013) := by
  decide

/-- Vector L16. -/
theorem test_loda_L16 :
    ran (fun t => shown t)
      0x0010 [0x0F, 0xE1, 0x00] [(0x0100, 0x21), (0x0101, 0xFE), (0x2200, 0x33)] (start 0x00 0x00 0x00 0x00 0x02) =
    some ([0x33, 0x00, 0x00, 0x02, 0xEE, 0xEE, 0xEE], 0x40, 0x0013) := by
  decide

/-- Vector L20. -/
theorem test_strz_L20 :
    ran (fun t => shown t)
      0x0100 [0xC2] [] (start 0x00 0x00 0x00 0x00 0x00) =
    some ([0x00, 0x00, 0x00, 0x00, 0xEE, 0xEE, 0xEE], 0x00, 0x0101) := by
  decide

/-- Vector L21. -/
theorem test_strz_L21 :
    ran (fun t => shown t)
      0x0100 [0xC1] [] (start 0x10 0x81 0x00 0x00 0x00) =
    some ([0x81, 0xEE, 0xEE, 0xEE, 0x81, 0x00, 0x00], 0x90, 0x0101) := by
  decide

/-- Vector L22. -/
theorem test_strr_L22 :
    ran (fun t => (shown t, peek t 0x0204))
      0x0200 [0xC9, 0x02] [(0x0204, 0x00)] (start 0xC0 0x00 0xAB 0x00 0x00) =
    some (([0x00, 0xAB, 0x00, 0x00, 0xEE, 0xEE, 0xEE], 0xC0, 0x0202), 0xAB) := by
  decide

/-- Vector L23. -/
theorem test_strr_L23 :
    ran (fun t => (shown t, peek t 0x4100))
      0x0200 [0xC8, 0x80] [(0x0202, 0x41), (0x0203, 0x00), (0x4100, 0xFF)] (start 0x40 0x5A 0x00 0x00 0x00) =
    some (([0x5A, 0x00, 0x00, 0x00, 0xEE, 0xEE, 0xEE], 0x40, 0x0202), 0x5A) := by
  decide

/-- Vector L25. -/
theorem test_stra_L25 :
    ran (fun t => (shown t, peek t 0x1FFF))
      0x0010 [0xCD, 0x5F, 0xFF] [(0x1FFF, 0x00)] (start 0x00 0x99 0x01 0x00 0x00) =
    some (([0x99, 0x00, 0x00, 0x00, 0xEE, 0xEE, 0xEE], 0x00, 0x0013), 0x99) := by
  decide

/-- Vector L26. -/
theorem test_stra_L26 :
    ran (fun t => (shown t, peek t 0x0105))
      0x0010 [0xCC, 0x61, 0x00] [(0x0105, 0x00)] (start 0x00 0x05 0x00 0x00 0x00) =
    some (([0x05, 0x00, 0x00, 0x00, 0xEE, 0xEE, 0xEE], 0x00, 0x0013), 0x05) := by
  decide


/-! ### Arithmetic -/

/-- Vector A1. -/
theorem test_addz_A1 :
    ran (fun t => shown t)
      0x0100 [0x82] [] (start 0x00 0x70 0x00 0x20 0x00) =
    some ([0x90, 0x00, 0x20, 0x00, 0xEE, 0xEE, 0xEE], 0x84, 0x0101) := by
  decide

/-- Vector A2. -/
theorem test_addz_A2 :
    ran (fun t => shown t)
      0x0100 [0x80] [] (start 0x00 0x81 0x00 0x00 0x00) =
    some ([0x02, 0x00, 0x00, 0x00, 0xEE, 0xEE, 0xEE], 0x45, 0x0101) := by
  decide

/-- Vector A4. -/
theorem test_addi_A4 :
    ran (fun t => shown t)
      0x0100 [0x85, 0x01] [] (start 0x09 0x00 0x01 0x00 0x00) =
    some ([0x00, 0x03, 0x00, 0x00, 0xEE, 0xEE, 0xEE], 0x48, 0x0102) := by
  decide

/-- Vector A5. -/
theorem test_addi_A5 :
    ran (fun t => shown t)
      0x0100 [0x85, 0xFF] [] (start 0x09 0x00 0xFF 0x00 0x00) =
    some ([0x00, 0xFF, 0x00, 0x00, 0xEE, 0xEE, 0xEE], 0xA9, 0x0102) := by
  decide

/-- Vector A6. -/
theorem test_addr_A6 :
    ran (fun t => shown t)
      0x0200 [0x89, 0x00] [(0x0202, 0x05)] (start 0x00 0x00 0x0B 0x00 0x00) =
    some ([0x00, 0x10, 0x00, 0x00, 0xEE, 0xEE, 0xEE], 0x60, 0x0202) := by
  decide

/-- Vector A7. -/
theorem test_adda_A7 :
    ran (fun t => shown t)
      0x0010 [0x8E, 0x01, 0x00] [(0x0100, 0x01)] (start 0x00 0x00 0x00 0x7F 0x00) =
    some ([0x00, 0x00, 0x80, 0x00, 0xEE, 0xEE, 0xEE], 0xA4, 0x0013) := by
  decide

/-- Vector A8. -/
theorem test_adda_A8 :
    ran (fun t => shown t)
      0x0010 [0x8D, 0x21, 0x00] [(0x0101, 0x80)] (start 0x00 0x80 0x00 0x00 0x00) =
    some ([0x00, 0x01, 0x00, 0x00, 0xEE, 0xEE, 0xEE], 0x05, 0x0013) := by
  decide

/-- Vector A9. -/
theorem test_subz_A9 :
    ran (fun t => shown t)
      0x0100 [0xA0] [] (start 0x00 0x37 0x00 0x00 0x00) =
    some ([0x00, 0x00, 0x00, 0x00, 0xEE, 0xEE, 0xEE], 0x21, 0x0101) := by
  decide

/-- Vector A10. -/
theorem test_subz_A10 :
    ran (fun t => shown t)
      0x0100 [0xA0] [] (start 0x08 0x37 0x00 0x00 0x00) =
    some ([0xFF, 0x00, 0x00, 0x00, 0xEE, 0xEE, 0xEE], 0x88, 0x0101) := by
  decide

/-- Vector A13. -/
theorem test_subi_A13 :
    ran (fun t => shown t)
      0x0100 [0xA6, 0x01] [] (start 0x00 0x00 0x00 0x80 0x00) =
    some ([0x00, 0x00, 0x7F, 0x00, 0xEE, 0xEE, 0xEE], 0x45, 0x0102) := by
  decide

/-- Vector A14. -/
theorem test_subi_A14 :
    ran (fun t => shown t)
      0x0100 [0xA6, 0x03] [] (start 0x08 0x00 0x00 0x05 0x00) =
    some ([0x00, 0x00, 0x01, 0x00, 0xEE, 0xEE, 0xEE], 0x69, 0x0102) := by
  decide

/-- Vector A15. -/
theorem test_subr_A15 :
    ran (fun t => shown t)
      0x0200 [0xAB, 0x00] [(0x0202, 0x80)] (start 0x00 0x00 0x00 0x00 0x00) =
    some ([0x00, 0x00, 0x00, 0x80, 0xEE, 0xEE, 0xEE], 0xA4, 0x0202) := by
  decide

/-- Vector A16. -/
theorem test_suba_A16 :
    ran (fun t => shown t)
      0x0010 [0xAE, 0x61, 0x00] [(0x0103, 0x01)] (start 0x00 0x10 0x00 0x03 0x00) =
    some ([0x0F, 0x00, 0x03, 0x00, 0xEE, 0xEE, 0xEE], 0x41, 0x0013) := by
  decide

/-- Vector A18. -/
theorem test_dar_A18 :
    ran (fun t => shown t)
      0x0100 [0x94] [] (start 0x01 0x2E 0x00 0x00 0x00) =
    some ([0x28, 0x00, 0x00, 0x00, 0xEE, 0xEE, 0xEE], 0x41, 0x0101) := by
  decide

/-- Vector A21. -/
theorem test_dar_A21 :
    ran (fun t => shown t)
      0x0100 [0x97] [] (start 0x01 0x00 0x00 0x00 0x0F) =
    some ([0x00, 0x00, 0x00, 0x09, 0xEE, 0xEE, 0xEE], 0x41, 0x0101) := by
  decide


/-! ### Logical -/

/-- Vector G1. -/
theorem test_andz_G1 :
    ran (fun t => shown t)
      0x0100 [0x41] [] (start 0x25 0xF0 0x3C 0x00 0x00) =
    some ([0x30, 0x3C, 0x00, 0x00, 0xEE, 0xEE, 0xEE], 0x65, 0x0101) := by
  decide

/-- Vector G2. -/
theorem test_andi_G2 :
    ran (fun t => shown t)
      0x0100 [0x46, 0x0F] [] (start 0x00 0x00 0x00 0xF0 0x00) =
    some ([0x00, 0x00, 0x00, 0x00, 0xEE, 0xEE, 0xEE], 0x00, 0x0102) := by
  decide

/-- Vector G3. -/
theorem test_andr_G3 :
    ran (fun t => shown t)
      0x0200 [0x49, 0x00] [(0x0202, 0x80)] (start 0x00 0x00 0xFF 0x00 0x00) =
    some ([0x00, 0x80, 0x00, 0x00, 0xEE, 0xEE, 0xEE], 0x80, 0x0202) := by
  decide

/-- Vector G4. -/
theorem test_anda_G4 :
    ran (fun t => shown t)
      0x0010 [0x4F, 0x81, 0x00] [(0x0100, 0x02), (0x0101, 0x00), (0x0200, 0x0F)] (start 0x00 0x00 0x00 0x00 0x55) =
    some ([0x00, 0x00, 0x00, 0x05, 0xEE, 0xEE, 0xEE], 0x40, 0x0013) := by
  decide

/-- Vector G5. -/
theorem test_anda_G5 :
    ran (fun t => shown t)
      0x0010 [0x4D, 0x61, 0x00] [(0x0101, 0x7E)] (start 0x00 0xFF 0x01 0x00 0x00) =
    some ([0x7E, 0x01, 0x00, 0x00, 0xEE, 0xEE, 0xEE], 0x40, 0x0013) := by
  decide

/-- Vector G7. -/
theorem test_iorz_G7 :
    ran (fun t => shown t)
      0x0100 [0x62] [] (start 0x00 0x01 0x00 0x80 0x00) =
    some ([0x81, 0x00, 0x80, 0x00, 0xEE, 0xEE, 0xEE], 0x80, 0x0101) := by
  decide

/-- Vector G8. -/
theorem test_iori_G8 :
    ran (fun t => shown t)
      0x0100 [0x65, 0x80] [] (start 0x00 0x00 0x01 0x00 0x00) =
    some ([0x00, 0x81, 0x00, 0x00, 0xEE, 0xEE, 0xEE], 0x80, 0x0102) := by
  decide

/-- Vector G9. -/
theorem test_iorr_G9 :
    ran (fun t => shown t)
      0x0200 [0x68, 0x7C] [(0x01FE, 0x30)] (start 0x00 0x0F 0x00 0x00 0x00) =
    some ([0x3F, 0x00, 0x00, 0x00, 0xEE, 0xEE, 0xEE], 0x40, 0x0202) := by
  decide

/-- Vector G10. -/
theorem test_iora_G10 :
    ran (fun t => shown t)
      0x0010 [0x6E, 0x01, 0x00] [(0x0100, 0x00)] (start 0x00 0x00 0x00 0x00 0x00) =
    some ([0x00, 0x00, 0x00, 0x00, 0xEE, 0xEE, 0xEE], 0x00, 0x0013) := by
  decide

/-- Vector G11. -/
theorem test_eorz_G11 :
    ran (fun t => shown t)
      0x0100 [0x20] [] (start 0xFF 0xA7 0x00 0x00 0x00) =
    some ([0x00, 0xEE, 0xEE, 0xEE, 0x00, 0x00, 0x00], 0x3F, 0x0101) := by
  decide

/-- Vector G12. -/
theorem test_eorz_G12 :
    ran (fun t => shown t)
      0x0100 [0x23] [] (start 0x00 0xFF 0x00 0x00 0x0F) =
    some ([0xF0, 0x00, 0x00, 0x0F, 0xEE, 0xEE, 0xEE], 0x80, 0x0101) := by
  decide

/-- Vector G13. -/
theorem test_eori_G13 :
    ran (fun t => shown t)
      0x0100 [0x25, 0xFF] [] (start 0x00 0x00 0x55 0x00 0x00) =
    some ([0x00, 0xAA, 0x00, 0x00, 0xEE, 0xEE, 0xEE], 0x80, 0x0102) := by
  decide

/-- Vector G14. -/
theorem test_eorr_G14 :
    ran (fun t => shown t)
      0x0200 [0x2A, 0x00] [(0x0202, 0x81)] (start 0x00 0x00 0x00 0x81 0x00) =
    some ([0x00, 0x00, 0x00, 0x00, 0xEE, 0xEE, 0xEE], 0x00, 0x0202) := by
  decide

/-- Vector G15. -/
theorem test_eora_G15 :
    ran (fun t => shown t)
      0x0010 [0x2F, 0x41, 0x00] [(0x0100, 0xF0)] (start 0x00 0x0F 0x00 0x00 0x01) =
    some ([0xFF, 0x00, 0x00, 0x00, 0xEE, 0xEE, 0xEE], 0x80, 0x0013) := by
  decide


/-! ### Compare and rotate -/

/-- Vector K1. -/
theorem test_comz_K1 :
    ran (fun t => shown t)
      0x0100 [0xE1] [] (start 0x00 0x80 0x01 0x00 0x00) =
    some ([0x80, 0x01, 0x00, 0x00, 0xEE, 0xEE, 0xEE], 0x80, 0x0101) := by
  decide

/-- Vector K2. -/
theorem test_comz_K2 :
    ran (fun t => shown t)
      0x0100 [0xE1] [] (start 0x02 0x80 0x01 0x00 0x00) =
    some ([0x80, 0x01, 0x00, 0x00, 0xEE, 0xEE, 0xEE], 0x42, 0x0101) := by
  decide

/-- Vector K5. -/
theorem test_comi_K5 :
    ran (fun t => shown t)
      0x0100 [0xE4, 0xFF] [] (start 0x02 0x00 0x00 0x00 0x00) =
    some ([0x00, 0x00, 0x00, 0x00, 0xEE, 0xEE, 0xEE], 0x82, 0x0102) := by
  decide

/-- Vector K6. -/
theorem test_comi_K6 :
    ran (fun t => shown t)
      0x0100 [0xE5, 0x80] [] (start 0x0D 0x00 0x7F 0x00 0x00) =
    some ([0x00, 0x7F, 0x00, 0x00, 0xEE, 0xEE, 0xEE], 0x4D, 0x0102) := by
  decide

/-- Vector K7. -/
theorem test_comr_K7 :
    ran (fun t => shown t)
      0x0050 [0xEA, 0x00] [(0x0052, 0x30)] (start 0x00 0x00 0x00 0x2F 0x00) =
    some ([0x00, 0x00, 0x2F, 0x00, 0xEE, 0xEE, 0xEE], 0x80, 0x0052) := by
  decide

/-- Vector K8. -/
theorem test_coma_K8 :
    ran (fun t => shown t)
      0x0010 [0xED, 0x21, 0x00] [(0x0100, 0x41)] (start 0x00 0x41 0xFF 0x00 0x00) =
    some ([0x41, 0x00, 0x00, 0x00, 0xEE, 0xEE, 0xEE], 0x00, 0x0013) := by
  decide

/-- Vector K10. -/
theorem test_rrr_K10 :
    ran (fun t => shown t)
      0x0100 [0x51] [] (start 0x0C 0x00 0x01 0x00 0x00) =
    some ([0x00, 0x00, 0x00, 0x00, 0xEE, 0xEE, 0xEE], 0x09, 0x0101) := by
  decide

/-- Vector K11. -/
theorem test_rrr_K11 :
    ran (fun t => shown t)
      0x0100 [0x50] [] (start 0x09 0x40 0x00 0x00 0x00) =
    some ([0xA0, 0x00, 0x00, 0x00, 0xEE, 0xEE, 0xEE], 0xAC, 0x0101) := by
  decide

/-- Vector K12. -/
theorem test_rrl_K12 :
    ran (fun t => shown t)
      0x0100 [0xD1] [] (start 0x25 0x00 0x81 0x00 0x00) =
    some ([0x00, 0x03, 0x00, 0x00, 0xEE, 0xEE, 0xEE], 0x65, 0x0101) := by
  decide

/-- Vector K15. -/
theorem test_rrl_K15 :
    ran (fun t => shown t)
      0x0100 [0xD2] [] (start 0x0D 0x00 0x00 0x00 0x00) =
    some ([0x00, 0x00, 0x01, 0x00, 0xEE, 0xEE, 0xEE], 0x48, 0x0101) := by
  decide


/-! ### Program status -/

/-- Vector W1. -/
theorem test_lpsu_W1 :
    ran (fun t => (shown t, t.psu))
      0x0100 [0x92] [] { start 0x00 0xFF 0x00 0x00 0x00 with psu := ⟨false, false, 0⟩ } =
    some (([0xFF, 0x00, 0x00, 0x00, 0xEE, 0xEE, 0xEE], 0x00, 0x0101), ⟨true, true, 7⟩) := by
  decide

/-- Vector W2. -/
theorem test_lpsu_W2 :
    ran (fun t => (shown t, t.psu))
      0x0100 [0x92] [] { start 0x00 0x18 0x00 0x00 0x00 with psu := ⟨true, true, 5⟩ } =
    some (([0x18, 0x00, 0x00, 0x00, 0xEE, 0xEE, 0xEE], 0x00, 0x0101), ⟨false, false, 0⟩) := by
  decide

/-- Vector W3. -/
theorem test_lpsl_W3 :
    ran (fun t => shown t)
      0x0100 [0x93] [] (start 0xE5 0x1A 0x00 0x00 0x00) =
    some ([0x1A, 0x00, 0x00, 0x00, 0xEE, 0xEE, 0xEE], 0x1A, 0x0101) := by
  decide

/-- Vector W5. -/
theorem test_spsu_W5 :
    ran (fun t => (shown t, t.psu))
      0x0100 [0x12] [] { start 0x00 0x00 0x00 0x00 0x00 with psu := ⟨true, false, 2⟩, senseIn := [false] } =
    some (([0x42, 0x00, 0x00, 0x00, 0xEE, 0xEE, 0xEE], 0x40, 0x0101), ⟨true, false, 2⟩) := by
  decide

/-- Vector W6. -/
theorem test_spsu_W6 :
    ran (fun t => (shown t, t.psu))
      0x0100 [0x12] [] { start 0x00 0x00 0x00 0x00 0x00 with psu := ⟨false, true, 7⟩, senseIn := [true] } =
    some (([0xA7, 0x00, 0x00, 0x00, 0xEE, 0xEE, 0xEE], 0x80, 0x0101), ⟨false, true, 7⟩) := by
  decide

/-- Vector W9. -/
theorem test_spsl_W9 :
    ran (fun t => shown t)
      0x0100 [0x13] [] (start 0xC0 0x00 0x00 0x00 0x00) =
    some ([0xC0, 0x00, 0x00, 0x00, 0xEE, 0xEE, 0xEE], 0x80, 0x0101) := by
  decide

/-- Vector W12. -/
theorem test_ppsu_W12 :
    ran (fun t => (shown t, t.psu))
      0x0100 [0x76, 0xFF] [] { start 0x00 0x00 0x00 0x00 0x00 with psu := ⟨false, false, 0⟩ } =
    some (([0x00, 0x00, 0x00, 0x00, 0xEE, 0xEE, 0xEE], 0x00, 0x0102), ⟨true, true, 7⟩) := by
  decide

/-- Vector W14. -/
theorem test_ppsl_W14 :
    ran (fun t => shown t)
      0x0100 [0x77, 0xC0] [] (start 0x00 0x00 0x00 0x00 0x00) =
    some ([0x00, 0x00, 0x00, 0x00, 0xEE, 0xEE, 0xEE], 0xC0, 0x0102) := by
  decide

/-- Vector W16. -/
theorem test_cpsu_W16 :
    ran (fun t => (shown t, t.psu))
      0x0100 [0x74, 0x07] [] { start 0x00 0x00 0x00 0x00 0x00 with psu := ⟨true, true, 5⟩ } =
    some (([0x00, 0x00, 0x00, 0x00, 0xEE, 0xEE, 0xEE], 0x00, 0x0102), ⟨true, true, 0⟩) := by
  decide

/-- Vector W17. -/
theorem test_cpsl_W17 :
    ran (fun t => shown t)
      0x0100 [0x75, 0x08] [] (start 0xCB 0x00 0x00 0x00 0x00) =
    some ([0x00, 0x00, 0x00, 0x00, 0xEE, 0xEE, 0xEE], 0xC3, 0x0102) := by
  decide

/-- Vector W20. -/
theorem test_tpsu_W20 :
    ran (fun t => shown t)
      0x0100 [0xB4, 0x80] [] { start 0x40 0x00 0x00 0x00 0x00 with senseIn := [true] } =
    some ([0x00, 0x00, 0x00, 0x00, 0xEE, 0xEE, 0xEE], 0x00, 0x0102) := by
  decide

/-- Vector W23. -/
theorem test_tpsu_W23 :
    ran (fun t => shown t)
      0x0100 [0xB4, 0x18] [] { start 0x00 0x00 0x00 0x00 0x00 with senseIn := [false] } =
    some ([0x00, 0x00, 0x00, 0x00, 0xEE, 0xEE, 0xEE], 0x80, 0x0102) := by
  decide

/-- Vector W26. -/
theorem test_tpsl_W26 :
    ran (fun t => shown t)
      0x0100 [0xB5, 0x00] [] (start 0x80 0x00 0x00 0x00 0x00) =
    some ([0x00, 0x00, 0x00, 0x00, 0xEE, 0xEE, 0xEE], 0x00, 0x0102) := by
  decide

/-- Vector W27. -/
theorem test_tpsl_W27 :
    ran (fun t => shown t)
      0x0100 [0xB5, 0xC0] [] (start 0xC0 0x00 0x00 0x00 0x00) =
    some ([0x00, 0x00, 0x00, 0x00, 0xEE, 0xEE, 0xEE], 0x00, 0x0102) := by
  decide


/-! ### Branch -/

/-- Vector B5. -/
theorem test_bctr_B5 :
    ran (fun t => shown t)
      0x0100 [0x1A, 0x10] [] (start 0xC0 0x00 0x00 0x00 0x00) =
    some ([0x00, 0x00, 0x00, 0x00, 0xEE, 0xEE, 0xEE], 0xC0, 0x0102) := by
  decide

/-- Vector B7. -/
theorem test_bctr_B7 :
    ran (fun t => shown t)
      0x6001 [0x1B, 0x40] [] (start 0x00 0x00 0x00 0x00 0x00) =
    some ([0x00, 0x00, 0x00, 0x00, 0xEE, 0xEE, 0xEE], 0x00, 0x7FC3) := by
  decide

/-- Vector B10. -/
theorem test_bcta_B10 :
    ran (fun t => shown t)
      0x0100 [0x1D, 0x82, 0x00] [(0x0200, 0xE0), (0x0201, 0x10)] (start 0x40 0x00 0x00 0x00 0x00) =
    some ([0x00, 0x00, 0x00, 0x00, 0xEE, 0xEE, 0xEE], 0x40, 0x6010) := by
  decide

/-- Vector B14. -/
theorem test_bcfr_B14 :
    ran (fun t => shown t)
      0x0100 [0x9A, 0x05] [] (start 0xC0 0x00 0x00 0x00 0x00) =
    some ([0x00, 0x00, 0x00, 0x00, 0xEE, 0xEE, 0xEE], 0xC0, 0x0107) := by
  decide

/-- Vector B15. -/
theorem test_bcfa_B15 :
    ran (fun t => shown t)
      0x0100 [0x9D, 0x40, 0x00] [] (start 0x00 0x00 0x00 0x00 0x00) =
    some ([0x00, 0x00, 0x00, 0x00, 0xEE, 0xEE, 0xEE], 0x00, 0x4000) := by
  decide

/-- Vector B16. -/
theorem test_bcfa_B16 :
    ran (fun t => shown t)
      0x0100 [0x9D, 0x40, 0x00] [] (start 0x40 0x00 0x00 0x00 0x00) =
    some ([0x00, 0x00, 0x00, 0x00, 0xEE, 0xEE, 0xEE], 0x40, 0x0103) := by
  decide

/-- Vector B17. -/
theorem test_brnr_B17 :
    ran (fun t => shown t)
      0x0100 [0x59, 0x7C] [] (start 0x00 0x00 0x01 0x00 0x00) =
    some ([0x00, 0x01, 0x00, 0x00, 0xEE, 0xEE, 0xEE], 0x00, 0x00FE) := by
  decide

/-- Vector B19. -/
theorem test_brna_B19 :
    ran (fun t => shown t)
      0x0100 [0x5C, 0x60, 0x00] [] (start 0x00 0x80 0x00 0x00 0x00) =
    some ([0x80, 0x00, 0x00, 0x00, 0xEE, 0xEE, 0xEE], 0x00, 0x6000) := by
  decide

/-- Vector B20. -/
theorem test_birr_B20 :
    ran (fun t => shown t)
      0x0069 [0xDB, 0x79] [] (start 0x00 0x00 0x00 0x00 0xFE) =
    some ([0x00, 0x00, 0x00, 0xFF, 0xEE, 0xEE, 0xEE], 0x00, 0x0064) := by
  decide

/-- Vector B21. -/
theorem test_birr_B21 :
    ran (fun t => shown t)
      0x0069 [0xDB, 0x79] [] (start 0xE5 0x00 0x00 0x00 0xFF) =
    some ([0x00, 0x00, 0x00, 0x00, 0xEE, 0xEE, 0xEE], 0xE5, 0x006B) := by
  decide

/-- Vector B23. -/
theorem test_bira_B23 :
    ran (fun t => shown t)
      0x0100 [0xDE, 0x03, 0x00] [] (start 0x40 0x00 0x00 0x7F 0x00) =
    some ([0x00, 0x00, 0x80, 0x00, 0xEE, 0xEE, 0xEE], 0x40, 0x0300) := by
  decide

/-- Vector B24. -/
theorem test_bdrr_B24 :
    ran (fun t => shown t)
      0x0100 [0xF9, 0x7C] [] (start 0x80 0x00 0x01 0x00 0x00) =
    some ([0x00, 0x00, 0x00, 0x00, 0xEE, 0xEE, 0xEE], 0x80, 0x0102) := by
  decide

/-- Vector B25. -/
theorem test_bdrr_B25 :
    ran (fun t => shown t)
      0x0100 [0xF9, 0x7C] [] (start 0x00 0x00 0x00 0x00 0x00) =
    some ([0x00, 0xFF, 0x00, 0x00, 0xEE, 0xEE, 0xEE], 0x00, 0x00FE) := by
  decide

/-- Vector B26. -/
theorem test_bdra_B26 :
    ran (fun t => shown t)
      0x0100 [0xFF, 0x82, 0x00] [] (start 0x10 0x00 0x00 0x00 0x01) =
    some ([0x00, 0xEE, 0xEE, 0xEE, 0x00, 0x00, 0x00], 0x10, 0x0103) := by
  decide

/-- Vector B28. -/
theorem test_bxa_B28 :
    ran (fun t => shown t)
      0x0100 [0x9F, 0x82, 0x00] [(0x0200, 0x3F), (0x0201, 0x00)] (start 0x10 0x00 0x00 0x00 0xFF) =
    some ([0x00, 0xEE, 0xEE, 0xEE, 0x00, 0x00, 0xFF], 0x10, 0x3FFF) := by
  decide

/-- Vector B32. -/
theorem test_bxa_B32 :
    ran (fun t => shown t)
      0x0100 [0x9F, 0x82, 0x00] [(0x0200, 0x3F), (0x0201, 0x80)] (start 0x10 0x00 0x00 0x00 0xFF) =
    some ([0x00, 0xEE, 0xEE, 0xEE, 0x00, 0x00, 0xFF], 0x10, 0x207F) := by
  decide

/-- Vector B29. -/
theorem test_zbrr_B29 :
    ran (fun t => shown t)
      0x4100 [0x9B, 0x78] [] (start 0x00 0x00 0x00 0x00 0x00) =
    some ([0x00, 0x00, 0x00, 0x00, 0xEE, 0xEE, 0xEE], 0x00, 0x1FF8) := by
  decide

/-- Vector B31. -/
theorem test_zbrr_B31 :
    ran (fun t => shown t)
      0x2100 [0x9B, 0x82] [(0x0002, 0x61), (0x0003, 0x23)] (start 0x00 0x00 0x00 0x00 0x00) =
    some ([0x00, 0x00, 0x00, 0x00, 0xEE, 0xEE, 0xEE], 0x00, 0x6123) := by
  decide


/-! ### Subroutine -/

/-- Vector C1. -/
theorem test_bstr_C1 :
    ran (fun t => (shown t, t.psu, rasRead t.ras 1))
      0x0100 [0x3B, 0x10] [] { start 0x00 0x00 0x00 0x00 0x00 with psu := ⟨false, false, 0⟩ } =
    some (([0x00, 0x00, 0x00, 0x00, 0xEE, 0xEE, 0xEE], 0x00, 0x0112), ⟨false, false, 1⟩, 0x0102) := by
  decide

/-- Vector C3. -/
theorem test_bsta_C3 :
    ran (fun t => (shown t, t.psu, rasRead t.ras 0))
      0x0100 [0x3F, 0x24, 0x00] [] { start 0x00 0x00 0x00 0x00 0x00 with psu := ⟨false, false, 7⟩ } =
    some (([0x00, 0x00, 0x00, 0x00, 0xEE, 0xEE, 0xEE], 0x00, 0x2400), ⟨false, false, 0⟩, 0x0103) := by
  decide

/-- Vector C5. -/
theorem test_bsfr_C5 :
    ran (fun t => (shown t, t.psu, rasRead t.ras 3))
      0x0100 [0xB9, 0x7E] [] { start 0x00 0x00 0x00 0x00 0x00 with psu := ⟨false, false, 2⟩ } =
    some (([0x00, 0x00, 0x00, 0x00, 0xEE, 0xEE, 0xEE], 0x00, 0x0100), ⟨false, false, 3⟩, 0x0102) := by
  decide

/-- Vector C6. -/
theorem test_bsfa_C6 :
    ran (fun t => (shown t, t.psu))
      0x0100 [0xBC, 0x03, 0x00] [] { start 0x00 0x00 0x00 0x00 0x00 with psu := ⟨false, false, 2⟩ } =
    some (([0x00, 0x00, 0x00, 0x00, 0xEE, 0xEE, 0xEE], 0x00, 0x0103), ⟨false, false, 2⟩) := by
  decide

/-- Vector C7. -/
theorem test_bsnr_C7 :
    ran (fun t => (shown t, t.psu, rasRead t.ras 2))
      0x0010 [0x79, 0x02] [] { start 0x00 0x00 0xFF 0x00 0x00 with psu := ⟨false, false, 1⟩ } =
    some (([0x00, 0xFF, 0x00, 0x00, 0xEE, 0xEE, 0xEE], 0x00, 0x0014), ⟨false, false, 2⟩, 0x0012) := by
  decide

/-- Vector C8. -/
theorem test_bsna_C8 :
    ran (fun t => (shown t, t.psu))
      0x0010 [0x7E, 0x03, 0x00] [] { start 0x00 0x00 0x00 0x00 0x00 with psu := ⟨false, false, 1⟩ } =
    some (([0x00, 0x00, 0x00, 0x00, 0xEE, 0xEE, 0xEE], 0x00, 0x0013), ⟨false, false, 1⟩) := by
  decide

/-- Vector C9. -/
theorem test_bsxa_C9 :
    ran (fun t => (shown t, t.psu, rasRead t.ras 1))
      0x0100 [0xBF, 0x03, 0x00] [] { start 0x00 0x00 0x00 0x00 0x09 with psu := ⟨false, false, 0⟩ } =
    some (([0x00, 0x00, 0x00, 0x09, 0xEE, 0xEE, 0xEE], 0x00, 0x0309), ⟨false, false, 1⟩, 0x0103) := by
  decide

/-- Vector C10. -/
theorem test_zbsr_C10 :
    ran (fun t => (shown t, t.psu, rasRead t.ras 5))
      0x4100 [0xBB, 0x76] [] { start 0x00 0x00 0x00 0x00 0x00 with psu := ⟨false, false, 4⟩ } =
    some (([0x00, 0x00, 0x00, 0x00, 0xEE, 0xEE, 0xEE], 0x00, 0x1FF6), ⟨false, false, 5⟩, 0x4102) := by
  decide

/-- Vector C12. -/
theorem test_zbsr_C12 :
    ran (fun t => (shown t, t.psu, rasRead t.ras 1))
      0x0100 [0xBB, 0x9F] [(0x001F, 0x10), (0x0020, 0x00)] { start 0x00 0x00 0x00 0x00 0x00 with psu := ⟨false, false, 0⟩ } =
    some (([0x00, 0x00, 0x00, 0x00, 0xEE, 0xEE, 0xEE], 0x00, 0x1000), ⟨false, false, 1⟩, 0x0102) := by
  decide

/-- Vector C14. -/
theorem test_retc_C14 :
    ran (fun t => (shown t, t.psu, rasRead t.ras 1))
      0x0300 [0x14] [] { start 0x40 0x00 0x00 0x00 0x00 with psu := ⟨false, false, 1⟩, ras := rasWrite start0.ras 1 0x0102 } =
    some (([0x00, 0x00, 0x00, 0x00, 0xEE, 0xEE, 0xEE], 0x40, 0x0301), ⟨false, false, 1⟩, 0x0102) := by
  decide

/-- Vector C15. -/
theorem test_retc_C15 :
    ran (fun t => (shown t, t.psu, rasRead t.ras 0))
      0x0300 [0x17] [] { start 0x00 0x00 0x00 0x00 0x00 with psu := ⟨false, false, 0⟩, ras := rasWrite start0.ras 0 0x4102 } =
    some (([0x00, 0x00, 0x00, 0x00, 0xEE, 0xEE, 0xEE], 0x00, 0x4102), ⟨false, false, 7⟩, 0x4102) := by
  decide

/-- Vector C16. -/
theorem test_rete_C16 :
    ran (fun t => (shown t, t.psu, rasRead t.ras 3))
      0x0300 [0x37] [] { start 0x00 0x00 0x00 0x00 0x00 with psu := ⟨false, true, 3⟩, ras := rasWrite start0.ras 3 0x0105 } =
    some (([0x00, 0x00, 0x00, 0x00, 0xEE, 0xEE, 0xEE], 0x00, 0x0105), ⟨false, false, 2⟩, 0x0105) := by
  decide

/-- Vector C17. -/
theorem test_rete_C17 :
    ran (fun t => (shown t, t.psu, rasRead t.ras 3))
      0x0300 [0x35] [] { start 0x00 0x00 0x00 0x00 0x00 with psu := ⟨false, true, 3⟩, ras := rasWrite start0.ras 3 0x0105 } =
    some (([0x00, 0x00, 0x00, 0x00, 0xEE, 0xEE, 0xEE], 0x00, 0x0301), ⟨false, true, 3⟩, 0x0105) := by
  decide


/-! ### Input, output and the rest -/

/-- Vector I1. -/
theorem test_redd_I1 :
    ran (fun t => shown t)
      0x0100 [0x70] [] { start 0x00 0x00 0x00 0x00 0x00 with deviceIn := [0x80] } =
    some ([0x80, 0x00, 0x00, 0x00, 0xEE, 0xEE, 0xEE], 0x80, 0x0101) := by
  decide

/-- Vector I2. -/
theorem test_redc_I2 :
    ran (fun t => shown t)
      0x0100 [0x31] [] { start 0x00 0x00 0x00 0x00 0x00 with deviceIn := [0x00] } =
    some ([0x00, 0x00, 0x00, 0x00, 0xEE, 0xEE, 0xEE], 0x00, 0x0101) := by
  decide

/-- Vector I3. -/
theorem test_rede_I3 :
    ran (fun t => shown t)
      0x0100 [0x56, 0x7F] [] { start 0x00 0x00 0x00 0x00 0x00 with deviceIn := [0x01] } =
    some ([0x00, 0x00, 0x01, 0x00, 0xEE, 0xEE, 0xEE], 0x40, 0x0102) := by
  decide

/-- Vector I4. -/
theorem test_wrtd_I4 :
    ran (fun t => (shown t, t.trace))
      0x0100 [0xF2] [] (start 0xC0 0x00 0x00 0x5A 0x00) =
    some (([0x00, 0x00, 0x5A, 0x00, 0xEE, 0xEE, 0xEE], 0xC0, 0x0101), [.ioWrite .data 0x5A]) := by
  decide

/-- Vector I5. -/
theorem test_wrtc_I5 :
    ran (fun t => (shown t, t.trace))
      0x0100 [0xB0] [] (start 0x00 0x01 0x00 0x00 0x00) =
    some (([0x01, 0x00, 0x00, 0x00, 0xEE, 0xEE, 0xEE], 0x00, 0x0101), [.ioWrite .ctrl 0x01]) := by
  decide

/-- Vector I6. -/
theorem test_wrte_I6 :
    ran (fun t => (shown t, t.trace))
      0x0100 [0xD7, 0x10] [] (start 0x40 0x00 0x00 0x00 0xFF) =
    some (([0x00, 0x00, 0x00, 0xFF, 0xEE, 0xEE, 0xEE], 0x40, 0x0102), [.ioWrite (.ext 0x10) 0xFF]) := by
  decide

/-- Vector M1. -/
theorem test_halt_M1 :
    ran (fun t => (shown t, t.mode))
      0x0100 [0x40] [] (start 0x5A 0x00 0x00 0x00 0x00) =
    some (([0x00, 0xEE, 0xEE, 0xEE, 0x00, 0x00, 0x00], 0x5A, 0x0101), .waitHalt) := by
  decide

/-- Vector M2. -/
theorem test_nop_M2 :
    ran (fun t => shown t)
      0x0010 [0xC0] [] (start 0x00 0x80 0x00 0x00 0x00) =
    some ([0x80, 0x00, 0x00, 0x00, 0xEE, 0xEE, 0xEE], 0x00, 0x0011) := by
  decide

/-- Vector M3. -/
theorem test_tmi_M3 :
    ran (fun t => shown t)
      0x0100 [0xF4, 0x01] [] (start 0x40 0x03 0x00 0x00 0x00) =
    some ([0x03, 0x00, 0x00, 0x00, 0xEE, 0xEE, 0xEE], 0x00, 0x0102) := by
  decide

/-- Vector M6. -/
theorem test_tmi_M6 :
    ran (fun t => shown t)
      0x0100 [0xF5, 0x00] [] (start 0x40 0x00 0x00 0x00 0x00) =
    some ([0x00, 0x00, 0x00, 0x00, 0xEE, 0xEE, 0xEE], 0x00, 0x0102) := by
  decide

/-! ### RESET, wait and interrupt -/

/-- What `f` sees after one step from `s`, if the step completes. -/
def stepped {α : Type} (f : State → α) (s : State) : Option α :=
  match step s with
  | .next t => some (f t)
  | _ => none

/-- `start0` at `a` with SP `sp`, a request on INTREQ at the next boundary and vector `v`. -/
def requested (a : Addr) (sp : BitVec 3) (v : Byte) : State :=
  { start0 with iar := a, psu := ⟨true, false, sp⟩, pins := [⟨false, true⟩], deviceIn := [v] }

/-- Vector X1. -/
theorem test_interrupt_X1 :
    stepped (fun t => (t.iar, t.psu, rasRead t.ras 3)) (requested 0x0105 2 0x0A) =
    some (0x000A, ⟨true, true, 3⟩, 0x0105) := by
  decide

/-- Vector X3. -/
theorem test_interrupt_X3 :
    stepped (fun t => (t.iar, t.psu, rasRead t.ras 1)) (requested 0x0105 0 0x7E) =
    some (0x1FFE, ⟨true, true, 1⟩, 0x0105) := by
  decide

/-- Vector X5: the pointer wraps in page 0. -/
theorem test_interrupt_X5 :
    stepped (fun t => (t.iar, rasRead t.ras 3)) (withBytes [(0x1FFF, 0x41), (0x0000, 0x80)] (requested 0x4105 2 0xFF)) =
    some (0x4180, 0x4105) := by
  decide

/-- Vector Z7: the interrupt ends a wait. -/
theorem test_interrupt_Z7 :
    stepped (fun t => (t.mode, t.iar, rasRead t.ras 2)) { requested 0x0045 1 0x03 with mode := .waitHalt } =
    some (.run, 0x0003, 0x0045) := by
  decide

/-- Vector Z8: an inhibited request does not end a wait. -/
theorem test_interrupt_Z8 :
    stepped (fun t => (t.mode, t.iar)) { requested 0x0045 1 0x03 with mode := .waitHalt, psu := ⟨true, true, 1⟩ } =
    some (.waitHalt, 0x0045) := by
  decide

/-- Vector Z1, the part that is not free. -/
theorem test_reset_Z1 :
    stepped (fun t => (t.mode, t.iar, t.psu.ii)) { requested 0x0045 1 0x03 with mode := .waitHalt, pins := [⟨true, true⟩] } =
    some (.run, 0, false) := by
  decide

/-- From RESET with nothing placed and the pins at rest, memory reads 0x00, the indeterminate code (60_exceptions R220;
log 2, 26). -/
theorem test_reset_runs_into_indeterminate : step start0 = .fault .indeterminateOpcode := rfl

/-- Past the end of the platform's list the levels are a draw (92_eei_decisions D14). -/
theorem test_pins_past_the_end :
    pinsNow State.reset = freePins 0 ∧ (passBoundary State.reset).draws = 1 ∧ (passBoundary start0).draws = 0 := ⟨rfl, rfl, rfl⟩

/-- A platform that ignores ADR13 and ADR14: code fetched in page 3 of a byte kept in page 0, and a store in page 1 kept in
page 0 (20_memory R41). -/
theorem test_page_lines_ignored :
    stepped (fun t => (t.iar, t.mem, peek t 0x6005))
      (withBytes [(0x0010, 0xCC), (0x0011, 0x80), (0x0012, 0x20), (0x0020, 0x20), (0x0021, 0x05)]
        { start 0x00 0x77 0 0 0 with iar := 0x6010, platform := { Platform.standard with pageLines := .ignored } }) =
    some (0x6013, [(0x0005, 0x77), (0x0010, 0xCC), (0x0011, 0x80), (0x0012, 0x20), (0x0020, 0x20), (0x0021, 0x05)], 0x77) := by
  decide

/-- A word of the opcode table is what the next step runs. -/
theorem test_withFetchWord :
    stepped shown (State.reset.withFetchWord 16 0xFF05) = some ([0, 0xFF, 0, 0, 0, 0, 0], 0x80, 2) := by
  decide

/-! ## Witnesses: a state and operands for the hypotheses of each obligation -/

/-- A state with a pointer at 0x0200, ROM at 0x7000, a device at 0x7001 and nothing at 0x7002. -/
def here : State :=
  withBytes [(0x0200, 0x61), (0x0201, 0x23), (0x7000, 0x5A)]
    { start 0x00 0x12 0x01 0xFF 0x00 with
      iar := 0x0100
      platform :=
        { Platform.standard with memMap := [⟨0x7000, 1, .rom⟩, ⟨0x7001, 1, .device⟩, ⟨0x7002, 1, .absent⟩] } }

/-- `here` in page 3, where a displacement reaches the ROM, the device and the hole. -/
def near : State := here.setIar 0x6FFF

/-- `here` with indexed sums refused past the page. -/
def strict : State := { here with platform := { here.platform with indexWrap := .refuse } }

/-- A platform that ignores ADR13 and ADR14, with a pointer at offset 0x0200. -/
def folded : State :=
  withBytes [(0x0200, 0x61), (0x0201, 0x23)] { start0 with platform := { Platform.standard with pageLines := .ignored } }

/-- `start0` with instruction bytes at `a` and the IAR there. -/
def ready (a : Addr) (bs : List Byte) : State := (withBytes (code a bs) start0).setIar a

theorem witness_DecodeEncodeRoundTrip :
    (Instr.lodz .r1).wf = true ∧ (Instr.bcfr 2 ⟨true, -64⟩).wf = true ∧ (Instr.bxa ⟨true, 0x7FFF⟩).wf = true := by decide

theorem witness_DecodedBytesReencode : decode [0xFF, 0x82, 0x00, 0x55] = .ok (.bdra .r3 ⟨true, 0x200⟩, [0x55]) := rfl

theorem witness_FirstByteMap :
    (0x10 : Byte) ∈ undefinedCodes ∧ (0xC7 : Byte) ∈ undefinedCodes ∧
    (0x01 : Byte) ≠ 0 ∧ (0x01 : Byte) ∉ undefinedCodes ∧ (0xFF : Byte) ≠ 0 ∧ (0xFF : Byte) ∉ undefinedCodes := by
  decide

theorem witness_StepRunsDecodedInstruction :
    (Fetches (ready 0x1FFF [0x04, 0x55]) ∧ (∀ a ∈ addrsFromIar (ready 0x1FFF [0x04, 0x55]) 2, Plain (ready 0x1FFF [0x04, 0x55]) a)) ∧
    decode ((addrsFromIar (ready 0x1FFF [0x04, 0x55]) 2).map (peek (ready 0x1FFF [0x04, 0x55]))) = .ok (.lodi .r0 0x55, []) ∧
    (Instr.lodi .r0 0x55).wf = true := by
  refine ⟨⟨?_, ?_⟩, rfl, rfl⟩
  · exact ⟨rfl, rfl, fun h => by cases h⟩
  · exact fun _ _ => .inl rfl

theorem witness_UndefinedCodesFault :
    (∀ b : Byte, Fetches (ready 0x0100 [b]) ∧ Plain (ready 0x0100 [b]) (ready 0x0100 [b]).iar) ∧
    peek (ready 0x0100 [0x00]) (ready 0x0100 [0x00]).iar = 0 ∧
    peek (ready 0x0100 [0xC7]) (ready 0x0100 [0xC7]).iar = 0xC7 ∧ (0xC7 : Byte) ∈ undefinedCodes := by
  refine ⟨fun b => ⟨⟨rfl, rfl, fun h => by cases h⟩, .inl rfl⟩, ?_⟩
  decide

theorem witness_ExecStopsAreNamed :
    exec (.lodr .r1 ⟨false, 3⟩) near = .fault (.neverAcknowledged 0x7002) ∧
    exec (.loda .r2 ⟨false, .indexed, 0x1F01⟩) strict = .refused (.indexedAcrossPage 0x1F01) := ⟨rfl, rfl⟩

theorem witness_AllInstructionsComplete : AllMapped State.reset ∧ State.reset.platform.indexWrap = .wrap :=
  ⟨fun _ h => MemKind.noConfusion h, rfl⟩

theorem witness_UnansweredAccessStops :
    eaRel ⟨false, 3⟩ near = .ok (0x7002, near) ∧
    eaAbs .r1 ⟨false, .none, 0x1002⟩ near = .ok ⟨0x7002, .r1, near⟩ ∧
    kindAt near.platform 0x7002 = .absent := ⟨rfl, rfl, rfl⟩

theorem witness_MemoryStaysCanonical :
    Canonical (ready 0x0100 [0xC9, 0x02]) ∧ ∃ t, step (ready 0x0100 [0xC9, 0x02]) = .next t := ⟨rfl, _, rfl⟩

theorem witness_MemoryReadAfterWrite :
    (Canonical here ∧ kindAt here.platform 0x7FFF = .ram ∧ Plain here 0x7FFF ∧ sameByte here.platform 0x7FFF 0x7FFF ∧
      Plain here 0x7000 ∧ ¬ sameByte here.platform 0x7FFF 0x7000) ∧
    Canonical folded ∧ kindAt folded.platform 0x7FFF = .ram ∧ Plain folded 0x1FFF ∧ sameByte folded.platform 0x7FFF 0x1FFF :=
  ⟨⟨rfl, rfl, .inl rfl, .inl rfl, .inr rfl, by unfold sameByte; decide⟩, rfl, rfl, .inl rfl, .inr ⟨rfl, rfl⟩⟩

/-- Both ends of a page in the first and the last page, and a platform that decodes the lines. -/
theorem witness_MirroredPages :
    (folded.platform.pageLines = .ignored ∧ Canonical folded ∧ (0x1FFF : Addr).toNat % 8192 = (0x7FFF : Addr).toNat % 8192 ∧
      kindAt folded.platform 0x1FFF = .ram ∧ (0x0000 : Addr).toNat % 8192 = (0x6000 : Addr).toNat % 8192 ∧
      ((0x0200, 0x61) : Host.Cell) ∈ folded.mem) ∧
    here.platform.pageLines = .decoded ∧ Canonical here ∧ kindAt here.platform 0x0000 = .ram ∧ (0x0000 : Addr) ≠ 0x2000 := by
  decide

theorem witness_OnlyStoresChangeMemory :
    storesMemory (.lodr .r1 ⟨false, 1⟩) = false ∧ ∃ t, exec (.lodr .r1 ⟨false, 1⟩) near = .next t := ⟨rfl, _, rfl⟩

/-- A store to the ROM at 0x7000. -/
theorem witness_PlatformAndRomNeverChange :
    Canonical ((withBytes (code 0x6FF0 [0xC9, 0x0E]) here).setIar 0x6FF0) ∧
    kindAt here.platform 0x7000 ≠ .ram ∧ kindAt here.platform 0x7001 ≠ .ram ∧
    ∃ t, step ((withBytes (code 0x6FF0 [0xC9, 0x0E]) here).setIar 0x6FF0) = .next t := by
  refine ⟨by decide, by decide, by decide, _, rfl⟩

theorem witness_StoreSeenByFetch :
    Canonical near ∧ eaRel ⟨false, -1⟩ near = .ok (0x6FFE, near) ∧ kindAt near.platform 0x6FFE = .ram := ⟨rfl, rfl, rfl⟩

/-- The displacements at both ends of their range, direct and indirect. -/
theorem witness_RelativeAddressing :
    (relArg 0x3F).ind = false ∧ (relArg 0x40).ind = false ∧ (relArg 0xBF).ind = true ∧ (relArg 0xC0).ind = true ∧
    eaRel (relArg 0x40) here = .ok (0x00C0, here) ∧ eaRel (relArg 0x3F) (here.setIar 0x1FFF) = .ok (0x003E, here.setIar 0x1FFF) :=
  ⟨rfl, rfl, rfl, rfl, rfl, rfl⟩

theorem witness_ZeroPageAddressing :
    eaZero ⟨false, -1⟩ here = .ok (0x1FFF, here) ∧ (∃ a s', eaZero ⟨true, -1⟩ here = .ok (a, s')) ∧
    ∃ v rest, (requested 0x0105 2 0x7F).deviceIn = v :: rest ∧ (relArg v).ind = false := ⟨rfl, ⟨_, _, rfl⟩, _, _, rfl, rfl⟩

theorem witness_BranchAddressing :
    eaBra ⟨false, 0x7FFF⟩ here = .ok (0x7FFF, here) ∧ eaBra ⟨true, 0x0200⟩ here = .ok (0x6123, here) := ⟨rfl, rfl⟩

/-- Pointers inside a page and across its end. -/
theorem witness_IndirectPointer : PlainPointer here 0x0200 ∧ PlainPointer here 0x7FFF := by decide

/-- Every index control, a pointer, and a sum at the last offset of the page and one past it. -/
theorem witness_AbsoluteAddressing :
    PlainPointer here (absBase ⟨true, .indexed, 0x200⟩ here) ∧ PlainPointer here (absBase ⟨true, .none, 0x1FFF⟩ here) ∧
    here.platform.indexWrap = .wrap ∧ strict.platform.indexWrap = .refuse ∧
    (meant false strict (absBase ⟨false, .indexed, 0x1FFE⟩ strict)).toNat % 8192 +
      (indexValue .r1 ⟨false, .indexed, 0x1FFE⟩ strict).toNat = 8191 ∧
    (meant false strict (absBase ⟨false, .autoInc, 0x1FFE⟩ strict)).toNat % 8192 +
      (indexValue .r1 ⟨false, .autoInc, 0x1FFE⟩ strict).toNat = 8192 ∧
    (meant false strict (absBase ⟨false, .autoDec, 0x1F01⟩ strict)).toNat % 8192 +
      (indexValue .r3 ⟨false, .autoDec, 0x1F01⟩ strict).toNat = 8192 := by
  decide

theorem witness_RegisterLoads : Reg.r1 ≠ .r0 ∧ Reg.r3 ≠ .r0 := by decide

/-- Operands in ROM, in a device, by pointer, and indexed. -/
theorem witness_operands :
    (∃ s', RelOperand ⟨false, 1⟩ near 0x7000 0x5A s') ∧ (∃ m s', RelOperand ⟨false, 2⟩ near 0x7001 m s') ∧
    (∃ m s', RelOperand ⟨true, 0⟩ (here.setIar 0x0200) 0x6123 m s') ∧
    (∃ s', AbsOperandIs .r1 ⟨false, .none, 0x1000⟩ near 0x7000 .r1 0x5A s') ∧
    (∃ m s', AbsOperandIs .r2 ⟨true, .autoInc, 0x200⟩ here 0x6123 .r0 m s') :=
  ⟨⟨_, _, rfl, rfl⟩, ⟨_, _, _, rfl, rfl⟩, ⟨_, _, _, rfl, rfl⟩, ⟨_, _, rfl, rfl⟩, ⟨_, _, _, rfl, rfl⟩⟩

theorem witness_MemoryLoads :
    (∃ s', RelOperand ⟨false, 1⟩ near 0x7000 0x5A s') ∧
    ∃ m s', AbsOperandIs .r2 ⟨true, .autoInc, 0x200⟩ here 0x6123 .r0 m s' := ⟨witness_operands.1, witness_operands.2.2.2.2⟩

theorem witness_AddSubMemory :
    (∃ s', RelOperand ⟨false, 1⟩ near 0x7000 0x5A s') ∧
    ∃ m s', AbsOperandIs .r2 ⟨true, .autoInc, 0x200⟩ here 0x6123 .r0 m s' := ⟨witness_operands.1, witness_operands.2.2.2.2⟩

theorem witness_LogicalInstructions :
    Reg.r2 ≠ .r0 ∧ (∃ s', RelOperand ⟨false, 1⟩ near 0x7000 0x5A s') ∧
    ∃ m s', AbsOperandIs .r2 ⟨true, .autoInc, 0x200⟩ here 0x6123 .r0 m s' :=
  ⟨by decide, witness_operands.1, witness_operands.2.2.2.2⟩

theorem witness_CompareInstructions :
    (∃ s', RelOperand ⟨false, 1⟩ near 0x7000 0x5A s') ∧
    ∃ m s', AbsOperandIs .r2 ⟨true, .autoInc, 0x200⟩ here 0x6123 .r0 m s' := ⟨witness_operands.1, witness_operands.2.2.2.2⟩

/-- A store to RAM, to ROM and to a device. -/
theorem witness_RelativeStore :
    Canonical near ∧ eaRel ⟨false, 0⟩ near = .ok (0x6FFF, near) ∧ eaRel ⟨false, 1⟩ near = .ok (0x7000, near) ∧
    eaRel ⟨false, 2⟩ near = .ok (0x7001, near) ∧ kindAt near.platform 0x6FFF ≠ .absent ∧
    kindAt near.platform 0x7000 ≠ .absent ∧ kindAt near.platform 0x7001 ≠ .absent :=
  ⟨rfl, rfl, rfl, rfl, by decide, by decide, by decide⟩

theorem witness_AbsoluteStore :
    Canonical near ∧ eaAbs .r3 ⟨false, .none, 0x1001⟩ near = .ok ⟨0x7001, .r3, near⟩ ∧
    kindAt near.platform 0x7001 ≠ .absent ∧
    (∃ s', eaAbs .r3 ⟨false, .autoInc, 0x0FFE⟩ near = .ok ⟨0x6FFF, .r0, s'⟩) ∧ kindAt near.platform 0x6FFF ≠ .absent :=
  ⟨rfl, rfl, by decide, ⟨_, rfl⟩, by decide⟩

theorem witness_DecimalAdjust :
    here.platform.darCcDefined = true ∧ { here.platform with darCcDefined := false }.darCcDefined = false := ⟨rfl, rfl⟩

theorem witness_RotateWithoutCarry : here.psl.wc = false := rfl

/-- `here` with WC = 1 and `rotate_ovf_clears` false. -/
def turning : State := { start 0x08 0x12 0x40 0xFF 0x81 with platform := { Platform.standard with rotateOvfClears := false } }

/-- OVF set by a change of bit 7, cleared, and free: in both directions. -/
theorem witness_RotateWithCarry :
    turning.psl.wc = true ∧ turning.platform.rotateOvfClears = false ∧
    (rotatedRight turning.psl.c (readReg .r3 turning)).getLsbD 7 ≠ (readReg .r3 turning).getLsbD 7 ∧
    (rotatedLeft turning.psl.c (readReg .r1 turning)).getLsbD 7 ≠ (readReg .r1 turning).getLsbD 7 ∧
    (rotatedRight turning.psl.c (readReg .r0 turning)).getLsbD 7 = (readReg .r0 turning).getLsbD 7 ∧
    (rotatedLeft turning.psl.c (readReg .r0 turning)).getLsbD 7 = (readReg .r0 turning).getLsbD 7 ∧
    start0.platform.rotateOvfClears = true ∧ (start 0x08 0 0 0 0).psl.wc = true := by
  decide

theorem witness_RotatesRestore : here.psl.wc = false ∧ turning.psl.wc = true := ⟨rfl, rfl⟩

theorem witness_UnassignedPsuBits :
    (0xFF : Byte) &&& 0xE7 = 0xE7 &&& 0xE7 ∧ (0x10 : Byte).getLsbD 4 = true ∧ (0x08 : Byte).getLsbD 3 = true := by decide

theorem witness_ConditionCodeWriters :
    (keepsCC (.lpsu) = true ∧ ∃ t, exec .lpsu here = .next t) ∧
    mayMakeCC3 (.dar .r1) = false ∧ mayMakeCC3 (.cpsl 0x80) = false ∧ here.platform.darCcDefined = true ∧ here.psl.cc ≠ 3 ∧
    (∃ t, exec (.dar .r1) here = .next t) ∧ ∃ t, exec (.cpsl 0x80) here = .next t :=
  ⟨⟨rfl, _, rfl⟩, rfl, rfl, rfl, by decide, ⟨_, rfl⟩, _, rfl⟩

theorem witness_CompareModeBit :
    writesWholePsl .lpsu = false ∧ (∃ t, exec .lpsu here = .next t) ∧ readsCompareMode (.tmi .r0 1) = false := ⟨rfl, ⟨_, rfl⟩, rfl⟩

theorem witness_StatusBitWriters :
    writesFlag (.rete 3) = false ∧ writesInhibit (.retc 3) = false ∧ writesSp .lpsl = false ∧ pushesRas (.rete 3) = false ∧
    writesWholePsl .lpsu = false ∧ writesCarry (.dar .r0) = false ∧ here.psl.wc = false ∧
    (∃ t, exec (.rete 3) here = .next t) ∧ (∃ t, exec (.retc 3) here = .next t) ∧ (∃ t, exec .lpsl here = .next t) ∧
    (∃ t, exec .lpsu here = .next t) ∧ (∃ t, exec (.dar .r0) here = .next t) ∧ ∃ t, exec (.rrl .r0) here = .next t :=
  ⟨rfl, rfl, rfl, rfl, rfl, rfl, rfl, ⟨_, rfl⟩, ⟨_, rfl⟩, ⟨_, rfl⟩, ⟨_, rfl⟩, ⟨_, rfl⟩, _, rfl⟩

theorem witness_SenseReadersOnly : readsSense .lpsu = false ∧ readsSense (.ppsu 0x80) = false := ⟨rfl, rfl⟩

theorem witness_RegisterFrame :
    mayWriteReg (.loda .r2 ⟨false, .indexed, 0⟩) .r2 = false ∧ ∃ t, exec (.loda .r2 ⟨false, .indexed, 0⟩) here = .next t :=
  ⟨rfl, _, rfl⟩

/-- A condition that holds, one that does not, the unconditional one, and CC = 11. -/
theorem witness_ConditionalBranches :
    eaRel ⟨false, -64⟩ here = .ok (0x00C0, here) ∧ eaBra ⟨true, 0x200⟩ here = .ok (0x6123, here) ∧
    here.psl.cc = 0 ∧ here.psl.cc ≠ 2 ∧ (0 : Cond) ≠ 3 ∧ (2 : Cond) ≠ 3 ∧ (start 0xC0 0 0 0 0).psl.cc = 3 :=
  ⟨rfl, rfl, rfl, by decide, by decide, by decide, rfl⟩

theorem witness_RegisterBranches :
    readReg .r1 here ≠ 0 ∧ readReg .r2 here ≠ 0 ∧ readReg .r3 here = 0 ∧ eaRel ⟨false, 63⟩ here = .ok (0x013F, here) ∧
    eaBra ⟨false, 0x7FFF⟩ here = .ok (0x7FFF, here) := ⟨by decide, by decide, by decide, rfl, rfl⟩

/-- Registers at 0xFF, 0x00 and 0x01, where counting up or down gives zero or wraps. -/
theorem witness_CountBranches :
    RegResult .r2 0x00 here.psl here (writeReg .r2 0x00 here) ∧ RegResult .r2 0xFE here.psl here (writeReg .r2 0xFE here) ∧
    RegResult .r1 0x02 here.psl here (writeReg .r1 0x02 here) ∧ RegResult .r1 0x00 here.psl here (writeReg .r1 0x00 here) ∧
    BitVec.ofNat 8 ((readReg .r2 here).toNat + 1) = 0x00 ∧ BitVec.ofNat 8 ((readReg .r2 here).toNat + 255) = 0xFE ∧
    BitVec.ofNat 8 ((readReg .r1 here).toNat + 1) = 0x02 ∧ BitVec.ofNat 8 ((readReg .r1 here).toNat + 255) = 0x00 ∧
    (∃ a s', eaRel ⟨false, -64⟩ (writeReg .r1 0x02 here) = .ok (a, s')) ∧
    (∃ a s', eaBra ⟨true, 0x200⟩ (writeReg .r1 0x02 here) = .ok (a, s')) ∧
    (∃ a s', eaRel ⟨false, -64⟩ (writeReg .r2 0xFE here) = .ok (a, s')) ∧
    ∃ a s', eaBra ⟨true, 0x200⟩ (writeReg .r2 0xFE here) = .ok (a, s') :=
  ⟨writeReg_setPsl_result _ _ _ _, writeReg_setPsl_result _ _ _ _, writeReg_setPsl_result _ _ _ _,
    writeReg_setPsl_result _ _ _ _, by decide, by decide, by decide, by decide, ⟨_, _, rfl⟩, ⟨_, _, rfl⟩, ⟨_, _, rfl⟩, _, _, rfl⟩

/-- `strict` with R3 = 0xFF. -/
def strict3 : State := writeReg .r3 0xFF strict

/-- Sums at the last offset of a page and one past it. -/
theorem witness_UnconditionalBranches :
    eaBra ⟨false, 0x1F00⟩ strict3 = .ok (0x1F00, strict3) ∧
    (0x1F00 : Addr).toNat % 8192 + (readReg .r3 strict3).toNat < 8192 ∧
    eaBra ⟨false, 0x1F01⟩ strict3 = .ok (0x1F01, strict3) ∧ strict3.platform.indexWrap = .refuse ∧
    8192 ≤ (0x1F01 : Addr).toNat % 8192 + (readReg .r3 strict3).toNat ∧
    here.platform.indexWrap = .wrap ∧ eaBra ⟨true, 0x200⟩ here = .ok (0x6123, here) ∧
    eaZero ⟨false, -64⟩ here = .ok (0x1FC0, here) := ⟨rfl, by decide, rfl, rfl, by decide, rfl, rfl, rfl⟩

theorem witness_PageChangers :
    transfersControl (.lodi .r0 1) = false ∧ mayChangePage (.bctr 3 ⟨false, 63⟩) = false ∧
    (∃ t, exec (.lodi .r0 1) here = .next t) ∧ ∃ t, exec (.bctr 3 ⟨false, 63⟩) (here.setIar 0x1FFF) = .next t :=
  ⟨rfl, rfl, ⟨_, rfl⟩, _, rfl⟩

theorem witness_ConditionalCalls :
    eaRel ⟨false, -64⟩ here = .ok (0x00C0, here) ∧ eaBra ⟨true, 0x200⟩ here = .ok (0x6123, here) ∧
    here.psl.cc = 0 ∧ here.psl.cc ≠ 2 ∧ (0 : Cond) ≠ 3 ∧ (2 : Cond) ≠ 3 :=
  ⟨rfl, rfl, rfl, by decide, by decide, by decide⟩

theorem witness_RegisterAndUnconditionalCalls :
    readReg .r1 here ≠ 0 ∧ readReg .r3 here = 0 ∧ eaRel ⟨false, 63⟩ here = .ok (0x013F, here) ∧
    eaBra ⟨false, 0x7FFF⟩ here = .ok (0x7FFF, here) ∧ here.platform.indexWrap = .wrap ∧
    eaBra ⟨false, 0x1F00⟩ strict3 = .ok (0x1F00, strict3) ∧
    (0x1F00 : Addr).toNat % 8192 + (readReg .r3 strict3).toNat < 8192 ∧
    eaZero ⟨true, -64⟩ here = .ok (0x0000, here) := ⟨by decide, by decide, rfl, rfl, rfl, rfl, by decide, rfl⟩

theorem witness_Returns : here.psl.cc = 0 ∧ (0 : Cond) ≠ 3 ∧ (1 : Cond) ≠ 3 ∧ here.psl.cc ≠ 1 := by decide

theorem witness_StackNesting :
    [0x1, 0x2, 0x3, 0x4, 0x5, 0x6, 0x7, (0x7FFF : Addr)].length ≤ 8 ∧ [0x1, 0x2, 0x3, 0x4, 0x5, 0x6, (0x7 : Addr)].length = 7 := by
  decide

theorem witness_ResetOverrides : (pinsNow { start0 with mode := .waitHalt, pins := [⟨true, true⟩] }).reset = true := rfl

/-- A waiting machine that goes on waiting, one that RESET and one that a request wakes, and a HALT. -/
theorem witness_WaitState :
    (pinsNow { start0 with mode := .waitHalt, pins := [⟨false, true⟩], psu := ⟨false, true, 0⟩ }).reset = false ∧
    (∃ t, step { requested 0x0045 1 0x03 with mode := .waitHalt } = .next t ∧ t.mode = .run) ∧
    (∃ t, step { start0 with mode := .waitHalt, pins := [⟨true, false⟩] } = .next t ∧ t.mode = .run) ∧
    (ready 0x0100 [0x40]).mode = .run ∧ ∃ t, step (ready 0x0100 [0x40]) = .next t ∧ t.mode = .waitHalt :=
  ⟨rfl, ⟨_, rfl, rfl⟩, ⟨_, rfl, rfl⟩, rfl, _, rfl, rfl⟩

/-- A direct vector, an indirect one whose pointer wraps in page 0, and no vector on the platform's list. -/
theorem witness_InterruptEntry :
    (pinsNow (requested 0x0105 7 0x7F)).reset = false ∧ (pinsNow (requested 0x0105 7 0x7F)).intreq = true ∧
    (requested 0x0105 7 0x7F).psu.ii = false ∧ (0x7F : Byte).getLsbD 7 = false ∧ (0xFF : Byte).getLsbD 7 = true ∧
    PlainPointer (requested 0x0105 7 0xFF) (zeroBase (relArg 0xFF)) ∧
    BusRead 0xFF (requested 0x0105 7 0xFF) { requested 0x0105 7 0xFF with deviceIn := [] } :=
  ⟨rfl, rfl, rfl, rfl, rfl, by decide, .inl ⟨[], rfl, rfl⟩⟩

theorem witness_InterruptInhibited : { start0 with psu := ⟨false, true, 0⟩ }.psu.ii = true := rfl

theorem witness_InterruptThenReturn : ∃ t, interrupt (requested 0x4105 7 0x7F) = .ok t := ⟨_, rfl⟩

end Sys2Proof.Tests
end

section
/-! PROOF. A step that fetches runs the instruction that the bytes from the IAR on decode to: what a successful decoding
says about the bytes, the fetch of each of the three instruction lengths, and the step. -/

namespace Sys2Proof

/-- Bytes that decode are one byte, two or three, as byte 0 says, and then the bytes after the instruction
(30_encoding R70, R88). -/
theorem decode_ok_cases {bs rest : List Byte} {i : Instr} (h : decode bs = .ok (i, rest)) :
    (∃ b0, bs = b0 :: rest ∧ decodeFirst b0 = .ok (.one i)) ∨
    (∃ b0 b1 f, bs = b0 :: b1 :: rest ∧ decodeFirst b0 = .ok (.two f) ∧ f b1 = i) ∨
    (∃ b0 b1 b2 f, bs = b0 :: b1 :: b2 :: rest ∧ decodeFirst b0 = .ok (.three f) ∧ f b1 b2 = i) := by
  rcases bs with _ | ⟨b0, tail⟩
  · cases h
  simp only [decode] at h
  cases hf : decodeFirst b0 with
  | error e =>
    rw [hf] at h
    cases h
  | ok shape =>
    rw [hf] at h
    cases shape with
    | one j =>
      cases h
      exact .inl ⟨b0, rfl, hf⟩
    | two f =>
      rcases tail with _ | ⟨b1, tail⟩ <;> cases h
      exact .inr (.inl ⟨b0, b1, f, rfl, hf, rfl⟩)
    | three f =>
      rcases tail with _ | ⟨b1, _ | ⟨b2, tail⟩⟩ <;> cases h
      exact .inr (.inr ⟨b0, b1, b2, f, rfl, hf, rfl⟩)

end Sys2Proof

namespace Sys2Proof.Machine

/-! ## The fetch of each instruction length -/

theorem fetchInstr_one {s t : State} {b0 : Byte} {i : Instr} (h0 : fetchByte s = .ok (b0, t))
    (hd : decodeFirst b0 = .ok (.one i)) : fetchInstr s = .ok (i, t) := by
  simp only [fetchInstr, h0, Except.bind, hd]

theorem fetchInstr_two {s t u : State} {b0 b1 : Byte} {f : Byte → Instr} (h0 : fetchByte s = .ok (b0, t))
    (hd : decodeFirst b0 = .ok (.two f)) (h1 : fetchByte t = .ok (b1, u)) : fetchInstr s = .ok (f b1, u) := by
  simp only [fetchInstr, h0, Except.bind, hd, h1, Except.map]

theorem fetchInstr_three {s t u v : State} {b0 b1 b2 : Byte} {f : Byte → Byte → Instr}
    (h0 : fetchByte s = .ok (b0, t)) (hd : decodeFirst b0 = .ok (.three f)) (h1 : fetchByte t = .ok (b1, u))
    (h2 : fetchByte u = .ok (b2, v)) : fetchInstr s = .ok (f b1 b2, v) := by
  simp only [fetchInstr, h0, Except.bind, hd, h1, h2, Except.map]

/-! ## The bytes from the IAR on -/

/-- The address `k` bytes on from the IAR, in its page (20_memory R47). -/
def iarPlus (s : State) (k : Nat) : Addr := inPage s.iar (s.iar.toNat + k)

theorem iarPlus_zero (s : State) : iarPlus s 0 = s.iar := inPage_self s.iar

theorem addrsFromIar_eq (s : State) (n : Nat) : addrsFromIar s n = (List.range n).map (iarPlus s) := rfl

theorem iarPlus_mem {s : State} {k n : Nat} (h : k < n) : iarPlus s k ∈ addrsFromIar s n :=
  List.mem_map_of_mem (List.mem_range.mpr h)

/-- The fetch of byte `k` of the bytes from the IAR on. -/
theorem fetchByte_iarPlus {s : State} (k : Nat) (h : Plain s (iarPlus s k)) :
    fetchByte (s.setIar (iarPlus s k)) = .ok (peek s (iarPlus s k), s.setIar (iarPlus s (k + 1))) :=
  fetchByte_along s k h

theorem fetchByte_at_iar {s : State} (h : Plain s (iarPlus s 0)) :
    fetchByte s = .ok (peek s (iarPlus s 0), s.setIar (iarPlus s 1)) := by
  have hs : s.setIar (iarPlus s 0) = s := by rw [iarPlus_zero]; rfl
  have hf := fetchByte_iarPlus 0 h
  rwa [hs] at hf

/-- The fetch reads exactly the bytes that decode, and leaves the IAR after them. -/
theorem fetchInstr_of_decode {s : State} {n : Nat} {i : Instr} (hp : ∀ a ∈ addrsFromIar s n, Plain s a)
    (hd : decode ((addrsFromIar s n).map (peek s)) = .ok (i, [])) : fetchInstr s = .ok (i, s.setIar (iarPlus s n)) := by
  have hb : ∀ k < n, Plain s (iarPlus s k) := fun k hk => hp _ (iarPlus_mem hk)
  have hlen : ((addrsFromIar s n).map (peek s)).length = n := by simp [addrsFromIar_eq]
  rcases decode_ok_cases hd with ⟨b0, hbs, h0⟩ | ⟨b0, b1, f, hbs, h0, rfl⟩ | ⟨b0, b1, b2, f, hbs, h0, rfl⟩
  · obtain rfl : n = 1 := by rw [← hlen, hbs]; rfl
    obtain rfl : peek s (iarPlus s 0) = b0 := by simpa [addrsFromIar_eq, List.range_succ] using hbs
    exact fetchInstr_one (fetchByte_at_iar (hb 0 (by decide))) h0
  · obtain rfl : n = 2 := by rw [← hlen, hbs]; rfl
    obtain ⟨rfl, rfl⟩ : peek s (iarPlus s 0) = b0 ∧ peek s (iarPlus s 1) = b1 := by
      simpa [addrsFromIar_eq, List.range_succ] using hbs
    exact fetchInstr_two (fetchByte_at_iar (hb 0 (by decide))) h0 (fetchByte_iarPlus 1 (hb 1 (by decide)))
  · obtain rfl : n = 3 := by rw [← hlen, hbs]; rfl
    obtain ⟨rfl, rfl, rfl⟩ : peek s (iarPlus s 0) = b0 ∧ peek s (iarPlus s 1) = b1 ∧ peek s (iarPlus s 2) = b2 := by
      simpa [addrsFromIar_eq, List.range_succ] using hbs
    exact fetchInstr_three (fetchByte_at_iar (hb 0 (by decide))) h0 (fetchByte_iarPlus 1 (hb 1 (by decide)))
      (fetchByte_iarPlus 2 (hb 2 (by decide)))

/-! ## The step -/

theorem step_of_fetchInstr {s t : State} {i : Instr} (hs : Fetches s) (hf : fetchInstr (afterBoundary s) = .ok (i, t)) :
    step s = exec i t := by
  rw [step_fetches s hs, passBoundary_eq_afterBoundary, hf]

/-- Settles O5: the passing of the boundary changes neither the IAR nor memory, so the fetch after it reads the bytes that
decode. -/
theorem stepRunsDecodedInstruction : Obligations.StepRunsDecodedInstruction := by
  intro s n i hs hp hd _
  have hf : fetchInstr (afterBoundary s) = .ok (i, (afterBoundary s).setIar (iarPlus (afterBoundary s) n)) :=
    fetchInstr_of_decode (s := afterBoundary s) hp hd
  exact step_of_fetchInstr hs hf

end Sys2Proof.Machine
end

section
/-! PROOF. The state after RESET, the condition codes, and the bits of the status bytes. -/

namespace Sys2Proof.Machine

/-- Settles O54: `State.reset` written out. -/
theorem resetState : Obligations.ResetState :=
  ⟨rfl, rfl, rfl, rfl, fun _ => rfl⟩

/-! ## The condition code -/

theorem ccOfRange_eq_one (b : Byte) : ccOfRange b = 1 ↔ 1 ≤ b.toNat ∧ b.toNat ≤ 127 := by
  unfold ccOfRange
  split_ifs <;> simp <;> omega

theorem ccOfRange_eq_zero (b : Byte) : ccOfRange b = 0 ↔ b.toNat = 0 := by
  unfold ccOfRange
  split_ifs <;> simp <;> omega

theorem ccOfRange_eq_two (b : Byte) : ccOfRange b = 2 ↔ 128 ≤ b.toNat ∧ b.toNat ≤ 255 := by
  have hb := b.isLt
  unfold ccOfRange
  split_ifs <;> simp <;> omega

/-- The code of the order of two numbers, as a comparison and a sign take it. -/
theorem orderCode_spec (p q : Int) :
    ((if q < p then 1 else if p = q then 0 else 2 : BitVec 2) = 1 ↔ q < p) ∧
    ((if q < p then 1 else if p = q then 0 else 2 : BitVec 2) = 0 ↔ p = q) ∧
    ((if q < p then 1 else if p = q then 0 else 2 : BitVec 2) = 2 ↔ p < q) := by
  split_ifs <;> simp <;> omega

/-- A comparison follows the order of the bytes as COM reads them (43_compare_rotate R140). -/
theorem compareCC_compared (com : Bool) (x y : Byte) : compared com x y (compareCC com x y) := by
  refine ⟨?_, ?_, ?_⟩
  · unfold compareCC
    dsimp only
    split_ifs <;> simp
  · rintro rfl
    simpa only [compareCC, if_true, Int.ofNat_lt, Int.ofNat_inj] using orderCode_spec x.toNat y.toNat
  · rintro rfl
    exact orderCode_spec x.toInt y.toInt

/-- A mask selects only bits that are 1 exactly when masking gives the mask back. -/
theorem and_eq_right_iff_bits (s m : Byte) :
    s &&& m = m ↔ ∀ k < 8, m.getLsbD k = true → s.getLsbD k = true := by
  constructor
  · intro h k _ hm
    rw [← h, BitVec.getLsbD_and, Bool.and_eq_true] at hm
    exact hm.1
  · intro h
    refine BitVec.eq_of_getLsbD_eq fun k hk => ?_
    rw [BitVec.getLsbD_and]
    cases hm : m.getLsbD k with
    | false => exact Bool.and_false _
    | true => rw [h k hk hm, Bool.and_true]

/-- A test looks at every bit that its mask selects (44_program_status R158). -/
theorem testCC_tested (s m : Byte) : tested s m (testCC s m) := by
  constructor
  · intro h
    rw [testCC, if_pos ((and_eq_right_iff_bits s m).2 h)]
  · rintro ⟨k, hk, hm, hs⟩
    rw [testCC, if_neg]
    intro h
    have hone := (and_eq_right_iff_bits s m).1 h k hk hm
    rw [hs] at hone
    cases hone

/-- Settles O37: the sign of a byte in ranges, the order of two bytes, and the bits under a mask. -/
theorem conditionCodeMeaning : Obligations.ConditionCodeMeaning := by
  refine ⟨fun r b s => ?_, compareCC_compared, testCC_tested⟩
  rw [loadReg_psl, signCC_eq_ccOfRange]
  exact ⟨ccOfRange_eq_one b, ccOfRange_eq_zero b, ccOfRange_eq_two b⟩

/-! ## The bits of the PSU -/

/-- The bits of a byte that a write of the PSU uses: all but 7, 4 and 3. -/
theorem psuOfByte_mask (b : Byte) : psuOfByte (b &&& 0xE7) = psuOfByte b := by
  revert b
  decide

/-- Under a mask, complements agree when the bytes do. -/
theorem not_and_congr {v w m : Byte} (h : v &&& m = w &&& m) : ~~~v &&& m = ~~~w &&& m := by
  have key (x : Byte) : ~~~x &&& m = ~~~(x &&& m) &&& m := by
    rw [BitVec.not_and, BitVec.and_or_distrib_right, BitVec.not_and_self]
    exact BitVec.or_zero.symm
  rw [key v, h, ← key w]

theorem psuOfByte_congr {v w : Byte} (h : v &&& 0xE7 = w &&& 0xE7) : psuOfByte v = psuOfByte w := by
  rw [← psuOfByte_mask v, h, psuOfByte_mask]

/-- The PSU reads 0 in bits 4 and 3. -/
theorem psuByte_unassigned (b : Bool) (u : Psu) :
    (psuByte b u).getLsbD 4 = false ∧ (psuByte b u).getLsbD 3 = false := by
  obtain ⟨flag, ii, sp⟩ := u
  revert b flag ii sp
  decide

theorem testCC_of_clear_bit {s m : Byte} {k : Nat} (hk : k < 8) (hm : m.getLsbD k = true) (hs : s.getLsbD k = false) :
    testCC s m = 2 :=
  (testCC_tested s m).2 ⟨k, hk, hm, hs⟩

theorem readReg_loadReg_same (r : Reg) (v : Byte) (s : State) : readReg r (loadReg r v s) = v := by
  rw [readReg, loadReg_regs, loadReg_psl, regsRead_regsWrite, if_pos rfl]

/-- Settles O36: a write of the PSU uses the bits of 0xE7 only, and a read of it gives 0 in bits 4 and 3. -/
theorem unassignedPsuBits : Obligations.UnassignedPsuBits := by
  intro v w s
  have zeros := psuByte_unassigned (sampleSense s).1 s.psu
  refine ⟨fun h => ⟨?_, ?_, _, _, rfl, rfl, ?_⟩, ⟨_, rfl, ?_⟩, fun h => ⟨_, rfl, ?_⟩⟩
  · have hor : (psuByte false s.psu ||| v) &&& 0xE7 = (psuByte false s.psu ||| w) &&& 0xE7 := by
      rw [BitVec.and_or_distrib_right, h, ← BitVec.and_or_distrib_right]
    rw [exec, exec, execPpsu, execPpsu, psuOfByte_congr hor]
  · have hand : (psuByte false s.psu &&& ~~~v) &&& 0xE7 = (psuByte false s.psu &&& ~~~w) &&& 0xE7 := by
      rw [BitVec.and_assoc, not_and_congr h, ← BitVec.and_assoc]
    rw [exec, exec, execCpsu, execCpsu, psuOfByte_congr hand]
  · rw [setPsu_psu, setPsu_psu, readReg_writeReg, readReg_writeReg, if_pos rfl, if_pos rfl, psuOfByte_congr h]
  · rw [readReg_loadReg_same]
    exact zeros
  · rcases h with h | h
    · exact testCC_of_clear_bit (by decide) h zeros.1
    · exact testCC_of_clear_bit (by decide) h zeros.2

/-! ## The bits of the PSL under a mask -/

/-- Ones set by a mask are set bit by bit (44_program_status R155). -/
theorem pslOfByte_or (x y : Byte) :
    pslOfByte (x ||| y) =
      { cc := (pslOfByte x).cc ||| (pslOfByte y).cc
        idc := (pslOfByte x).idc || (pslOfByte y).idc
        rs := (pslOfByte x).rs || (pslOfByte y).rs
        wc := (pslOfByte x).wc || (pslOfByte y).wc
        ovf := (pslOfByte x).ovf || (pslOfByte y).ovf
        com := (pslOfByte x).com || (pslOfByte y).com
        c := (pslOfByte x).c || (pslOfByte y).c } := by
  simp only [pslOfByte, BitVec.extractLsb'_or, BitVec.getLsbD_or]

/-- Zeros set by a mask are set bit by bit (44_program_status R157). -/
theorem pslOfByte_and (x y : Byte) :
    pslOfByte (x &&& y) =
      { cc := (pslOfByte x).cc &&& (pslOfByte y).cc
        idc := (pslOfByte x).idc && (pslOfByte y).idc
        rs := (pslOfByte x).rs && (pslOfByte y).rs
        wc := (pslOfByte x).wc && (pslOfByte y).wc
        ovf := (pslOfByte x).ovf && (pslOfByte y).ovf
        com := (pslOfByte x).com && (pslOfByte y).com
        c := (pslOfByte x).c && (pslOfByte y).c } := by
  simp only [pslOfByte, BitVec.extractLsb'_and, BitVec.getLsbD_and]

/-- Clearing PSL bits cannot make CC 11. -/
theorem cc_ne_three_of_cleared {p : Psl} (h : p.cc ≠ 3) (v : Byte) : (pslOfByte (pslByte p &&& v)).cc ≠ 3 := by
  have key : ∀ a b : BitVec 2, a ≠ 3 → a &&& b ≠ 3 := by decide
  rw [pslOfByte_and, pslOfByte_pslByte]
  exact key _ _ h

end Sys2Proof.Machine
end

section
/-! PROOF. The return address stack as a ring of eight entries: what a run of returns reads, what a run of calls
writes. -/

namespace Sys2Proof.Machine

/-! ## What `n` returns read -/

/-- The entries from number `sp` down, `n` of them, modulo 8: the addresses that `n` returns go to. -/
def entriesDown (v : Vector Addr 8) : BitVec 3 → Nat → List Addr
  | _, 0 => []
  | sp, n + 1 => rasRead v sp :: entriesDown v (sp - 1) n

theorem sub_ofNat_succ (sp : BitVec 3) (n : Nat) : sp - BitVec.ofNat 3 (n + 1) = sp - 1 - BitVec.ofNat 3 n := by
  rw [BitVec.ofNat_add]
  exact sub_add_eq_sub_sub_swap sp _ _

/-- The entry that the last of `n + 1` returns reads. -/
theorem entriesDown_concat (v : Vector Addr 8) (sp : BitVec 3) (n : Nat) :
    entriesDown v sp (n + 1) = entriesDown v sp n ++ [rasRead v (sp - BitVec.ofNat 3 n)] := by
  induction n generalizing sp with
  | zero => simp [entriesDown]
  | succ n ih => rw [entriesDown, ih, sub_ofNat_succ, entriesDown, List.cons_append]

theorem popAll_eq (n : Nat) (s : State) :
    (popAll n s).1 = entriesDown s.ras s.psu.sp n ∧ (popAll n s).2.psu.sp = s.psu.sp - BitVec.ofNat 3 n := by
  induction n generalizing s with
  | zero => simp [popAll, entriesDown]
  | succ n ih =>
    obtain ⟨haddrs, hsp⟩ := ih (returnPop s)
    constructor
    · rw [popAll, haddrs]
      rfl
    · rw [popAll, hsp, returnPop_psu, sub_ofNat_succ]

/-! ## What a run of calls writes -/

theorem pushAll_concat (l : List Addr) (a : Addr) (s : State) : pushAll (l ++ [a]) s = push a (pushAll l s) := by
  simp [pushAll]

theorem pushAll_sp (l : List Addr) (s : State) : (pushAll l s).psu.sp = s.psu.sp + BitVec.ofNat 3 l.length := by
  induction l using List.reverseRecOn with
  | nil => simp [pushAll]
  | append_singleton l a ih =>
    rw [pushAll_concat, push_psu, ih, List.length_append, BitVec.ofNat_add]
    exact add_assoc _ _ _

/-- A write of an entry that `n` returns do not reach. -/
theorem entriesDown_rasWrite {v : Vector Addr 8} {sp j : BitVec 3} {n : Nat} (a : Addr)
    (h : ∀ k < n, sp - BitVec.ofNat 3 k ≠ j) : entriesDown (rasWrite v j a) sp n = entriesDown v sp n := by
  induction n generalizing sp with
  | zero => rfl
  | succ n ih =>
    have hsp : sp ≠ j := by simpa using h 0 n.succ_pos
    have hrest : ∀ k < n, sp - 1 - BitVec.ofNat 3 k ≠ j := fun k hk => by
      rw [← sub_ofNat_succ]
      exact h (k + 1) (Nat.succ_lt_succ hk)
    rw [entriesDown, rasRead_rasWrite, if_neg hsp, ih hrest, entriesDown]

/-- The entry above SP is not among the seven from SP down. -/
theorem sub_ne_add_one : ∀ sp : BitVec 3, ∀ k < 7, sp - BitVec.ofNat 3 k ≠ sp + 1 := by decide

/-- Up to eight calls leave their addresses on the stack, the last one on top. -/
theorem entriesDown_pushAll (l : List Addr) (s : State) (h : l.length ≤ 8) :
    entriesDown (pushAll l s).ras (pushAll l s).psu.sp l.length = l.reverse := by
  induction l using List.reverseRecOn with
  | nil => rfl
  | append_singleton l a ih =>
    rw [List.length_append, List.length_singleton] at h ⊢
    have hsp : (push a (pushAll l s)).psu.sp = (pushAll l s).psu.sp + 1 := rfl
    rw [pushAll_concat, entriesDown, hsp, push_ras, rasRead_rasWrite, if_pos rfl, add_sub_cancel_right,
      entriesDown_rasWrite a fun k hk => sub_ne_add_one _ k (by omega), ih (by omega), List.reverse_append]
    rfl

/-- Settles O51: SP moves on a ring of eight, so that up to eight entries are distinct and a ninth falls on the
first. -/
theorem stackNesting : Obligations.StackNesting := by
  constructor
  · intro l s hl
    obtain ⟨haddrs, hsp⟩ := popAll_eq l.length (pushAll l s)
    refine ⟨haddrs.trans (entriesDown_pushAll l s hl), ?_⟩
    rw [hsp, pushAll_sp, add_sub_cancel_right]
  · intro a b l s hl
    have hlen : (l ++ [b]).length = 8 := by simp [hl]
    have hpush : pushAll (a :: l ++ [b]) s = pushAll (l ++ [b]) (push a s) := rfl
    have hlast := entriesDown_pushAll (l ++ [b]) (push a s) (by omega)
    rw [hlen, List.reverse_append] at hlast
    have htop : rasRead (pushAll (l ++ [b]) (push a s)).ras (pushAll (l ++ [b]) (push a s)).psu.sp = b :=
      (List.cons.inj hlast).1
    have hninth : (pushAll (l ++ [b]) (push a s)).psu.sp - BitVec.ofNat 3 8 = (pushAll (l ++ [b]) (push a s)).psu.sp :=
      sub_zero _
    rw [hpush, (popAll_eq 9 _).1, entriesDown_concat, hlast, hninth, htop]
    rfl

end Sys2Proof.Machine
end

section
/-! PROOF. What an instruction may change: the frame of 10_state R11 to R28 and R34, one rule per state operation, and
the frame of every instruction composed from them. -/

namespace Sys2Proof.Machine

/-! ## What one instruction writes together -/

theorem writesWholePsl_of_mayWriteReg {i : Instr} {q : Reg} : mayWriteReg i q = true → writesWholePsl i = false := by
  cases i <;> simp [mayWriteReg, writesWholePsl]

theorem transfersControl_of_pushesRas {i : Instr} : pushesRas i = true → transfersControl i = true := by
  cases i <;> simp [pushesRas, transfersControl, mayChangePage]

theorem writesSp_of_pushesRas {i : Instr} : pushesRas i = true → writesSp i = true := by
  cases i <;> simp [pushesRas, writesSp]

/-- Whether an instruction writes C, IDC and OVF by its operation while the PSL is `p`: a rotate only with WC = 1
(43_compare_rotate R145). -/
def changesCarry (i : Instr) (p : Psl) : Bool :=
  match i with
  | .rrr _ | .rrl _ => p.wc
  | i => writesCarry i

theorem changesCarry_eq_false {i : Instr} {p : Psl}
    (h : writesCarry i = false ∨ ∃ r, p.wc = false ∧ (i = .rrr r ∨ i = .rrl r)) : changesCarry i p = false := by
  rcases h with h | ⟨r, hwc, rfl | rfl⟩
  · unfold changesCarry
    split
    · cases h
    · cases h
    · exact h
  · exact hwc
  · exact hwc

/-! ## The frame -/

/-- `t` differs from `s` only in what instruction `i` may write. -/
structure Frame (i : Instr) (s t : State) : Prop where
  /-- The registers of the bank that RS selects (10_state R34). -/
  reg : ∀ q, mayWriteReg i q = false → regsRead s.psl.rs q t.regs = regsRead s.psl.rs q s.regs
  /-- The other bank (10_state R11). -/
  bank : bankOf (!s.psl.rs) t.regs = bankOf (!s.psl.rs) s.regs
  mem : storesMemory i = false → t.mem = s.mem
  platform : t.platform = s.platform
  iar : transfersControl i = false → t.iar = s.iar
  page : mayChangePage i = false → pageOf t.iar = pageOf s.iar
  flag : writesFlag i = false → t.psu.flag = s.psu.flag
  inhibit : writesInhibit i = false → t.psu.ii = s.psu.ii
  sp : writesSp i = false → t.psu.sp = s.psu.sp
  ras : pushesRas i = false → t.ras = s.ras
  /-- RS, WC and COM (10_state R22, R23, R25). -/
  modes : writesWholePsl i = false → t.psl.rs = s.psl.rs ∧ t.psl.wc = s.psl.wc ∧ t.psl.com = s.psl.com
  /-- C, IDC and OVF (10_state R21, R24, R26). -/
  carry : writesWholePsl i = false → changesCarry i s.psl = false →
    t.psl.c = s.psl.c ∧ t.psl.idc = s.psl.idc ∧ t.psl.ovf = s.psl.ovf
  cc : keepsCC i = true → t.psl.cc = s.psl.cc
  /-- CC = 11 (10_state R19; 92_eei_decisions D12). -/
  ccThree : mayMakeCC3 i = false → s.platform.darCcDefined = true → s.psl.cc ≠ 3 → t.psl.cc ≠ 3

namespace Frame

variable {i : Instr} {s t u : State}

/-! ## One rule per state operation: it keeps the frame of an instruction that may do it -/

theorem refl (i : Instr) (s : State) : Frame i s s where
  reg _ _ := rfl
  bank := rfl
  mem _ := rfl
  platform := rfl
  iar _ := rfl
  page _ := rfl
  flag _ := rfl
  inhibit _ := rfl
  sp _ := rfl
  ras _ := rfl
  modes _ := ⟨rfl, rfl, rfl⟩
  carry _ _ := ⟨rfl, rfl, rfl⟩
  cc _ := rfl
  ccThree _ _ h := h

theorem busOnly (h : Frame i s u) (hb : BusOnly u t) : Frame i s t := by
  rw [show t = _ from hb]
  exact { h with }

theorem sampleSense (h : Frame i s u) : Frame i s (sampleSense u).2 := by
  unfold Machine.sampleSense
  split <;> exact { h with }

theorem drawn (h : Frame i s u) : Frame i s (drawn u) := { h with }

theorem logEvent (e : BusEvent) (h : Frame i s u) : Frame i s (logEvent e u) := { h with }

theorem setMode (m : RunMode) (h : Frame i s u) : Frame i s (u.setMode m) := { h with }

theorem writeReg {r : Reg} (v : Byte) (hw : mayWriteReg i r = true) (h : Frame i s u) : Frame i s (writeReg r v u) := by
  have hrs : u.psl.rs = s.psl.rs := (h.modes (writesWholePsl_of_mayWriteReg hw)).1
  refine { h with reg := fun q hq => ?_, bank := ?_ }
  · have hne : q ≠ r := by
      rintro rfl
      exact nomatch hw.symm.trans hq
    rw [writeReg_regs, hrs, regsRead_regsWrite, if_neg hne]
    exact h.reg q hq
  · rw [writeReg_regs, hrs, bankOf_not_regsWrite]
    exact h.bank

theorem setCC {c : BitVec 2} (hk : keepsCC i = false) (hc : s.platform.darCcDefined = true → c ≠ 3)
    (h : Frame i s u) : Frame i s (setCC c u) :=
  { h with
    cc := fun k => nomatch hk.symm.trans k
    ccThree := fun _ hd _ => hc hd }

/-- A write of CC, C, IDC and OVF together. -/
theorem setAluFlags {p : Psl} (hk : keepsCC i = false) (hw : changesCarry i s.psl = true) (hc : p.cc ≠ 3)
    (hm : p.rs = u.psl.rs ∧ p.wc = u.psl.wc ∧ p.com = u.psl.com) (h : Frame i s u) : Frame i s (u.setPsl p) :=
  { h with
    modes := fun w => by
      obtain ⟨hrs, hwc, hcom⟩ := h.modes w
      exact ⟨hm.1.trans hrs, hm.2.1.trans hwc, hm.2.2.trans hcom⟩
    carry := fun _ k => nomatch hw.symm.trans k
    cc := fun k => nomatch hk.symm.trans k
    ccThree := fun _ _ _ => hc }

theorem setPsl {p : Psl} (hw : writesWholePsl i = true) (hk : keepsCC i = false)
    (hc : mayMakeCC3 i = false → s.psl.cc ≠ 3 → p.cc ≠ 3) (h : Frame i s u) : Frame i s (u.setPsl p) :=
  { h with
    modes := fun k => nomatch hw.symm.trans k
    carry := fun k => nomatch hw.symm.trans k
    cc := fun k => nomatch hk.symm.trans k
    ccThree := fun m _ => hc m }

theorem setPsu (p : Psu) (hf : writesFlag i = true) (hi : writesInhibit i = true) (hs : writesSp i = true)
    (h : Frame i s u) : Frame i s (u.setPsu p) :=
  { h with
    flag := fun k => nomatch hf.symm.trans k
    inhibit := fun k => nomatch hi.symm.trans k
    sp := fun k => nomatch hs.symm.trans k }

theorem setIar {a : Addr} (ht : transfersControl i = true) (hp : mayChangePage i = false → pageOf a = pageOf s.iar)
    (h : Frame i s u) : Frame i s (u.setIar a) :=
  { h with
    iar := fun k => nomatch ht.symm.trans k
    page := hp }

theorem callTo {a : Addr} (hc : pushesRas i = true) (hp : mayChangePage i = false → pageOf a = pageOf s.iar)
    (h : Frame i s u) : Frame i s (callTo a u) :=
  { h with
    iar := fun k => nomatch (transfersControl_of_pushesRas hc).symm.trans k
    page := hp
    sp := fun k => nomatch (writesSp_of_pushesRas hc).symm.trans k
    ras := fun k => nomatch hc.symm.trans k }

theorem returnPop (hp : mayChangePage i = true) (ht : transfersControl i = true) (hs : writesSp i = true)
    (h : Frame i s u) : Frame i s (returnPop u) :=
  { h with
    iar := fun k => nomatch ht.symm.trans k
    page := fun k => nomatch hp.symm.trans k
    sp := fun k => nomatch hs.symm.trans k }

theorem setInhibit (b : Bool) (hi : writesInhibit i = true) (h : Frame i s u) : Frame i s (setInhibit b u) :=
  { h with
    inhibit := fun k => nomatch hi.symm.trans k }

theorem memWrite {a : Addr} {v : Byte} (hs : storesMemory i = true) (h : Frame i s u) (hw : memWrite a v u = .ok t) :
    Frame i s t := by
  rw [memWrite_only hw]
  exact { h with mem := fun k => nomatch hs.symm.trans k }

/-! ## The shared shapes of meanings -/

theorem loadReg {r : Reg} (v : Byte) (hw : mayWriteReg i r = true) (hk : keepsCC i = false) (h : Frame i s u) :
    Frame i s (loadReg r v u) :=
  (h.writeReg v hw).setCC hk fun _ => signCC_ne_three v

theorem arith {alu : Psl → Byte → Byte → AluOut} {r : Reg} (y : Byte) (hw : mayWriteReg i r = true)
    (hk : keepsCC i = false) (hc : changesCarry i s.psl = true) (h : Frame i s u) : Frame i s (arith alu r y u) :=
  (h.writeReg _ hw).setAluFlags hk hc (signCC_ne_three _) ⟨rfl, rfl, rfl⟩

theorem comparing {r : Reg} (y : Byte) (hk : keepsCC i = false) (h : Frame i s u) : Frame i s (comparing r y u) :=
  h.setCC hk fun _ => compareCC_ne_three _ _ _

theorem rotateInto {r : Reg} (v : Byte) (c : Bool) (hw : mayWriteReg i r = true) (hk : keepsCC i = false)
    (hc : changesCarry i s.psl = s.psl.wc) : Frame i s (rotateInto r v c s) := by
  have hl : Frame i s (Machine.loadReg r v s) := (refl i s).loadReg v hw hk
  unfold Machine.rotateInto
  dsimp only
  split_ifs with hwc
  · exact hl.setAluFlags hk (hc.trans hwc) (signCC_ne_three v) ⟨rfl, rfl, rfl⟩
  · exact hl.setAluFlags hk (hc.trans hwc) (signCC_ne_three v) ⟨rfl, rfl, rfl⟩
  · exact drawn (hl.setAluFlags hk (hc.trans hwc) (signCC_ne_three v) ⟨rfl, rfl, rfl⟩)
  · exact hl

theorem readPort {r : Reg} (p : Port) (hw : mayWriteReg i r = true) (hk : keepsCC i = false) (h : Frame i s u) :
    Frame i s (readPort p r u) :=
  (h.busOnly (ioRead_busOnly p u)).loadReg _ hw hk

theorem decimalAdjusted {r : Reg} {v : Byte} (hw : mayWriteReg i r = true) (hk : keepsCC i = false) :
    Frame i s (if s.platform.darCcDefined then Machine.loadReg r v s
      else Machine.drawn (Machine.setCC (freeCC s.draws) (Machine.writeReg r v s))) := by
  split_ifs with hd
  · exact (refl i s).loadReg v hw hk
  · exact (((refl i s).writeReg v hw).setCC hk fun k => absurd k hd).drawn

/-- The reading of a relative operand. -/
theorem of_relOperand {F : Reg → Byte → State → State} {r : Reg} {o : RelArg}
    (h : ∃ a m u, RelOperand o s a m u ∧ BusOnly s u ∧ t = F r m u)
    (k : ∀ {m u}, Frame i s u → Frame i s (F r m u)) : Frame i s t := by
  obtain ⟨a, m, u, -, hb, rfl⟩ := h
  exact k ((refl i s).busOnly hb)

theorem stepIndex {r : Reg} {o : AbsArg} (hx : stepsIndex o = true → mayWriteReg i r = true) (h : Frame i s u) :
    Frame i s (stepIndex r o.ctl u) := by
  obtain ⟨ind, ctl, addr⟩ := o
  cases ctl with
  | none => exact h
  | autoInc => exact h.writeReg _ (hx rfl)
  | autoDec => exact h.writeReg _ (hx rfl)
  | indexed => exact h

/-- The reading of an absolute operand, which may step its index register. -/
theorem of_absOperand {F : Reg → Byte → State → State} {r : Reg} {o : AbsArg}
    (h : ∃ a m u, AbsOperandIs r o s a (dataReg r o) m u ∧ BusOnly (Machine.stepIndex r o.ctl s) u ∧
      t = F (dataReg r o) m u)
    (hx : stepsIndex o = true → mayWriteReg i r = true)
    (k : ∀ {m u}, Frame i s u → Frame i s (F (dataReg r o) m u)) : Frame i s t := by
  obtain ⟨a, m, u, -, hb, rfl⟩ := h
  exact k (((refl i s).stepIndex hx).busOnly hb)

/-- A direct relative address is in the page of the IAR (45_branch R179). -/
theorem eaRel_page {o : RelArg} {a : Addr} (ho : o.ind = false) (h : eaRel o s = .ok (a, u)) :
    pageOf a = pageOf s.iar := by
  rw [eaRel, ho, resolve_direct] at h
  cases h
  exact pageOf_addOffset _ _

/-- A branch or call to a relative address, taken or not, after what led to state `b`. -/
theorem of_relBranch {go : Addr → State → State} {o : RelArg} {b : State} {P Q : Prop} (hb : Frame i s b)
    (hiar : b.iar = s.iar)
    (h : (P ∧ t = b) ∨ (Q ∧ ∃ a u, eaRel o b = .ok (a, u) ∧ BusOnly b u ∧ t = go a u)) (hp : mayChangePage i = o.ind)
    (k : ∀ {a u}, (mayChangePage i = false → pageOf a = pageOf s.iar) → Frame i s u → Frame i s (go a u)) :
    Frame i s t := by
  rcases h with ⟨-, rfl⟩ | ⟨-, a, u, hea, hu, rfl⟩
  · exact hb
  · refine k (fun hn => ?_) (hb.busOnly hu)
    rw [← hiar]
    exact eaRel_page (hp.symm.trans hn) hea

/-- A transfer that may leave the page. -/
theorem of_farTransfer {go : Addr → State → State} {Target : Addr → State → Prop} {b : State} (hb : Frame i s b)
    (h : ∃ a u, Target a u ∧ BusOnly b u ∧ t = go a u) (hp : mayChangePage i = true)
    (k : ∀ {a u}, (mayChangePage i = false → pageOf a = pageOf s.iar) → Frame i s u → Frame i s (go a u)) :
    Frame i s t := by
  obtain ⟨a, u, -, hu, rfl⟩ := h
  exact k (fun hn => nomatch hp.symm.trans hn) (hb.busOnly hu)

/-- A branch or call that may leave the page, taken or not, after what led to state `b`. -/
theorem of_farBranch {go : Addr → State → State} {Target : Addr → State → Prop} {b : State} {P Q : Prop}
    (hb : Frame i s b) (h : (P ∧ t = b) ∨ (Q ∧ ∃ a u, Target a u ∧ BusOnly b u ∧ t = go a u))
    (hp : mayChangePage i = true)
    (k : ∀ {a u}, (mayChangePage i = false → pageOf a = pageOf s.iar) → Frame i s u → Frame i s (go a u)) :
    Frame i s t := by
  rcases h with ⟨-, rfl⟩ | ⟨-, h⟩
  · exact hb
  · exact of_farTransfer hb h hp k

/-- Every instruction that completes has changed only what it may write. -/
theorem of_exec (h : exec i s = .next t) : Frame i s t := by
  cases i with
  | lodz r => obtain rfl := exec_cases h; exact (refl _ s).loadReg _ (by simp [mayWriteReg]) rfl
  | lodi r v => obtain rfl := exec_cases h; exact (refl _ s).loadReg _ (by simp [mayWriteReg]) rfl
  | lodr r o => exact of_relOperand (exec_cases h) fun hu => hu.loadReg _ (by simp [mayWriteReg]) rfl
  | loda r o =>
    refine of_absOperand (exec_cases h) (fun hx => by simp [mayWriteReg, hx]) fun hu => ?_
    exact hu.loadReg _ (by simp [mayWriteReg]) rfl
  | strz r => obtain rfl := exec_cases h; exact (refl _ s).loadReg _ (by simp [mayWriteReg]) rfl
  | strr r o =>
    obtain ⟨a, u, -, hu, hw⟩ := exec_cases h
    exact ((refl _ s).busOnly hu).memWrite rfl hw
  | stra r o =>
    obtain ⟨a, u, -, hu, hw⟩ := exec_cases h
    exact (((refl _ s).stepIndex (by simp [mayWriteReg])).busOnly hu).memWrite rfl hw
  | addz r => obtain rfl := exec_cases h; exact (refl _ s).arith _ (by simp [mayWriteReg]) rfl rfl
  | addi r v => obtain rfl := exec_cases h; exact (refl _ s).arith _ (by simp [mayWriteReg]) rfl rfl
  | addr r o => exact of_relOperand (exec_cases h) fun hu => hu.arith _ (by simp [mayWriteReg]) rfl rfl
  | adda r o =>
    refine of_absOperand (exec_cases h) (fun hx => by simp [mayWriteReg, hx]) fun hu => ?_
    exact hu.arith _ (by simp [mayWriteReg]) rfl rfl
  | subz r => obtain rfl := exec_cases h; exact (refl _ s).arith _ (by simp [mayWriteReg]) rfl rfl
  | subi r v => obtain rfl := exec_cases h; exact (refl _ s).arith _ (by simp [mayWriteReg]) rfl rfl
  | subr r o => exact of_relOperand (exec_cases h) fun hu => hu.arith _ (by simp [mayWriteReg]) rfl rfl
  | suba r o =>
    refine of_absOperand (exec_cases h) (fun hx => by simp [mayWriteReg, hx]) fun hu => ?_
    exact hu.arith _ (by simp [mayWriteReg]) rfl rfl
  | dar r => obtain rfl := exec_cases h; exact decimalAdjusted (by simp [mayWriteReg]) rfl
  | andz r => obtain rfl := exec_cases h; exact (refl _ s).loadReg _ (by simp [mayWriteReg]) rfl
  | andi r v => obtain rfl := exec_cases h; exact (refl _ s).loadReg _ (by simp [mayWriteReg]) rfl
  | andr r o => exact of_relOperand (exec_cases h) fun hu => hu.loadReg _ (by simp [mayWriteReg]) rfl
  | anda r o =>
    refine of_absOperand (exec_cases h) (fun hx => by simp [mayWriteReg, hx]) fun hu => ?_
    exact hu.loadReg _ (by simp [mayWriteReg]) rfl
  | iorz r => obtain rfl := exec_cases h; exact (refl _ s).loadReg _ (by simp [mayWriteReg]) rfl
  | iori r v => obtain rfl := exec_cases h; exact (refl _ s).loadReg _ (by simp [mayWriteReg]) rfl
  | iorr r o => exact of_relOperand (exec_cases h) fun hu => hu.loadReg _ (by simp [mayWriteReg]) rfl
  | iora r o =>
    refine of_absOperand (exec_cases h) (fun hx => by simp [mayWriteReg, hx]) fun hu => ?_
    exact hu.loadReg _ (by simp [mayWriteReg]) rfl
  | eorz r => obtain rfl := exec_cases h; exact (refl _ s).loadReg _ (by simp [mayWriteReg]) rfl
  | eori r v => obtain rfl := exec_cases h; exact (refl _ s).loadReg _ (by simp [mayWriteReg]) rfl
  | eorr r o => exact of_relOperand (exec_cases h) fun hu => hu.loadReg _ (by simp [mayWriteReg]) rfl
  | eora r o =>
    refine of_absOperand (exec_cases h) (fun hx => by simp [mayWriteReg, hx]) fun hu => ?_
    exact hu.loadReg _ (by simp [mayWriteReg]) rfl
  | comz r => obtain rfl := exec_cases h; exact (refl _ s).comparing _ rfl
  | comi r v => obtain rfl := exec_cases h; exact (refl _ s).comparing _ rfl
  | comr r o => exact of_relOperand (exec_cases h) fun hu => hu.comparing _ rfl
  | coma r o =>
    refine of_absOperand (exec_cases h) (fun hx => by simp [mayWriteReg, hx]) fun hu => ?_
    exact hu.comparing _ rfl
  | rrr r => obtain rfl := exec_cases h; exact rotateInto _ _ (by simp [mayWriteReg]) rfl rfl
  | rrl r => obtain rfl := exec_cases h; exact rotateInto _ _ (by simp [mayWriteReg]) rfl rfl
  | lpsu => obtain rfl := exec_cases h; exact (refl _ s).setPsu _ rfl rfl rfl
  | lpsl => obtain rfl := exec_cases h; exact (refl _ s).setPsl rfl rfl nofun
  | spsu => obtain rfl := exec_cases h; exact (refl _ s).sampleSense.loadReg _ (by simp [mayWriteReg]) rfl
  | spsl => obtain rfl := exec_cases h; exact (refl _ s).loadReg _ (by simp [mayWriteReg]) rfl
  | ppsu v => obtain rfl := exec_cases h; exact (refl _ s).setPsu _ rfl rfl rfl
  | ppsl v => obtain rfl := exec_cases h; exact (refl _ s).setPsl rfl rfl nofun
  | cpsu v => obtain rfl := exec_cases h; exact (refl _ s).setPsu _ rfl rfl rfl
  | cpsl v => obtain rfl := exec_cases h; exact (refl _ s).setPsl rfl rfl fun _ hc => cc_ne_three_of_cleared hc _
  | tpsu v => obtain rfl := exec_cases h; exact (refl _ s).sampleSense.setCC rfl fun _ => testCC_ne_three _ _
  | tpsl v => obtain rfl := exec_cases h; exact (refl _ s).setCC rfl fun _ => testCC_ne_three _ _
  | bctr c o => exact of_relBranch (refl _ s) rfl (exec_cases h) rfl fun hp hu => hu.setIar rfl hp
  | bcta c o => exact of_farBranch (refl _ s) (exec_cases h) rfl fun hp hu => hu.setIar rfl hp
  | bcfr c o => exact of_relBranch (refl _ s) rfl (exec_cases h) rfl fun hp hu => hu.setIar rfl hp
  | bcfa c o => exact of_farBranch (refl _ s) (exec_cases h) rfl fun hp hu => hu.setIar rfl hp
  | brnr r o => exact of_relBranch (refl _ s) rfl (exec_cases h) rfl fun hp hu => hu.setIar rfl hp
  | brna r o => exact of_farBranch (refl _ s) (exec_cases h) rfl fun hp hu => hu.setIar rfl hp
  | birr r o =>
    exact of_relBranch ((refl _ s).writeReg _ (by simp [mayWriteReg])) rfl (exec_cases h) rfl fun hp hu => hu.setIar rfl hp
  | bira r o =>
    exact of_farBranch ((refl _ s).writeReg _ (by simp [mayWriteReg])) (exec_cases h) rfl fun hp hu => hu.setIar rfl hp
  | bdrr r o =>
    exact of_relBranch ((refl _ s).writeReg _ (by simp [mayWriteReg])) rfl (exec_cases h) rfl fun hp hu => hu.setIar rfl hp
  | bdra r o =>
    exact of_farBranch ((refl _ s).writeReg _ (by simp [mayWriteReg])) (exec_cases h) rfl fun hp hu => hu.setIar rfl hp
  | bxa o => exact of_farTransfer (refl _ s) (exec_cases h) rfl fun hp hu => hu.setIar rfl hp
  | zbrr o => exact of_farTransfer (refl _ s) (exec_cases h) rfl fun hp hu => hu.setIar rfl hp
  | bstr c o => exact of_relBranch (refl _ s) rfl (exec_cases h) rfl fun hp hu => hu.callTo rfl hp
  | bsta c o => exact of_farBranch (refl _ s) (exec_cases h) rfl fun hp hu => hu.callTo rfl hp
  | bsfr c o => exact of_relBranch (refl _ s) rfl (exec_cases h) rfl fun hp hu => hu.callTo rfl hp
  | bsfa c o => exact of_farBranch (refl _ s) (exec_cases h) rfl fun hp hu => hu.callTo rfl hp
  | bsnr r o => exact of_relBranch (refl _ s) rfl (exec_cases h) rfl fun hp hu => hu.callTo rfl hp
  | bsna r o => exact of_farBranch (refl _ s) (exec_cases h) rfl fun hp hu => hu.callTo rfl hp
  | bsxa o => exact of_farTransfer (refl _ s) (exec_cases h) rfl fun hp hu => hu.callTo rfl hp
  | zbsr o => exact of_farTransfer (refl _ s) (exec_cases h) rfl fun hp hu => hu.callTo rfl hp
  | retc c =>
    obtain rfl := exec_cases h
    split_ifs
    · exact (refl _ s).returnPop rfl rfl rfl
    · exact refl _ s
  | rete c =>
    obtain rfl := exec_cases h
    split_ifs
    · exact ((refl _ s).returnPop rfl rfl rfl).setInhibit false rfl
    · exact refl _ s
  | redd r => obtain rfl := exec_cases h; exact (refl _ s).readPort _ (by simp [mayWriteReg]) rfl
  | redc r => obtain rfl := exec_cases h; exact (refl _ s).readPort _ (by simp [mayWriteReg]) rfl
  | rede r v => obtain rfl := exec_cases h; exact (refl _ s).readPort _ (by simp [mayWriteReg]) rfl
  | wrtd r => obtain rfl := exec_cases h; exact (refl _ s).logEvent _
  | wrtc r => obtain rfl := exec_cases h; exact (refl _ s).logEvent _
  | wrte r v => obtain rfl := exec_cases h; exact (refl _ s).logEvent _
  | halt => obtain rfl := exec_cases h; exact (refl _ s).setMode _
  | nop => obtain rfl := exec_cases h; exact refl _ _
  | tmi r v => obtain rfl := exec_cases h; exact (refl _ s).setCC rfl fun _ => testCC_ne_three _ _

end Frame

/-! ## The obligations -/

/-- Settles O12: memory and platform decide every byte, and both are kept. -/
theorem onlyStoresChangeMemory : Obligations.OnlyStoresChangeMemory := by
  intro i s t hi h a
  have f := Frame.of_exec h
  exact peek_congr (f.mem hi) f.platform a

/-- Settles O38: the condition code's part of the frame. -/
theorem conditionCodeWriters : Obligations.ConditionCodeWriters := by
  intro i s t h
  have f := Frame.of_exec h
  exact ⟨f.cc, f.ccThree⟩

/-- Settles O40: the frame of the other status bits and of the return address stack. -/
theorem statusBitWriters : Obligations.StatusBitWriters := by
  intro i s t h
  have f := Frame.of_exec h
  refine ⟨f.flag, f.inhibit, f.sp, f.ras, fun hw => ?_, fun hw hc => f.carry hw (changesCarry_eq_false hc)⟩
  obtain ⟨hrs, hwc, -⟩ := f.modes hw
  exact ⟨hrs, hwc⟩

/-- Settles O42: the registers' part of the frame. -/
theorem registerFrame : Obligations.RegisterFrame := by
  intro i s t h
  have f := Frame.of_exec h
  exact ⟨f.reg, f.bank⟩

/-- Settles O47: the IAR's part of the frame, the page being the address divided by 8,192. -/
theorem pageChangers : Obligations.PageChangers := by
  intro i s t h
  have f := Frame.of_exec h
  refine ⟨f.iar, fun hp => ?_⟩
  rw [← pageOf_toNat, ← pageOf_toNat, f.page hp]

end Sys2Proof.Machine
end

section
/-! PROOF. What no instruction but a few reads: COM and the samples of SENSE to come. A state and its veiled copy, in which
these two are changed, run alike. -/

namespace Sys2Proof.Machine

/-- `s` with COM and the samples of SENSE to come changed. -/
def veil (g : Bool → Bool) (l : List Bool → List Bool) (s : State) : State :=
  { s with psl := { s.psl with com := g s.psl.com }, senseIn := l s.senseIn }

theorem withSense_eq_veil (l : List Bool) : withSense l = veil id fun _ => l := rfl

theorem withCom_eq_veil (b : Bool) : withCom b = veil (fun _ => b) id := rfl

/-- The result of an operation with its state veiled. -/
def veilSnd {α : Type} (g : Bool → Bool) (l : List Bool → List Bool) (x : Res (α × State)) : Res (α × State) :=
  x.map fun y => (y.1, veil g l y.2)

section

variable {g : Bool → Bool} {l : List Bool → List Bool}

/-! ## Operations that may stop -/

/-- An operation that does the same in a veiled state. -/
def Blind {α : Type} (g : Bool → Bool) (l : List Bool → List Bool) (op : State → Res (α × State)) : Prop :=
  ∀ s, op (veil g l s) = veilSnd g l (op s)

theorem Blind.bind {α β : Type} {op : State → Res (α × State)} {f : α → State → Res (β × State)}
    (h : Blind g l op) (hf : ∀ a, Blind g l (f a)) : Blind g l fun s => (op s).bind fun x => f x.1 x.2 := by
  intro s
  dsimp only
  rw [h s]
  cases op s with
  | ok x => exact hf x.1 x.2
  | error e => rfl

theorem Blind.map {α β : Type} {op : State → Res (α × State)} (h : Blind g l op) (f : α → β) :
    Blind g l fun s => (op s).map fun x => (f x.1, x.2) := by
  intro s
  dsimp only
  rw [h s]
  cases op s <;> rfl

theorem busByte_veil (s : State) : busByte (veil g l s) = ((busByte s).1, veil g l (busByte s).2) := by
  obtain ⟨regs, psl, psu, iar, ras, mode, mem, platform, pins, senseIn, deviceIn, trace, draws⟩ := s
  cases deviceIn <;> rfl

theorem ioRead_veil (p : Port) (s : State) : ioRead p (veil g l s) = ((ioRead p s).1, veil g l (ioRead p s).2) := by
  rw [ioRead, busByte_veil]
  rfl

theorem memRead_blind (a : Addr) : Blind g l (memRead a) := by
  intro s
  have hk : kindAt (veil g l s).platform a = kindAt s.platform a := rfl
  rw [memRead, memRead, hk, busByte_veil]
  cases kindAt s.platform a <;> rfl

theorem memWrite_veil (a : Addr) (v : Byte) (s : State) :
    memWrite a v (veil g l s) = (memWrite a v s).map (veil g l) := by
  have hk : kindAt (veil g l s).platform a = kindAt s.platform a := rfl
  rw [memWrite, memWrite, hk]
  cases kindAt s.platform a <;> rfl

theorem readIndirect_blind (p : Addr) : Blind g l (readIndirect p) :=
  (memRead_blind p).bind fun hi =>
    (memRead_blind (nextAddr p)).map fun lo => (hi.extractLsb' 0 7 ++ lo : BitVec (7 + 8))

theorem resolve_blind (ind : Bool) (p : Addr) : Blind g l (resolve ind p) := by
  cases ind with
  | false => exact fun _ => rfl
  | true => exact readIndirect_blind p

theorem eaRel_blind (o : RelArg) : Blind g l (eaRel o) := fun s => resolve_blind o.ind _ s

theorem eaBra_blind (o : BraArg) : Blind g l (eaBra o) := resolve_blind o.ind o.addr

theorem eaZero_blind (o : RelArg) : Blind g l (eaZero o) := resolve_blind o.ind _

theorem addIndex_blind (a : Addr) (r : Reg) :
    Blind g l fun s => (addIndex a (readReg r s) s).map fun b => (b, s) := by
  intro s
  have hx : addIndex a (readReg r (veil g l s)) (veil g l s) = addIndex a (readReg r s) s := rfl
  dsimp only
  rw [hx]
  cases addIndex a (readReg r s) s <;> rfl

theorem eaBx_blind (o : BraArg) : Blind g l (eaBx o) :=
  (eaBra_blind o).bind fun a => addIndex_blind a .r3

theorem operandRel_blind (o : RelArg) : Blind g l (operandRel o) :=
  (eaRel_blind o).bind fun a => memRead_blind a

theorem stepIndex_veil (r : Reg) (ctl : IndexControl) (s : State) :
    stepIndex r ctl (veil g l s) = veil g l (stepIndex r ctl s) := by
  cases ctl <;> rfl

theorem eaAbs_veil (r : Reg) (o : AbsArg) (s : State) :
    eaAbs r o (veil g l s) = (eaAbs r o s).map fun x => { x with state := veil g l x.state } := by
  have hiar : (veil g l s).iar = s.iar := rfl
  rw [eaAbs, eaAbs, stepIndex_veil, hiar, resolve_blind]
  cases resolve o.ind (mkAddr (pageOf s.iar) o.addr) (stepIndex r o.ctl s) with
  | error e => rfl
  | ok p =>
    have hx : addIndex p.1 (readReg r (veil g l p.2)) (veil g l p.2) = addIndex p.1 (readReg r p.2) p.2 := rfl
    simp only [veilSnd, Except.map, Except.bind, hx]
    split
    · rfl
    · cases addIndex p.1 (readReg r p.2) p.2 <;> rfl

theorem operandAbs_veil (r : Reg) (o : AbsArg) (s : State) :
    operandAbs r o (veil g l s) = (operandAbs r o s).map fun x => { x with state := veil g l x.state } := by
  rw [operandAbs, operandAbs, eaAbs_veil]
  cases eaAbs r o s with
  | error e => rfl
  | ok p =>
    have hm : memRead p.addr (veil g l p.state) = veilSnd g l (memRead p.addr p.state) := memRead_blind _ _
    simp only [Except.map, Except.bind, hm]
    cases memRead p.addr p.state <;> rfl

/-! ## The shared shapes of meanings -/

theorem finish_veil (x : Res State) : finish (x.map (veil g l)) = mapNext (veil g l) (finish x) := by
  rcases x with (e | e) | s <;> rfl

theorem withRel_veil {f : Reg → Byte → State → State} (hf : ∀ q y u, f q y (veil g l u) = veil g l (f q y u))
    (r : Reg) (o : RelArg) (s : State) : withRel f r o (veil g l s) = mapNext (veil g l) (withRel f r o s) := by
  rw [withRel, withRel, ← finish_veil, operandRel_blind]
  cases operandRel o s with
  | error e => rfl
  | ok x => exact congrArg (fun t => finish (.ok t)) (hf r x.1 x.2)

theorem withAbs_veil {f : Reg → Byte → State → State} (hf : ∀ q y u, f q y (veil g l u) = veil g l (f q y u))
    (r : Reg) (o : AbsArg) (s : State) : withAbs f r o (veil g l s) = mapNext (veil g l) (withAbs f r o s) := by
  rw [withAbs, withAbs, ← finish_veil, operandAbs_veil]
  cases operandAbs r o s with
  | error e => rfl
  | ok x => exact congrArg (fun t => finish (.ok t)) (hf x.dreg x.value x.state)

theorem branchWhen_veil (c : Bool) {ea : State → Res (Addr × State)} (h : Blind g l ea) (s : State) :
    branchWhen c ea (veil g l s) = mapNext (veil g l) (branchWhen c ea s) := by
  cases c with
  | false => rfl
  | true =>
    rw [branchWhen, branchWhen, if_pos rfl, if_pos rfl, ← finish_veil, h s]
    cases ea s <;> rfl

theorem callWhen_veil (c : Bool) {ea : State → Res (Addr × State)} (h : Blind g l ea) (s : State) :
    callWhen c ea (veil g l s) = mapNext (veil g l) (callWhen c ea s) := by
  cases c with
  | false => rfl
  | true =>
    rw [callWhen, callWhen, if_pos rfl, if_pos rfl, ← finish_veil, h s]
    cases ea s <;> rfl

theorem countBranch_veil (d : Byte) (r : Reg) {ea : State → Res (Addr × State)} (h : Blind g l ea) (s : State) :
    countBranch d r ea (veil g l s) = mapNext (veil g l) (countBranch d r ea s) :=
  branchWhen_veil _ h (writeReg r (readReg r s + d) s)

theorem loadReg_veil (r : Reg) (v : Byte) (s : State) : loadReg r v (veil g l s) = veil g l (loadReg r v s) := rfl

theorem logic_veil (op : Byte → Byte → Byte) (r : Reg) (y : Byte) (s : State) :
    logic op r y (veil g l s) = veil g l (logic op r y s) := rfl

theorem arith_add8_veil (r : Reg) (y : Byte) (s : State) :
    arith add8 r y (veil g l s) = veil g l (arith add8 r y s) := rfl

theorem arith_sub8_veil (r : Reg) (y : Byte) (s : State) :
    arith sub8 r y (veil g l s) = veil g l (arith sub8 r y s) := rfl

/-- A comparison reads COM. -/
theorem comparing_veil (r : Reg) (y : Byte) (s : State) :
    comparing r y (veil id l s) = veil id l (comparing r y s) := rfl

theorem rotateInto_veil (r : Reg) (v : Byte) (c : Bool) (s : State) :
    rotateInto r v c (veil g l s) = veil g l (rotateInto r v c s) := by
  have hwc : (veil g l s).psl.wc = s.psl.wc := rfl
  have hread : readReg r (veil g l s) = readReg r s := rfl
  have hclears : (veil g l s).platform.rotateOvfClears = s.platform.rotateOvfClears := rfl
  simp only [rotateInto, hwc, hread, hclears]
  split_ifs <;> rfl

theorem readPort_veil (p : Port) (r : Reg) (s : State) : readPort p r (veil g l s) = veil g l (readPort p r s) := by
  rw [readPort, ioRead_veil]
  rfl

theorem sampleSense_veil (s : State) :
    sampleSense (veil g id s) = ((sampleSense s).1, veil g id (sampleSense s).2) := by
  obtain ⟨regs, psl, psu, iar, ras, mode, mem, platform, pins, senseIn, deviceIn, trace, draws⟩ := s
  cases senseIn <;> rfl

/-! ## Every instruction -/

/-- An instruction that reads or writes what is veiled only where the veil changes nothing runs alike. -/
theorem exec_veil {i : Instr} (hg : readsCompareMode i = true ∨ writesWholePsl i = true → g = id)
    (hl : readsSense i = true → l = id) (s : State) : exec i (veil g l s) = mapNext (veil g l) (exec i s) := by
  cases i with
  | lodz r => rfl
  | lodi r v => rfl
  | lodr r o => exact withRel_veil loadReg_veil r o s
  | loda r o => exact withAbs_veil loadReg_veil r o s
  | strz r => rfl
  | strr r o =>
    simp only [exec, execStrr]
    rw [eaRel_blind, ← finish_veil]
    cases eaRel o s with
    | error e => rfl
    | ok p => exact congrArg finish (memWrite_veil p.1 (readReg r p.2) p.2)
  | stra r o =>
    simp only [exec, execStra]
    rw [eaAbs_veil, ← finish_veil]
    cases eaAbs r o s with
    | error e => rfl
    | ok p => exact congrArg finish (memWrite_veil p.addr (readReg p.dreg p.state) p.state)
  | addz r => rfl
  | addi r v => rfl
  | addr r o => exact withRel_veil arith_add8_veil r o s
  | adda r o => exact withAbs_veil arith_add8_veil r o s
  | subz r => rfl
  | subi r v => rfl
  | subr r o => exact withRel_veil arith_sub8_veil r o s
  | suba r o => exact withAbs_veil arith_sub8_veil r o s
  | dar r =>
    have hp : (veil g l s).platform.darCcDefined = s.platform.darCcDefined := rfl
    simp only [exec, execDar, hp]
    split <;> rfl
  | andz r => rfl
  | andi r v => rfl
  | andr r o => exact withRel_veil (logic_veil _) r o s
  | anda r o => exact withAbs_veil (logic_veil _) r o s
  | iorz r => rfl
  | iori r v => rfl
  | iorr r o => exact withRel_veil (logic_veil _) r o s
  | iora r o => exact withAbs_veil (logic_veil _) r o s
  | eorz r => rfl
  | eori r v => rfl
  | eorr r o => exact withRel_veil (logic_veil _) r o s
  | eora r o => exact withAbs_veil (logic_veil _) r o s
  | comz r => obtain rfl := hg (.inl rfl); rfl
  | comi r v => obtain rfl := hg (.inl rfl); rfl
  | comr r o => obtain rfl := hg (.inl rfl); exact withRel_veil comparing_veil r o s
  | coma r o => obtain rfl := hg (.inl rfl); exact withAbs_veil comparing_veil r o s
  | rrr r => exact congrArg Host.Outcome.next (rotateInto_veil r _ _ s)
  | rrl r => exact congrArg Host.Outcome.next (rotateInto_veil r _ _ s)
  | lpsu => rfl
  | lpsl => obtain rfl := hg (.inr rfl); rfl
  | spsu =>
    obtain rfl := hl rfl
    rw [exec, execSpsu, sampleSense_veil]
    rfl
  | spsl => obtain rfl := hg (.inl rfl); rfl
  | ppsu v => rfl
  | ppsl v => obtain rfl := hg (.inr rfl); rfl
  | cpsu v => rfl
  | cpsl v => obtain rfl := hg (.inr rfl); rfl
  | tpsu v =>
    obtain rfl := hl rfl
    rw [exec, execTpsu, sampleSense_veil]
    rfl
  | tpsl v => obtain rfl := hg (.inl rfl); rfl
  | bctr c o => exact branchWhen_veil _ (eaRel_blind o) s
  | bcta c o => exact branchWhen_veil _ (eaBra_blind o) s
  | bcfr c o => exact branchWhen_veil _ (eaRel_blind o) s
  | bcfa c o => exact branchWhen_veil _ (eaBra_blind o) s
  | brnr r o => exact branchWhen_veil _ (eaRel_blind o) s
  | brna r o => exact branchWhen_veil _ (eaBra_blind o) s
  | birr r o => exact countBranch_veil _ r (eaRel_blind o) s
  | bira r o => exact countBranch_veil _ r (eaBra_blind o) s
  | bdrr r o => exact countBranch_veil _ r (eaRel_blind o) s
  | bdra r o => exact countBranch_veil _ r (eaBra_blind o) s
  | bxa o => exact branchWhen_veil true (eaBx_blind o) s
  | zbrr o => exact branchWhen_veil true (eaZero_blind o) s
  | bstr c o => exact callWhen_veil _ (eaRel_blind o) s
  | bsta c o => exact callWhen_veil _ (eaBra_blind o) s
  | bsfr c o => exact callWhen_veil _ (eaRel_blind o) s
  | bsfa c o => exact callWhen_veil _ (eaBra_blind o) s
  | bsnr r o => exact callWhen_veil _ (eaRel_blind o) s
  | bsna r o => exact callWhen_veil _ (eaBra_blind o) s
  | bsxa o => exact callWhen_veil true (eaBx_blind o) s
  | zbsr o => exact callWhen_veil true (eaZero_blind o) s
  | retc c =>
    have hc : condTrue c (veil g l s).psl = condTrue c s.psl := rfl
    rw [exec, exec, execRetc, execRetc, hc]
    split <;> rfl
  | rete c =>
    have hc : condTrue c (veil g l s).psl = condTrue c s.psl := rfl
    rw [exec, exec, execRete, execRete, hc]
    split <;> rfl
  | redd r => exact congrArg Host.Outcome.next (readPort_veil _ r s)
  | redc r => exact congrArg Host.Outcome.next (readPort_veil _ r s)
  | rede r v => exact congrArg Host.Outcome.next (readPort_veil _ r s)
  | wrtd r => rfl
  | wrtc r => rfl
  | wrte r v => rfl
  | halt => rfl
  | nop => rfl
  | tmi r v => rfl

end

/-! ## The obligations -/

/-- Settles O41: the samples of SENSE under a veil. -/
theorem senseReadersOnly : Obligations.SenseReadersOnly := by
  intro i s l hs
  rw [withSense_eq_veil]
  exact exec_veil (fun _ => rfl) (fun h => nomatch hs.symm.trans h) s

/-- The instructions that write the PSL as a whole write every bit but COM from bits other than COM. -/
theorem writesWholePsl_hides_com {i : Instr} (hw : writesWholePsl i = true) (s : State) (b : Bool) :
    mapNext (withCom false) (exec i (withCom b s)) = mapNext (withCom false) (exec i s) := by
  have same {p q : Psl} (h : { p with com := false } = { q with com := false }) :
      mapNext (withCom false) (.next ((withCom b s).setPsl p)) = mapNext (withCom false) (.next (s.setPsl q)) :=
    congrArg (fun x => Host.Outcome.next (s.setPsl x)) h
  unfold writesWholePsl at hw
  split at hw
  · exact same rfl
  · refine same ?_
    rw [pslOfByte_or, pslOfByte_or, pslOfByte_pslByte, pslOfByte_pslByte]
    rfl
  · refine same ?_
    rw [pslOfByte_and, pslOfByte_and, pslOfByte_pslByte, pslOfByte_pslByte]
    rfl
  · cases hw

theorem mapNext_withCom_withCom (a b : Bool) (x : Host.Outcome State Fault Refusal) :
    mapNext (withCom a) (mapNext (withCom b) x) = mapNext (withCom a) x := by
  cases x <;> rfl

/-- Settles O39: the frame of COM, COM under a veil, and the order of the bytes as COM reads them. -/
theorem compareModeBit : Obligations.CompareModeBit := by
  refine ⟨fun i s t hw h => ?_, fun i s b hr => ?_, fun x y => ⟨?_, ?_⟩⟩
  · obtain ⟨-, -, hcom⟩ := (Frame.of_exec h).modes hw
    exact hcom
  · cases hw : writesWholePsl i with
    | true => exact writesWholePsl_hides_com hw s b
    | false =>
      have alike : exec i (withCom b s) = mapNext (withCom b) (exec i s) := by
        rw [withCom_eq_veil]
        exact exec_veil (fun h => by simp [hr, hw] at h) (fun _ => rfl) s
      rw [alike, mapNext_withCom_withCom]
  · exact compareCC_compared true x y
  · exact compareCC_compared false x y

end Sys2Proof.Machine
end

section
/-! PROOF. Memory: what a step does to it, reads after writes, and accesses where the platform has nothing. -/

namespace Sys2Proof.Machine

/-! ## States with one memory -/

/-- `t` has the memory and the platform of `s`, and so every byte of `s`. -/
structure SameMemory (s t : State) : Prop where
  mem : t.mem = s.mem
  platform : t.platform = s.platform

namespace SameMemory

variable {s t u : State}

theorem trans (h : SameMemory s t) (k : SameMemory t u) : SameMemory s u :=
  ⟨k.mem.trans h.mem, k.platform.trans h.platform⟩

theorem of_busOnly (h : BusOnly s t) : SameMemory s t := ⟨BusOnly_mem h, BusOnly_platform h⟩

theorem of_fetchOnly (h : FetchOnly s t) : SameMemory s t :=
  ⟨by rw [h.1], by rw [h.1]⟩

theorem passBoundary (s : State) : SameMemory s (passBoundary s) := ⟨passBoundary_mem s, passBoundary_platform s⟩

theorem stepIndex (r : Reg) (ctl : IndexControl) (s : State) : SameMemory s (stepIndex r ctl s) :=
  ⟨stepIndex_mem r ctl s, stepIndex_platform r ctl s⟩

/-- RESET keeps memory (10_state R33). -/
theorem resetEvent (s : State) : SameMemory s (resetEvent s) := ⟨rfl, rfl⟩

/-- Interrupt entry writes no memory. -/
theorem of_interrupt (h : interrupt s = .ok t) : SameMemory s t := by
  obtain ⟨a, u, -, hu, rfl⟩ := interrupt_ok h
  have hset : SameMemory s (setInhibit true s) := ⟨rfl, rfl⟩
  exact (hset.trans (of_busOnly hu)).trans ⟨rfl, rfl⟩

theorem kindAt (h : SameMemory s t) (a : Addr) : kindAt t.platform a = kindAt s.platform a := by
  rw [h.platform]

theorem peek (h : SameMemory s t) (a : Addr) : peek t a = peek s a := peek_congr h.mem h.platform a

theorem canonical (h : SameMemory s t) (hc : Canonical s) : Canonical t := Canonical_congr h.mem h.platform hc

end SameMemory

/-! ## One write -/

theorem memWrite_platform {a : Addr} {v : Byte} {s t : State} (h : memWrite a v s = .ok t) : t.platform = s.platform := by
  rw [memWrite_only h]

/-- A write changes no byte of ROM, of a device or of a hole: where it changes a byte, it is RAM that it reaches. -/
theorem peek_memWrite_of_not_ram {a b : Addr} {v : Byte} {s t : State} (hc : Canonical s) (h : memWrite a v s = .ok t)
    (hb : kindAt s.platform b ≠ .ram) : peek t b = peek s b := by
  have hs := memWrite_stored hc h
  unfold Stored at hs
  split at hs
  next ha =>
    have hne : ¬ sameByte s.platform a b := fun hab => hb ((kindAt_sameByte hab).trans ha)
    exact (hs.2 b).2 hne
  next => rw [hs]
  next => rw [hs]; rfl
  next => exact hs.elim

/-- What is written to RAM is read at every address of that byte. -/
theorem memRead_poke_same {a b : Addr} (v : Byte) {s : State} (hc : Canonical s)
    (ha : kindAt s.platform a = .ram) (hab : sameByte s.platform a b) :
    memRead b (poke a v s) = .ok (v, poke a v s) := by
  have hb : Plain (poke a v s) b := .inl ((kindAt_sameByte hab).trans ha)
  rw [memRead_plain b _ hb, peek_poke_same v hc hab]

/-- A write to RAM changes the read of no other byte. -/
theorem memRead_poke_other {a b : Addr} (v : Byte) {s : State} (hc : Canonical s) (hb : Plain s b)
    (hab : ¬ sameByte s.platform a b) : memRead b (poke a v s) = .ok (peek s b, poke a v s) := by
  have hb' : Plain (poke a v s) b := hb
  rw [memRead_plain b _ hb', peek_poke_other v hc hab]

/-! ## What a step does to memory -/

/-- Memory as a step leaves it: as it was, or after one write by the platform's rules. -/
inductive MemoryStep (s t : State) : Prop where
  | kept (h : SameMemory s t)
  | wrote {a : Addr} {v : Byte} {u : State} (h : SameMemory s u) (hw : memWrite a v u = .ok t)

namespace MemoryStep

variable {s t u : State}

theorem of_same (h : SameMemory s u) : MemoryStep u t → MemoryStep s t
  | kept k => kept (h.trans k)
  | wrote k hw => wrote (h.trans k) hw

theorem platform : MemoryStep s t → t.platform = s.platform
  | kept h => h.platform
  | wrote h hw => (memWrite_platform hw).trans h.platform

theorem canonical (hc : Canonical s) : MemoryStep s t → Canonical t
  | kept h => h.canonical hc
  | wrote h hw => memWrite_canonical (h.canonical hc) hw

theorem peek_of_not_ram (hc : Canonical s) {a : Addr} (ha : kindAt s.platform a ≠ .ram) :
    MemoryStep s t → peek t a = peek s a
  | kept h => h.peek a
  | wrote h hw => by
    rw [← h.kindAt] at ha
    exact (peek_memWrite_of_not_ram (h.canonical hc) hw ha).trans (h.peek a)

/-- Only STRR and STRA write, and each makes one write after accesses that keep memory (10_state R34). -/
theorem of_exec {i : Instr} (h : exec i s = .next t) : MemoryStep s t := by
  cases hi : storesMemory i with
  | false => exact kept ⟨(Frame.of_exec h).mem hi, (Frame.of_exec h).platform⟩
  | true =>
    unfold storesMemory at hi
    split at hi
    · obtain ⟨a, u, -, hu, hw⟩ := exec_cases h
      exact wrote (.of_busOnly hu) hw
    · obtain ⟨a, u, -, hu, hw⟩ := exec_cases h
      exact wrote ((SameMemory.stepIndex _ _ s).trans (.of_busOnly hu)) hw
    · cases hi

/-- RESET, interrupt entry, the wait and the fetch keep memory, so a step does what its instruction does. -/
theorem of_step (h : step s = .next t) : MemoryStep s t := by
  have hb := SameMemory.passBoundary s
  rcases step_cases h with ⟨-, rfl⟩ | ⟨-, -, -, hint⟩ | ⟨-, -, -, rfl⟩ | ⟨-, i, u, hf, he⟩
  · exact kept (hb.trans (.resetEvent _))
  · exact kept (hb.trans (.of_interrupt hint))
  · exact kept hb
  · exact (of_exec he).of_same (hb.trans (.of_fetchOnly (fetchInstr_fetchOnly hf)))

end MemoryStep

/-! ## Accesses where the platform has nothing -/

section Absent

variable {s s' : State} {a : Addr}

theorem withRel_absent (f : Reg → Byte → State → State) (r : Reg) {o : RelArg} (h : eaRel o s = .ok (a, s'))
    (ha : kindAt s'.platform a = .absent) : withRel f r o s = .fault (.neverAcknowledged a) := by
  rw [withRel, operandRel, Res_bind_of_ok h, memRead_absent ha]
  rfl

theorem execStrr_absent (r : Reg) {o : RelArg} (h : eaRel o s = .ok (a, s')) (ha : kindAt s'.platform a = .absent) :
    execStrr r o s = .fault (.neverAcknowledged a) := by
  rw [execStrr, Res_bind_of_ok h, memWrite_absent ha]
  rfl

theorem withAbs_absent (f : Reg → Byte → State → State) {r d : Reg} {o : AbsArg} (h : eaAbs r o s = .ok ⟨a, d, s'⟩)
    (ha : kindAt s'.platform a = .absent) : withAbs f r o s = .fault (.neverAcknowledged a) := by
  rw [withAbs, operandAbs, Res_bind_of_ok h, memRead_absent ha]
  rfl

theorem execStra_absent {r d : Reg} {o : AbsArg} (h : eaAbs r o s = .ok ⟨a, d, s'⟩)
    (ha : kindAt s'.platform a = .absent) : execStra r o s = .fault (.neverAcknowledged a) := by
  rw [execStra, Res_bind_of_ok h, memWrite_absent ha]
  rfl

end Absent

/-- A store by STRR to RAM, of the register as it was before the address was formed. -/
theorem execStrr_ram (r : Reg) {o : RelArg} {s s' : State} {a : Addr} (h : eaRel o s = .ok (a, s'))
    (ha : kindAt s'.platform a = .ram) : execStrr r o s = .next (poke a (readReg r s) s') := by
  rw [execStrr, Res_bind_of_ok h, memWrite_ram ha, BusOnly_readReg (eaRel_busOnly h)]
  rfl

/-- A fetch at an address of RAM or ROM. -/
theorem fetchByte_at {s : State} {a : Addr} (h : Plain s a) :
    fetchByte { s with iar := a } = .ok (peek s a, { s with iar := nextAddr a }) :=
  fetchByte_plain { s with iar := a } h

/-! ## The obligations -/

/-- Settles O10: the invariant over the one write that a step can make. -/
theorem memoryStaysCanonical : Obligations.MemoryStaysCanonical := fun _ _ hc h =>
  (MemoryStep.of_step h).canonical hc

/-- Settles O13: a step's one write reaches only RAM and leaves the platform. -/
theorem platformAndRomNeverChange : Obligations.PlatformAndRomNeverChange := by
  intro s t hc h
  have hm := MemoryStep.of_step h
  exact ⟨hm.platform, fun _ ha => hm.peek_of_not_ram hc ha⟩

/-- Settles O11: the write is `poke`, whose byte is read at every address of its place and nowhere else. -/
theorem memoryReadAfterWrite : Obligations.MemoryReadAfterWrite := fun a _ v s hc ha hb =>
  ⟨poke a v s, memWrite_ram ha, memRead_poke_same v hc ha, memRead_poke_other v hc hb⟩

/-- Settles O9: the read or the write stops at the address that the operand form gave, on the platform of `s`. -/
theorem unansweredAccessStops : Obligations.UnansweredAccessStops := by
  refine ⟨fun r o s a s' h ha => ?_, fun r d o s a s' h ha => ?_⟩
  · rw [← BusOnly_platform (eaRel_busOnly h)] at ha
    have read (f : Reg → Byte → State → State) := withRel_absent f r h ha
    exact ⟨read _, execStrr_absent r h ha, read _, read _, read _, read _, read _, read _⟩
  · rw [← stepIndex_platform r o.ctl s, ← BusOnly_platform (eaAbs_busOnly h)] at ha
    have read (f : Reg → Byte → State → State) := withAbs_absent f h ha
    exact ⟨read _, execStra_absent h ha, read _, read _, read _, read _, read _, read _⟩

/-- Settles O14: the fetch reads the byte that the store put in RAM. -/
theorem storeSeenByFetch : Obligations.StoreSeenByFetch := by
  intro r o s a s' hc h ha
  have hm : SameMemory s s' := .of_busOnly (eaRel_busOnly h)
  have ha' : kindAt s'.platform a = .ram := (hm.kindAt a).trans ha
  have hfetch := fetchByte_at (s := poke a (readReg r s) s') (.inl ha')
  rw [peek_poke_same _ (hm.canonical hc) (.inl rfl)] at hfetch
  exact ⟨_, _, execStrr_ram r h ha', hfetch⟩

/-- Settles O60: addresses with one offset are one byte where the page lines are ignored, and the canonical form is that of
8,192 bytes; where they are decoded, only equal addresses are one byte. -/
theorem mirroredPages : Obligations.MirroredPages := by
  refine ⟨fun a b s hp hab => ?_, fun s hp hc => ?_, fun a b v s hp hc ha hne => ?_⟩
  · have hsame : sameByte s.platform a b := .inr ⟨hp, hab⟩
    refine ⟨(kindAt_sameByte hsame).symm, (peek_sameByte hsame).symm, fun hc ha v => ?_⟩
    exact ⟨poke a v s, memWrite_ram ha, memRead_poke_same v hc ha hsame⟩
  · have hsize : memSize s.platform = 8192 := by rw [memSize, hp]
    rw [Canonical, hsize] at hc
    exact Memory_wfFrom_lt 0 8192 s.mem hc
  · have hother : ¬ sameByte s.platform a b := by
      rintro (h | ⟨h, -⟩)
      · exact hne h
      · rw [hp] at h
        cases h
    exact ⟨poke a v s, memWrite_ram ha, peek_poke_other v hc hother⟩

end Sys2Proof.Machine
end

section
/-! PROOF. The addresses that operands form (20_memory R50 to R56): each operand form resolves one base address, given
here in the spec's own arithmetic. -/

namespace Sys2Proof.Machine

/-! ## Indirection -/

/-- With the indirect bit clear the address itself is meant, with the bit set the pointer there (20_memory R49). -/
theorem resolve_by_indirect_bit (ind : Bool) (p : Addr) (s : State) :
    (ind = false → resolve ind p s = .ok (p, s)) ∧ (ind = true → resolve ind p s = readIndirect p s) :=
  ⟨fun h => by rw [h, resolve_direct], fun h => by rw [h, resolve_indirect]⟩

/-- A pointer in RAM or ROM, its second byte in the page of the first. -/
theorem readIndirect_plainPointer {p : Addr} {s : State} (h : PlainPointer s p) :
    readIndirect p s = .ok (pointerAt s p, s) := by
  obtain ⟨hi, lo⟩ := h
  rw [← nextAddr_eq_inPage] at lo
  exact readIndirect_plain p s hi lo

theorem resolve_plain {ind : Bool} {p : Addr} {s : State} (h : ind = true → PlainPointer s p) :
    resolve ind p s = .ok (meant ind s p, s) := by
  cases ind with
  | false => exact resolve_direct p s
  | true => exact readIndirect_plainPointer (h rfl)

namespace SameMemory

variable {s t : State}

theorem plainPointer (h : SameMemory s t) {p : Addr} (hp : PlainPointer s p) : PlainPointer t p := by
  rw [PlainPointer, Plain, Plain, h.platform]
  exact hp

theorem meant (h : SameMemory s t) (ind : Bool) (p : Addr) : meant ind t p = meant ind s p := by
  rw [Machine.meant, Machine.meant, pointerAt, pointerAt, h.peek, h.peek]

end SameMemory

/-! ## The base address of each operand form -/

theorem eaRel_eq_resolve (o : RelArg) (s : State) : eaRel o s = resolve o.ind (relBase o s) s := by
  rw [eaRel, addOffset_displacement]

theorem eaZero_eq_resolve (o : RelArg) (s : State) : eaZero o s = resolve o.ind (zeroBase o) s := by
  rw [eaZero, mkAddr_displacement]

theorem eaBra_eq_resolve (o : BraArg) (s : State) : eaBra o s = resolve o.ind o.addr s := rfl

/-- The indirect bit and the displacement of byte 1 as numbers (30_encoding R76). -/
theorem relArg_fields (b1 : Byte) : (relArg b1).ind = b1.getLsbD 7 ∧ (relArg b1).disp.toNat = b1.toNat % 128 := by
  simp [relArg]

/-- The 15-bit address of bytes 1 and 2 as a number (30_encoding R79). -/
theorem braArg_addr_toNat (b1 b2 : Byte) : (braArg b1 b2).addr.toNat = b1.toNat % 128 * 256 + b2.toNat := by
  have haddr : (braArg b1 b2).addr = BitVec.ofNat 15 (b1.toNat % 128 * 256 + b2.toNat) := pointer_eq_ofNat b1 b2
  have hb2 := b2.isLt
  rw [haddr, BitVec.toNat_ofNat]
  omega

/-! ## The vector of an interrupt -/

/-- The acknowledge reads the next byte of the platform's list (60_exceptions R226). -/
theorem intAckRead_listed {s : State} {v : Byte} {rest : List Byte} (h : s.deviceIn = v :: rest) :
    (intAckRead s).1 = v := by
  simp only [intAckRead, busByte, h]

/-- A direct vector is the zero-page address itself (60_exceptions R227). -/
theorem interrupt_direct {s : State} {v : Byte} (hv : (intAckRead (setInhibit true s)).1 = v)
    (hd : (relArg v).ind = false) : ∃ t, interrupt s = .ok t ∧ t.iar = zeroBase (relArg v) := by
  rw [interrupt, hv, eaZero_eq_resolve, hd, resolve_direct]
  exact ⟨_, rfl, rfl⟩

/-- A subroutine branch leads to its target. -/
theorem Called_iar {a : Addr} {s t : State} (h : Called a s t) : t.iar = a := by
  rw [h.1]

/-! ## Absolute addressing of non-branch instructions -/

/-- What the update of the index register does: the register, and nothing else; it writes no flag (20_memory R53). -/
theorem stepIndex_result (r : Reg) (o : AbsArg) (s : State) :
    RegResult r (indexValue r o s) s.psl s (stepIndex r o.ctl s) := by
  have hread (q : Reg) := readReg_stepIndex q r o s
  simp only [readReg, stepIndex_psl] at hread
  rcases stepIndex_cases r o.ctl s with h | ⟨v, h⟩
  · rw [h] at hread ⊢
    exact ⟨rfl, hread, rfl⟩
  · rw [h] at hread ⊢
    exact ⟨rfl, hread, bankOf_not_regsWrite s.psl.rs r v s.regs⟩

section

variable {r : Reg} {o : AbsArg} {s : State} (hp : o.ind = true → PlainPointer s (absBase o s))

include hp

/-- The base of an absolute operand is resolved after the index register update, over the memory before it. -/
theorem resolve_absBase :
    resolve o.ind (mkAddr (pageOf s.iar) o.addr) (stepIndex r o.ctl s) =
      .ok (meant o.ind s (absBase o s), stepIndex r o.ctl s) := by
  have hm := SameMemory.stepIndex r o.ctl s
  rw [mkAddr_page, resolve_plain fun h => hm.plainPointer (hp h), hm.meant]

theorem eaAbs_notIndexed (hc : o.ctl = .none) :
    eaAbs r o s = .ok { addr := meant o.ind s (absBase o s), dreg := r, state := stepIndex r o.ctl s } := by
  rw [eaAbs, Res_bind_of_ok (resolve_absBase hp), if_pos hc]

/-- An indexed address is the resolved base plus the index after its update, and R0 is the data register. -/
theorem eaAbs_indexed (hc : o.ctl ≠ .none) :
    eaAbs r o s =
      (addIndex (meant o.ind s (absBase o s)) (indexValue r o s) (stepIndex r o.ctl s)).map fun a =>
        { addr := a, dreg := .r0, state := stepIndex r o.ctl s } := by
  rw [eaAbs, Res_bind_of_ok (resolve_absBase hp), if_neg hc, readReg_stepIndex, if_pos rfl]

end

/-! ## The obligations -/

/-- Settles O15: the base and its indirection. -/
theorem relativeAddressing : Obligations.RelativeAddressing := by
  refine ⟨relArg_fields, fun o s => ?_⟩
  rw [eaRel_eq_resolve]
  exact resolve_by_indirect_bit o.ind _ s

/-- Settles O18: a pointer in RAM or ROM. -/
theorem indirectPointer : Obligations.IndirectPointer := fun _ _ h => readIndirect_plainPointer h

/-- Settles O17: the base and its indirection; condition 3 always holds, so BCTA goes to the address that is meant. -/
theorem branchAddressing : Obligations.BranchAddressing := by
  refine ⟨fun b1 b2 => ⟨rfl, braArg_addr_toNat b1 b2⟩, fun o s => ?_⟩
  obtain ⟨direct, indirect⟩ := resolve_by_indirect_bit o.ind o.addr s
  exact ⟨direct, indirect, fun a s' h => branchWhen_taken ((condTrue_iff 3 s.psl).2 (.inl rfl)) h⟩

/-- Settles O16: the base and its indirection, ZBRR and ZBSR taken there, and the vector that the acknowledge reads. -/
theorem zeroPageAddressing : Obligations.ZeroPageAddressing := by
  intro o s
  obtain ⟨direct, indirect⟩ := resolve_by_indirect_bit o.ind (zeroBase o) s
  rw [← eaZero_eq_resolve] at direct indirect
  refine ⟨direct, indirect, fun a s' h => ⟨branchWhen_taken rfl h, ?_⟩, fun v rest hv hd => ?_⟩
  · obtain ⟨t, ht, hcalled⟩ := callWhen_taken rfl h
    exact ⟨t, ht, Called_iar hcalled⟩
  · exact interrupt_direct (intAckRead_listed (s := setInhibit true s) hv) hd

/-- Settles O19: the index register update, the base resolved after it, and the indexed sum inside the page, wrapped, or
refused. -/
theorem absoluteAddressing : Obligations.AbsoluteAddressing := by
  intro r o s hp
  refine ⟨stepIndex_result r o s, eaAbs_notIndexed hp, fun hc hw => ?_, fun hc hr hsum => ?_⟩
  · rw [eaAbs_indexed hp hc, addIndex_inPage (by rwa [stepIndex_platform])]
    rfl
  · rw [eaAbs_indexed hp hc, addIndex_refused (by rwa [stepIndex_platform]) hsum]
    exact ⟨_, rfl⟩

end Sys2Proof.Machine
end

section
/-! PROOF. The encoding (30_encoding R70 to R88): what byte 0 made from its fields decodes to, the decoding of each format,
and that every answer to a byte 0 is faithful to it. -/

namespace Sys2Proof.Machine

/-! ## Byte 0 from its fields -/

/-- Every condition field is the field of a register number. -/
theorem regBits_surjective (c : Cond) : ∃ r, regBits r = c := ⟨regOfBits c, regBits_regOfBits c⟩

section
variable (f : BitVec 3) (r : Reg)

theorem decodeFirst_class0 : decodeFirst (firstByte f 0 (regBits r)) = decodeClass0 f.toNat r := by
  simp [decodeFirst, firstByte_function, firstByte_class, firstByte_register, regOfBits_regBits]

theorem decodeFirst_class1 :
    decodeFirst (firstByte f 1 (regBits r)) = decodeClass1 f.toNat (firstByte f 1 (regBits r)) r := by
  simp [decodeFirst, firstByte_function, firstByte_class, firstByte_register, regOfBits_regBits]

theorem decodeFirst_class2 : decodeFirst (firstByte f 2 (regBits r)) = decodeClass2 f.toNat r := by
  simp [decodeFirst, firstByte_function, firstByte_class, firstByte_register, regOfBits_regBits]

theorem decodeFirst_class3 : decodeFirst (firstByte f 3 (regBits r)) = decodeClass3 f.toNat r := by
  simp [decodeFirst, firstByte_function, firstByte_class, firstByte_register, regOfBits_regBits]

theorem decodeFirst_class4 :
    decodeFirst (firstByte f 4 (regBits r)) = decodeClass4 f.toNat (firstByte f 4 (regBits r)) r := by
  simp [decodeFirst, firstByte_function, firstByte_class, firstByte_register, regOfBits_regBits]

theorem decodeFirst_class5 :
    decodeFirst (firstByte f 5 (regBits r)) = decodeClass5 f.toNat (firstByte f 5 (regBits r)) r (regBits r) := by
  simp [decodeFirst, firstByte_function, firstByte_class, firstByte_register, regOfBits_regBits]

theorem decodeFirst_class6 : decodeFirst (firstByte f 6 (regBits r)) = decodeClass6 f.toNat r (regBits r) := by
  simp [decodeFirst, firstByte_function, firstByte_class, firstByte_register, regOfBits_regBits]

theorem decodeFirst_class7 : decodeFirst (firstByte f 7 (regBits r)) = decodeClass7 f.toNat r (regBits r) := by
  simp [decodeFirst, firstByte_function, firstByte_class, firstByte_register, regOfBits_regBits]

end

/-! ## Decoding what the encoder makes, one lemma for each format -/

section
variable {f c : BitVec 3} {r : BitVec 2} {rest : List Byte}

theorem decode_encodeZ {i : Instr} (h : decodeFirst (firstByte f c r) = .ok (.one i)) :
    decode (encodeZ f c r ++ rest) = .ok (i, rest) := by
  simp [encodeZ, decode, h]

theorem decode_encodeI {g : Byte → Instr} {v : Byte} (h : decodeFirst (firstByte f c r) = .ok (.two g)) :
    decode (encodeI f c r v ++ rest) = .ok (g v, rest) := by
  simp [encodeI, decode, h]

theorem decode_encodeR {g : RelArg → Instr} {o : RelArg}
    (h : decodeFirst (firstByte f c r) = .ok (.two fun b1 => g (relArg b1))) :
    decode (encodeR f c r o ++ rest) = .ok (g o, rest) := by
  simp [encodeR, decode, h, relArg_relByte]

theorem decode_encodeA {g : AbsArg → Instr} {o : AbsArg}
    (h : decodeFirst (firstByte f c r) = .ok (.three fun b1 b2 => g (absArg b1 b2))) :
    decode (encodeA f c r o ++ rest) = .ok (g o, rest) := by
  simp [encodeA, decode, h, absArg_absByte]

theorem decode_encodeB {g : BraArg → Instr} {o : BraArg}
    (h : decodeFirst (firstByte f c r) = .ok (.three fun b1 b2 => g (braArg b1 b2))) :
    decode (encodeB f c r o ++ rest) = .ok (g o, rest) := by
  simp [encodeB, decode, h, braArg_braByte]

end

/-- Settles O1: format by format within each class. Well-formedness is what the shared codes turn on: register 0 in
class 0, condition 3 in the branches on false. -/
theorem decodeEncodeRoundTrip : Obligations.DecodeEncodeRoundTrip := by
  intro i rest hwf
  cases i with
  -- Class 0
  | lodz r | andz r | strz r =>
    have hr : r ≠ .r0 := by simpa [Instr.wf] using hwf
    exact decode_encodeZ ((decodeFirst_class0 _ r).trans (by simp [decodeClass0, hr]))
  | eorz r | iorz r | addz r | subz r | comz r => exact decode_encodeZ (decodeFirst_class0 _ r)
  | halt | nop => exact decode_encodeZ (decodeFirst_class0 _ .r0)
  -- Class 1
  | lodi r v | eori r v | andi r v | iori r v | addi r v | subi r v | comi r v =>
    exact decode_encodeI (decodeFirst_class1 _ r)
  -- Class 2
  | lodr r o | eorr r o | andr r o | iorr r o | addr r o | subr r o | strr r o | comr r o =>
    exact decode_encodeR (decodeFirst_class2 _ r)
  -- Class 3
  | loda r o | eora r o | anda r o | iora r o | adda r o | suba r o | stra r o | coma r o =>
    exact decode_encodeA (decodeFirst_class3 _ r)
  -- Class 4
  | spsu | lpsu => exact decode_encodeZ (decodeFirst_class4 _ .r2)
  | spsl | lpsl => exact decode_encodeZ (decodeFirst_class4 _ .r3)
  | redc r | rrr r | redd r | wrtc r | rrl r | wrtd r => exact decode_encodeZ (decodeFirst_class4 _ r)
  -- Class 5
  | retc c | rete c =>
    obtain ⟨r, rfl⟩ := regBits_surjective c
    exact decode_encodeZ (decodeFirst_class5 _ r)
  | dar r => exact decode_encodeZ (decodeFirst_class5 _ r)
  | rede r v | wrte r v | tmi r v => exact decode_encodeI (decodeFirst_class5 _ r)
  | cpsu v | tpsu v => exact decode_encodeI (decodeFirst_class5 _ .r0)
  | cpsl v | tpsl v => exact decode_encodeI (decodeFirst_class5 _ .r1)
  | ppsu v => exact decode_encodeI (decodeFirst_class5 _ .r2)
  | ppsl v => exact decode_encodeI (decodeFirst_class5 _ .r3)
  -- Class 6
  | bctr c o | bstr c o =>
    obtain ⟨r, rfl⟩ := regBits_surjective c
    exact decode_encodeR (decodeFirst_class6 _ r)
  | bcfr c o | bsfr c o =>
    have hc : c ≠ 3#2 := by simpa [Instr.wf] using hwf
    obtain ⟨r, rfl⟩ := regBits_surjective c
    exact decode_encodeR ((decodeFirst_class6 _ r).trans (by simp [decodeClass6, hc]))
  | brnr r o | bsnr r o | birr r o | bdrr r o => exact decode_encodeR (decodeFirst_class6 _ r)
  | zbrr o | zbsr o => exact decode_encodeR (decodeFirst_class6 _ .r3)
  -- Class 7
  | bcta c o | bsta c o =>
    obtain ⟨r, rfl⟩ := regBits_surjective c
    exact decode_encodeB (decodeFirst_class7 _ r)
  | bcfa c o | bsfa c o =>
    have hc : c ≠ 3#2 := by simpa [Instr.wf] using hwf
    obtain ⟨r, rfl⟩ := regBits_surjective c
    exact decode_encodeB ((decodeFirst_class7 _ r).trans (by simp [decodeClass7, hc]))
  | brna r o | bsna r o | bira r o | bdra r o => exact decode_encodeB (decodeFirst_class7 _ r)
  | bxa o | bsxa o => exact decode_encodeB (decodeFirst_class7 _ .r3)

/-! ## Every answer is faithful to byte 0 -/

/-- What an answer to byte 0 has to be: a refusal that names the byte, or instructions that all exist and whose bytes are
byte 0 and then the bytes they were made from (30_encoding R86, R88). -/
def Faithful (b0 : Byte) : Except DecodeError Shape → Prop
  | .error e => e = .indeterminate ∧ b0 = 0 ∨ e = .undefined b0 ∧ b0 ∈ undefinedCodes
  | .ok (.one i) => i.wf = true ∧ encode i = [b0]
  | .ok (.two g) => ∀ b1, (g b1).wf = true ∧ encode (g b1) = [b0, b1]
  | .ok (.three g) => ∀ b1 b2, (g b1 b2).wf = true ∧ encode (g b1 b2) = [b0, b1, b2]

theorem encodeR_relArg (f c : BitVec 3) (r : BitVec 2) (b1 : Byte) :
    encodeR f c r (relArg b1) = [firstByte f c r, b1] := by
  rw [encodeR, relByte_relArg]

theorem encodeA_absArg (f c : BitVec 3) (r : BitVec 2) (b1 b2 : Byte) :
    encodeA f c r (absArg b1 b2) = [firstByte f c r, b1, b2] := by
  rw [encodeA, absByte1_absArg, absLow_absArg]

theorem encodeB_braArg (f c : BitVec 3) (r : BitVec 2) (b1 b2 : Byte) :
    encodeB f c r (braArg b1 b2) = [firstByte f c r, b1, b2] := by
  rw [encodeB, braByte1_braArg, braLow_braArg]

/-- A function or class field is one of eight. -/
theorem field_cases {P : BitVec 3 → Prop} (f0 : P 0) (f1 : P 1) (f2 : P 2) (f3 : P 3) (f4 : P 4) (f5 : P 5) (f6 : P 6)
    (f7 : P 7) (f : BitVec 3) : P f := by
  have hf : f = 0 ∨ f = 1 ∨ f = 2 ∨ f = 3 ∨ f = 4 ∨ f = 5 ∨ f = 6 ∨ f = 7 := by
    revert f
    decide
  rcases hf with rfl | rfl | rfl | rfl | rfl | rfl | rfl | rfl <;> assumption

section
variable (f : BitVec 3) (r : Reg)

theorem decodeClass0_faithful : Faithful (firstByte f 0 (regBits r)) (decodeClass0 f.toNat r) := by
  induction f using field_cases with
  | f0 => cases r with
    | r0 => exact .inl ⟨rfl, rfl⟩
    | r1 | r2 | r3 => exact ⟨rfl, rfl⟩
  | f2 | f6 => cases r <;> exact ⟨rfl, rfl⟩
  | f1 | f3 | f4 | f5 | f7 => exact ⟨rfl, rfl⟩

theorem decodeClass1_faithful :
    Faithful (firstByte f 1 (regBits r)) (decodeClass1 f.toNat (firstByte f 1 (regBits r)) r) := by
  induction f using field_cases with
  | f6 => exact .inr ⟨rfl, by cases r <;> decide⟩
  | f0 | f1 | f2 | f3 | f4 | f5 | f7 => exact fun _ => ⟨rfl, rfl⟩

theorem decodeClass2_faithful : Faithful (firstByte f 2 (regBits r)) (decodeClass2 f.toNat r) := by
  induction f using field_cases <;> exact fun b1 => ⟨rfl, encodeR_relArg _ 2 (regBits r) b1⟩

theorem decodeClass3_faithful : Faithful (firstByte f 3 (regBits r)) (decodeClass3 f.toNat r) := by
  induction f using field_cases <;> exact fun b1 b2 => ⟨rfl, encodeA_absArg _ 3 (regBits r) b1 b2⟩

theorem decodeClass4_faithful :
    Faithful (firstByte f 4 (regBits r)) (decodeClass4 f.toNat (firstByte f 4 (regBits r)) r) := by
  induction f using field_cases with
  | f0 | f4 => cases r with
    | r0 | r1 => exact .inr ⟨rfl, by decide⟩
    | r2 | r3 => exact ⟨rfl, rfl⟩
  | f1 | f2 | f3 | f5 | f6 | f7 => exact ⟨rfl, rfl⟩

theorem decodeClass5_faithful :
    Faithful (firstByte f 5 (regBits r)) (decodeClass5 f.toNat (firstByte f 5 (regBits r)) r (regBits r)) := by
  induction f using field_cases with
  | f0 | f1 | f4 => exact ⟨rfl, rfl⟩
  | f2 | f6 | f7 => exact fun _ => ⟨rfl, rfl⟩
  | f3 => cases r <;> exact fun _ => ⟨rfl, rfl⟩
  | f5 => cases r with
    | r0 | r1 => exact fun _ => ⟨rfl, rfl⟩
    | r2 | r3 => exact .inr ⟨rfl, by decide⟩

theorem decodeClass6_faithful :
    Faithful (firstByte f 6 (regBits r)) (decodeClass6 f.toNat r (regBits r)) := by
  induction f using field_cases with
  | f4 | f5 => cases r <;> exact fun b1 => ⟨rfl, encodeR_relArg _ 6 _ b1⟩
  | f0 | f1 | f2 | f3 | f6 | f7 => exact fun b1 => ⟨rfl, encodeR_relArg _ 6 (regBits r) b1⟩

theorem decodeClass7_faithful :
    Faithful (firstByte f 7 (regBits r)) (decodeClass7 f.toNat r (regBits r)) := by
  induction f using field_cases with
  | f4 | f5 => cases r <;> exact fun b1 b2 => ⟨rfl, encodeB_braArg _ 7 _ b1 b2⟩
  | f0 | f1 | f2 | f3 | f6 | f7 => exact fun b1 b2 => ⟨rfl, encodeB_braArg _ 7 (regBits r) b1 b2⟩

theorem decodeFirst_firstByte_faithful (c : BitVec 3) :
    Faithful (firstByte f c (regBits r)) (decodeFirst (firstByte f c (regBits r))) := by
  induction c using field_cases with
  | f0 => exact decodeFirst_class0 f r ▸ decodeClass0_faithful f r
  | f1 => exact decodeFirst_class1 f r ▸ decodeClass1_faithful f r
  | f2 => exact decodeFirst_class2 f r ▸ decodeClass2_faithful f r
  | f3 => exact decodeFirst_class3 f r ▸ decodeClass3_faithful f r
  | f4 => exact decodeFirst_class4 f r ▸ decodeClass4_faithful f r
  | f5 => exact decodeFirst_class5 f r ▸ decodeClass5_faithful f r
  | f6 => exact decodeFirst_class6 f r ▸ decodeClass6_faithful f r
  | f7 => exact decodeFirst_class7 f r ▸ decodeClass7_faithful f r

end

theorem decodeFirst_faithful (b0 : Byte) : Faithful b0 (decodeFirst b0) := by
  obtain ⟨r, hr⟩ := regBits_surjective (b0.extractLsb' 0 2)
  have h := decodeFirst_firstByte_faithful (b0.extractLsb' 5 3) r (b0.extractLsb' 2 3)
  rwa [hr, firstByte_fields] at h

/-- Settles O2: the three lengths, each with the faithful answer to its byte 0. -/
theorem decodedBytesReencode : Obligations.DecodedBytesReencode := by
  intro bs i rest hd
  rcases decode_ok_cases hd with ⟨b0, rfl, h0⟩ | ⟨b0, b1, g, rfl, h0, rfl⟩ | ⟨b0, b1, b2, g, rfl, h0, rfl⟩
  · obtain ⟨hwf, he⟩ : Faithful b0 (.ok (.one i)) := h0 ▸ decodeFirst_faithful b0
    exact ⟨hwf, by rw [he]; rfl⟩
  · have hg : Faithful b0 (.ok (.two g)) := h0 ▸ decodeFirst_faithful b0
    obtain ⟨hwf, he⟩ := hg b1
    exact ⟨hwf, by rw [he]; rfl⟩
  · have hg : Faithful b0 (.ok (.three g)) := h0 ▸ decodeFirst_faithful b0
    obtain ⟨hwf, he⟩ := hg b1 b2
    exact ⟨hwf, by rw [he]; rfl⟩

/-! ## The map of byte 0 -/

/-- Only the indeterminate code and the undefined codes are refused. -/
theorem decodeFirst_defined {b0 : Byte} (hz : b0 ≠ 0) (hu : b0 ∉ undefinedCodes) : ∃ shape, decodeFirst b0 = .ok shape := by
  have hf := decodeFirst_faithful b0
  cases h : decodeFirst b0 with
  | ok shape => exact ⟨shape, rfl⟩
  | error e =>
    rw [h] at hf
    rcases hf with ⟨-, h0⟩ | ⟨-, hm⟩
    · exact absurd h0 hz
    · exact absurd hm hu

theorem decodeFirst_undefined {b0 : Byte} (h : b0 ∈ undefinedCodes) : decodeFirst b0 = .error (.undefined b0) := by
  simp only [undefinedCodes, List.mem_cons, List.not_mem_nil, or_false] at h
  rcases h with rfl | rfl | rfl | rfl | rfl | rfl | rfl | rfl | rfl | rfl <;> rfl

/-- Three bytes are enough for every instruction. -/
theorem decode_three_of_shape {b0 : Byte} {shape : Shape} (h : decodeFirst b0 = .ok shape) (b1 b2 : Byte) :
    ∃ i rest, decode [b0, b1, b2] = .ok (i, rest) := by
  cases shape with
  | one i => exact ⟨i, [b1, b2], by simp [decode, h]⟩
  | two g => exact ⟨g b1, [b2], by simp [decode, h]⟩
  | three g => exact ⟨g b1 b2, [], by simp [decode, h]⟩

/-- Settles O3: the refused codes one by one, and for the others the shape that byte 0 has. -/
theorem firstByteMap : Obligations.FirstByteMap := by
  intro b0 b1 b2
  refine ⟨?_, fun hu => ?_, fun hz hu => ?_⟩
  · rintro rfl
    rfl
  · simp [decode, decodeFirst_undefined hu]
  · obtain ⟨shape, hs⟩ := decodeFirst_defined hz hu
    obtain ⟨i, rest, hd⟩ := decode_three_of_shape hs b1 b2
    exact ⟨i, rest, hd, (decodedBytesReencode _ i rest hd).1⟩

/-- Settles O4: the words of R98 evaluated, one of each format and addressing mode. -/
theorem specWordsDecode : Obligations.SpecWordsDecode :=
  ⟨rfl, rfl, rfl, rfl, rfl, rfl, rfl, rfl, rfl, rfl, rfl, rfl, rfl, rfl⟩

end Sys2Proof.Machine
end

section
/-! PROOF. Load and store (40_load_store R101 to R107): what a load writes, what a store writes, and each instruction as one
of the two over its operand form. -/

namespace Sys2Proof.Machine

/-! ## Loads -/

/-- A load with CC by the ranges of 10_state R20, over a state that has the PSL of `s`. -/
theorem loadReg_result_ccOfRange (r : Reg) (v : Byte) {s u : State} (h : u.psl = s.psl) :
    RegResult r v { s.psl with cc := ccOfRange v } u (loadReg r v u) := by
  rw [← h, ← signCC_eq_ccOfRange]
  exact loadReg_result r v u

/-- The reading of an absolute operand writes no flag, the update of the index register included (20_memory R53). -/
theorem BusOnly_stepIndex_psl {r : Reg} {ctl : IndexControl} {s u : State} (h : BusOnly (stepIndex r ctl s) u) :
    u.psl = s.psl :=
  (BusOnly_psl h).trans (stepIndex_psl r ctl s)

/-- Settles O20: each of the three is a load, from a register or of the immediate byte. -/
theorem registerLoads : Obligations.RegisterLoads := by
  intro r v s
  have load (d : Reg) (w : Byte) := loadReg_result_ccOfRange d w (rfl : s.psl = s.psl)
  exact ⟨fun _ => ⟨_, rfl, load .r0 (readReg r s)⟩, ⟨_, rfl, load r v⟩, fun _ => ⟨_, rfl, load r (readReg .r0 s)⟩⟩

/-- Settles O21: a load of the operand byte, over the state that the reading of the operand leaves. -/
theorem memoryLoads : Obligations.MemoryLoads := by
  refine ⟨fun r o s a m s' h => ?_, fun r d o s a m s' h => ?_⟩
  · have hb := RelOperand_busOnly h
    exact ⟨hb, loadReg r m s', withRel_of_operand h, loadReg_result_ccOfRange r m (BusOnly_psl hb)⟩
  · obtain ⟨hd, hb⟩ := AbsOperandIs_cases h
    exact ⟨hd, hb, loadReg d m s', withAbs_of_operand h, loadReg_result_ccOfRange d m (BusOnly_stepIndex_psl hb)⟩

/-! ## Stores -/

/-- The write that ends a store, in a state that has the memory of `s`: where the platform answers it completes, and does
what `Stored` says. -/
theorem finish_memWrite_stored {a : Addr} (v : Byte) {s u : State} (hc : Canonical s) (hm : SameMemory s u)
    (ha : kindAt s.platform a ≠ .absent) : ∃ t, finish (memWrite a v u) = .next t ∧ Stored a v u t := by
  rw [← hm.kindAt] at ha
  obtain ⟨t, ht⟩ := (memWrite_completes a v u).2 ha
  exact ⟨t, (finish_next _ t).2 ht, memWrite_stored (hm.canonical hc) ht⟩

/-- STRR as the write at its address, of the register as it was before the address was formed. -/
theorem execStrr_eq_write (r : Reg) {o : RelArg} {s u : State} {a : Addr} (h : eaRel o s = .ok (a, u)) :
    execStrr r o s = finish (memWrite a (readReg r s) u) := by
  rw [execStrr, Res_bind_of_ok h, BusOnly_readReg (eaRel_busOnly h)]

/-- STRA as the write at its address, of the data register as it is after the index register was stepped. -/
theorem execStra_eq_write {r d : Reg} {o : AbsArg} {s u : State} {a : Addr} (h : eaAbs r o s = .ok ⟨a, d, u⟩) :
    execStra r o s = finish (memWrite a (readReg d u) u) := by
  rw [execStra, Res_bind_of_ok h]

/-- Settles O22: the forming of the address keeps memory, so the write is made on the memory of `s`. -/
theorem relativeStore : Obligations.RelativeStore := by
  intro r o s a s' hc h ha
  have hb : BusOnly s s' := eaRel_busOnly h
  refine ⟨hb, ?_⟩
  rw [exec, execStrr_eq_write r h]
  exact finish_memWrite_stored _ hc (.of_busOnly hb) ha

/-- Settles O23: neither the update of the index register nor the forming of the address changes memory, so the write is
made on the memory of `s`. -/
theorem absoluteStore : Obligations.AbsoluteStore := by
  intro r d o s a s' hc h ha
  have hb : BusOnly (stepIndex r o.ctl s) s' := eaAbs_busOnly h
  have hm : SameMemory s s' := (SameMemory.stepIndex r o.ctl s).trans (.of_busOnly hb)
  obtain ⟨-, -, hd, -⟩ := eaAbs_ok h
  refine ⟨hd, hb, ?_⟩
  rw [exec, execStra_eq_write h]
  exact finish_memWrite_stored _ hc hm ha

end Sys2Proof.Machine
end

section
/-! PROOF. Add, subtract and decimal adjust (41_arithmetic R110 to R120): the adder's outputs in exact arithmetic, a subtraction
as an addition of the complement, and each instruction as one of the three over its operand form. -/

namespace Sys2Proof.Machine

/-! ## The adder in exact arithmetic -/

/-- Two bytes of one sign whose sum has the other sign are those whose exact sum is no two's complement byte. -/
theorem adder_ovf (x y : Byte) (cin : Bool) :
    (adder x y cin).ovf =
      decide (x.toInt + y.toInt + cin.toNat < -128 ∨ 127 < x.toInt + y.toInt + cin.toNat) := by
  have hc := cin.toNat_le
  have hr := BitVec.toNat_ofNat (x.toNat + y.toNat + cin.toNat) 8
  rw [Bool.eq_iff_iff]
  simp only [adder, BitVec.msb_eq_decide, BitVec.toInt_eq_toNat_cond, hr, Bool.and_eq_true, beq_iff_eq, bne_iff_ne, ne_eq,
    decide_eq_decide, decide_eq_true_eq]
  omega

theorem toNat_wc_and_c (p : Psl) : (p.wc && p.c).toNat = carryIn p := by
  cases h : p.wc && p.c <;> simp [carryIn, h]

/-- The carry that a subtraction gives to the adder is the complement of the borrow. -/
theorem toNat_notWc_or_c (p : Psl) : (!p.wc || p.c).toNat + borrowIn p = 1 := by
  cases hw : p.wc <;> cases hc : p.c <;> simp [borrowIn, hw, hc]

/-- `f` gives the byte `v` and, once its outputs are in the PSL, the PSL `q`. -/
def AluComputes (f : Psl → Byte → Byte → AluOut) (v : Psl → Byte → Byte → Byte) (q : Psl → Byte → Byte → Psl) : Prop :=
  ∀ p x y, (f p x y).value = v p x y ∧ pslAfterAlu p (f p x y) = q p x y

/-- The PSL after an add or subtract, with CC by the ranges of 10_state R20. -/
theorem pslAfterAlu_eq {p : Psl} {a : AluOut} {v : Byte} {c i o : Bool} (hv : a.value = v) (hc : a.c = c) (hi : a.idc = i)
    (ho : a.ovf = o) : pslAfterAlu p a = { p with cc := ccOfRange v, c := c, idc := i, ovf := o } := by
  rw [pslAfterAlu, signCC_eq_ccOfRange, hv, hc, hi, ho]

/-- The add is the adder with the carry that WC lets in. -/
theorem add8_computes : AluComputes add8 sumByte sumPsl := by
  intro p x y
  have hcarry := toNat_wc_and_c p
  have hv : (add8 p x y).value = sumByte p x y := by rw [add8, adder, sumByte, hcarry]
  refine ⟨hv, pslAfterAlu_eq hv ?_ ?_ ?_⟩
  · rw [add8, adder, hcarry]
  · rw [add8, adder, hcarry]
  · rw [add8, adder_ovf, hcarry]

/-- The subtract is the adder on the complement of `y`, which is `255 - y` as a number and `-1 - y` in two's complement. -/
theorem sub8_computes : AluComputes sub8 diffByte diffPsl := by
  intro p x y
  have hcarry := toNat_notWc_or_c p
  have hnat : (~~~y).toNat = 255 - y.toNat := BitVec.toNat_not
  have hint : (~~~y).toInt = -1 - y.toInt := by
    rw [BitVec.toInt_eq_toNat_cond, BitVec.toInt_eq_toNat_cond, hnat]
    omega
  have hv : (sub8 p x y).value = diffByte p x y := by
    apply BitVec.eq_of_toNat_eq
    simp only [sub8, adder, diffByte, hnat, BitVec.toNat_ofNat, BitVec.toNat_ofInt]
    omega
  refine ⟨hv, pslAfterAlu_eq hv ?_ ?_ ?_⟩
  · simp only [sub8, adder, hnat, decide_eq_decide]
    omega
  · simp only [sub8, adder, hnat, decide_eq_decide]
    omega
  · rw [sub8, adder_ovf, hint, decide_eq_decide]
    omega

/-! ## The instructions -/

section Arith

variable {f : Psl → Byte → Byte → AluOut} {v : Psl → Byte → Byte → Byte} {q : Psl → Byte → Byte → Psl}

/-- What an add or subtract does in a state that has the PSL of `s`. -/
theorem AluComputes.arith_result (hf : AluComputes f v q) (r : Reg) (y : Byte) {s u : State} (h : u.psl = s.psl) :
    RegResult r (v s.psl (readReg r u) y) (q s.psl (readReg r u) y) u (arith f r y u) := by
  obtain ⟨hv, hq⟩ := hf s.psl (readReg r u) y
  rw [← hv, ← hq, ← h]
  exact Machine.arith_result f r y u

/-- The first operand of a relative form is the register as it was before the operand was read. -/
theorem AluComputes.withRel_result (hf : AluComputes f v q) (r : Reg) {o : RelArg} {s u : State} {a : Addr} {m : Byte}
    (h : RelOperand o s a m u) :
    ∃ t, withRel (arith f) r o s = .next t ∧ RegResult r (v s.psl (readReg r s) m) (q s.psl (readReg r s) m) u t := by
  have hb := RelOperand_busOnly h
  refine ⟨arith f r m u, withRel_of_operand h, ?_⟩
  rw [← BusOnly_readReg hb]
  exact hf.arith_result r m (BusOnly_psl hb)

/-- The first operand of an absolute form is the data register as it is after the index register was stepped. -/
theorem AluComputes.withAbs_result (hf : AluComputes f v q) {r d : Reg} {o : AbsArg} {s u : State} {a : Addr} {m : Byte}
    (h : AbsOperandIs r o s a d m u) :
    ∃ t, withAbs (arith f) r o s = .next t ∧ RegResult d (v s.psl (readReg d u) m) (q s.psl (readReg d u) m) u t := by
  obtain ⟨-, hb⟩ := AbsOperandIs_cases h
  exact ⟨arith f d m u, withAbs_of_operand h, hf.arith_result d m (BusOnly_stepIndex_psl hb)⟩

end Arith

/-- Settles O24: the exact arithmetic of the adder and the subtracter, and the four forms whose operand is a register or the
immediate byte. -/
theorem adderRule : Obligations.AdderRule := by
  refine ⟨fun p x y => ?_, fun r y s => ?_⟩
  · obtain ⟨addValue, addPsl⟩ := add8_computes p x y
    obtain ⟨subValue, subPsl⟩ := sub8_computes p x y
    exact ⟨addValue, addPsl, subValue, subPsl⟩
  · have add (d : Reg) (z : Byte) := add8_computes.arith_result d z (rfl : s.psl = s.psl)
    have sub (d : Reg) (z : Byte) := sub8_computes.arith_result d z (rfl : s.psl = s.psl)
    exact ⟨⟨_, rfl, add .r0 (readReg r s)⟩, ⟨_, rfl, sub .r0 (readReg r s)⟩, ⟨_, rfl, add r y⟩, ⟨_, rfl, sub r y⟩⟩

/-- Settles O25: an add or subtract of the operand byte, over the state that the reading of the operand leaves. -/
theorem addSubMemory : Obligations.AddSubMemory := by
  refine ⟨fun r o s a m s' h => ?_, fun r d o s a m s' h => ?_⟩
  · exact ⟨RelOperand_busOnly h, add8_computes.withRel_result r h, sub8_computes.withRel_result r h⟩
  · obtain ⟨hd, hb⟩ := AbsOperandIs_cases h
    exact ⟨hd, hb, add8_computes.withAbs_result h, sub8_computes.withAbs_result h⟩

/-! ## Decimal adjust -/

namespace Dar

/-- Settles O26: with a defined CC a load of the adjusted byte; otherwise the same writes with a drawn CC. -/
theorem decimalAdjust : Obligations.DecimalAdjust := by
  intro r s
  rw [← decimalAdjust_eq, exec, execDar]
  refine ⟨fun h => ?_, fun h => ?_⟩
  · exact ⟨_, if_pos h, loadReg_result_ccOfRange r _ rfl⟩
  · exact ⟨freeCC s.draws, _, if_neg (by simp [h]), writeReg_setPsl_result r _ _ { s with draws := s.draws + 1 }⟩

end Dar

end Sys2Proof.Machine
end

section
/-! PROOF. The logical instructions (42_logical R125 to R137): what a register combined with a byte becomes, whatever the
operation on the two bytes, and each instruction as AND, OR or exclusive OR over its operand form. -/

namespace Sys2Proof.Machine

/-- What a logical operation does in a state that has the PSL of `s`: a load of the combined byte. -/
theorem logic_result_ccOfRange (op : Byte → Byte → Byte) (r : Reg) (y : Byte) {s u : State} (h : u.psl = s.psl) :
    RegResult r (op (readReg r u) y) { s.psl with cc := ccOfRange (op (readReg r u) y) } u (logic op r y u) :=
  loadReg_result_ccOfRange r _ h

/-- The first operand of a relative form is the register as it was before the operand was read. -/
theorem withRel_logic_result (op : Byte → Byte → Byte) (r : Reg) {o : RelArg} {s u : State} {a : Addr} {m : Byte}
    (h : RelOperand o s a m u) :
    ∃ t, withRel (logic op) r o s = .next t ∧
      RegResult r (op (readReg r s) m) { s.psl with cc := ccOfRange (op (readReg r s) m) } u t := by
  have hb := RelOperand_busOnly h
  refine ⟨logic op r m u, withRel_of_operand h, ?_⟩
  rw [← BusOnly_readReg hb]
  exact logic_result_ccOfRange op r m (BusOnly_psl hb)

/-- The first operand of an absolute form is the data register as it is after the index register was stepped. -/
theorem withAbs_logic_result (op : Byte → Byte → Byte) {r d : Reg} {o : AbsArg} {s u : State} {a : Addr} {m : Byte}
    (h : AbsOperandIs r o s a d m u) :
    ∃ t, withAbs (logic op) r o s = .next t ∧
      RegResult d (op (readReg d u) m) { s.psl with cc := ccOfRange (op (readReg d u) m) } u t := by
  obtain ⟨-, hb⟩ := AbsOperandIs_cases h
  exact ⟨logic op d m u, withAbs_of_operand h, logic_result_ccOfRange op d m (BusOnly_stepIndex_psl hb)⟩

/-- Settles O27: by operand form, each with AND, OR and exclusive OR for the operation. -/
theorem logicalInstructions : Obligations.LogicalInstructions := by
  refine ⟨fun r v s => ?_, fun r o s a m s' h => ?_, fun r d o s a m s' h => ?_⟩
  · have combine (op : Byte → Byte → Byte) (d : Reg) (y : Byte) := logic_result_ccOfRange op d y (rfl : s.psl = s.psl)
    exact ⟨fun _ => ⟨_, rfl, combine (· &&& ·) .r0 (readReg r s)⟩, ⟨_, rfl, combine (· ||| ·) .r0 (readReg r s)⟩,
      ⟨_, rfl, combine (· ^^^ ·) .r0 (readReg r s)⟩, ⟨_, rfl, combine (· &&& ·) r v⟩, ⟨_, rfl, combine (· ||| ·) r v⟩,
      ⟨_, rfl, combine (· ^^^ ·) r v⟩⟩
  · exact ⟨RelOperand_busOnly h, withRel_logic_result (· &&& ·) r h, withRel_logic_result (· ||| ·) r h,
      withRel_logic_result (· ^^^ ·) r h⟩
  · obtain ⟨hd, hb⟩ := AbsOperandIs_cases h
    exact ⟨hd, hb, withAbs_logic_result (· &&& ·) h, withAbs_logic_result (· ||| ·) h, withAbs_logic_result (· ^^^ ·) h⟩

end Sys2Proof.Machine
end

section
/-! PROOF. Compare and rotate (43_compare_rotate R140 to R147): a comparison as the exact order of two bytes over each
operand form, what a rotate writes with and without C, and the rotates as steps of a ring of eight or nine bits. -/

namespace Sys2Proof.Machine

/-! ## Compare -/

/-- What a comparison does in a state that has the PSL of `s`: a CC that tells the exact order, and nothing else. -/
theorem comparing_compared (r : Reg) (y : Byte) {s u : State} (h : u.psl = s.psl) :
    ∃ c, compared s.psl.com (readReg r u) y c ∧ comparing r y u = { u with psl := { s.psl with cc := c } } := by
  rw [← h]
  exact ⟨_, compareCC_compared u.psl.com (readReg r u) y, rfl⟩

/-- Settles O28: each of the four is a comparison, over the state that the reading of its operand leaves. -/
theorem compareInstructions : Obligations.CompareInstructions := by
  refine ⟨fun r v s => ?_, fun r o s a m s' h => ?_, fun r d o s a m s' h => ?_⟩
  · obtain ⟨c, hc, hz⟩ := comparing_compared .r0 (readReg r s) (rfl : s.psl = s.psl)
    obtain ⟨e, he, hi⟩ := comparing_compared r v (rfl : s.psl = s.psl)
    exact ⟨⟨c, hc, congrArg Host.Outcome.next hz⟩, e, he, congrArg Host.Outcome.next hi⟩
  · have hb := RelOperand_busOnly h
    obtain ⟨c, hc, ht⟩ := comparing_compared r m (BusOnly_psl hb)
    rw [BusOnly_readReg hb] at hc
    exact ⟨hb, c, hc, (withRel_of_operand h).trans (congrArg Host.Outcome.next ht)⟩
  · obtain ⟨hd, hb⟩ := AbsOperandIs_cases h
    obtain ⟨c, hc, ht⟩ := comparing_compared d m (BusOnly_stepIndex_psl hb)
    exact ⟨hd, hb, c, hc, (withAbs_of_operand h).trans (congrArg Host.Outcome.next ht)⟩

/-! ## What a rotate writes -/

/-- RRR in the spec's arithmetic: bit 0, or C with WC = 1, enters bit 7 (43_compare_rotate R145, R146). -/
theorem exec_rrr (r : Reg) (s : State) :
    exec (.rrr r) s = .next (rotateInto r
      (rotatedRight (if s.psl.wc then s.psl.c else (readReg r s).getLsbD 0) (readReg r s)) ((readReg r s).getLsbD 0) s) := by
  rw [exec, execRrr, rotrValue_eq]

/-- RRL in the spec's arithmetic: bit 7, or C with WC = 1, enters bit 0 (43_compare_rotate R145, R147). -/
theorem exec_rrl (r : Reg) (s : State) :
    exec (.rrl r) s = .next (rotateInto r
      (rotatedLeft (if s.psl.wc then s.psl.c else (readReg r s).getLsbD 7) (readReg r s)) ((readReg r s).getLsbD 7) s) := by
  rw [exec, execRrl, rotlValue_eq, msb_eq_bit_seven]

/-- With WC = 0 a rotate is a load. -/
theorem rotateInto_result_noCarry_ccOfRange (r : Reg) (res : Byte) (cout : Bool) {s : State} (hw : s.psl.wc = false) :
    RegResult r res { s.psl with cc := ccOfRange res } s (rotateInto r res cout s) := by
  rw [← signCC_eq_ccOfRange]
  exact rotateInto_result_noCarry r res cout s hw

/-- With WC = 1, where bit 7 changed or the platform clears OVF, a rotate tells in OVF whether bit 7 changed. -/
theorem rotateInto_result_carry (r : Reg) {res : Byte} (cout : Bool) {s : State} (hw : s.psl.wc = true)
    (ho : s.platform.rotateOvfClears = true ∨ res.getLsbD 7 ≠ (readReg r s).getLsbD 7) :
    RegResult r res (rotatePsl s.psl (readReg r s) res cout) s (rotateInto r res cout s) := by
  have heq : rotateInto r res cout s = (writeReg r res s).setPsl (rotatePsl s.psl (readReg r s) res cout) := by
    rw [rotateInto, if_pos hw, msb_eq_bit_seven, msb_eq_bit_seven, rotatePsl, ← signCC_eq_ccOfRange]
    cases hb : res.getLsbD 7 != (readReg r s).getLsbD 7 with
    | true => rfl
    | false =>
      have hclears : s.platform.rotateOvfClears = true := ho.resolve_right fun hne => hne (bne_eq_false_iff_eq.1 hb)
      rw [if_neg Bool.false_ne_true, if_pos hclears]
      rfl
  rw [heq]
  exact writeReg_setPsl_result r res _ s

/-- With WC = 1, where bit 7 stayed and the platform does not clear OVF, OVF is a free value. -/
theorem rotateInto_result_freeOvf (r : Reg) {res : Byte} (cout : Bool) {s : State} (hw : s.psl.wc = true)
    (ho : s.platform.rotateOvfClears = false) (hb : res.getLsbD 7 = (readReg r s).getLsbD 7) :
    RegResult r res { rotatePsl s.psl (readReg r s) res cout with ovf := freeBit s.draws } { s with draws := s.draws + 1 }
      (rotateInto r res cout s) := by
  have heq : rotateInto r res cout s = (writeReg r res { s with draws := s.draws + 1 }).setPsl
      { rotatePsl s.psl (readReg r s) res cout with ovf := freeBit s.draws } := by
    rw [rotateInto, if_pos hw, msb_eq_bit_seven, msb_eq_bit_seven, hb, bne_self_eq_false, if_neg Bool.false_ne_true, ho,
      if_neg Bool.false_ne_true, rotatePsl, ← signCC_eq_ccOfRange]
    rfl
  rw [heq]
  exact writeReg_setPsl_result r res _ _

/-- Settles O29: without C the bit that goes out is the bit that comes in. -/
theorem rotateWithoutCarry : Obligations.RotateWithoutCarry := by
  intro r s hw
  rw [exec_rrr, exec_rrl, hw]
  have result (res : Byte) (cout : Bool) := rotateInto_result_noCarry_ccOfRange r res cout hw
  exact ⟨⟨_, rfl, result _ _⟩, _, rfl, result _ _⟩

/-- Settles O30: C comes in; OVF by whether it tells the change of bit 7 or is free. -/
theorem rotateWithCarry : Obligations.RotateWithCarry := by
  rintro r s _ _ _ hw rfl rfl rfl
  rw [exec_rrr, exec_rrl, hw]
  exact ⟨fun ho => ⟨_, rfl, rotateInto_result_carry r _ hw ho⟩,
    fun ho => ⟨_, rfl, rotateInto_result_carry r _ hw ho⟩,
    fun ho hb => ⟨_, _, rfl, rotateInto_result_freeOvf r _ hw ho hb⟩,
    fun ho hb => ⟨_, _, rfl, rotateInto_result_freeOvf r _ hw ho hb⟩⟩

/-! ## The ring of bits that a rotate turns -/

theorem rotatedRight_getLsbD (b : Bool) (x : Byte) (k : Nat) :
    (rotatedRight b x).getLsbD k = if k = 7 then b else x.getLsbD (k + 1) := by
  rw [← ofBool_append_high, BitVec.getLsbD_append]
  simp only [BitVec.getLsbD_extractLsb', BitVec.getLsbD_ofBool]
  rcases lt_trichotomy k 7 with h | rfl | h
  · rw [if_pos h, if_neg h.ne, decide_eq_true h, Bool.true_and, Nat.add_comm]
  · rfl
  · rw [if_neg h.not_gt, if_neg h.ne', decide_eq_false (by omega), Bool.false_and,
      BitVec.getLsbD_of_ge x (k + 1) (by omega)]

theorem rotatedLeft_getLsbD (b : Bool) (x : Byte) (k : Nat) :
    (rotatedLeft b x).getLsbD k = if k = 0 then b else (decide (k < 8) && x.getLsbD (k - 1)) := by
  rw [← append_ofBool_low, BitVec.getLsbD_append]
  simp only [BitVec.getLsbD_extractLsb', BitVec.getLsbD_ofBool]
  cases k with
  | zero => rfl
  | succ k =>
    have hk : k + 1 < 8 ↔ k < 7 := by omega
    simp [hk]

/-- The lowest `n` of nine bits: those of register `r` from bit 0 up, then C. -/
def ringBit (n : Nat) (r : Reg) (s : State) (k : Fin n) : Bool := (BitVec.cons s.psl.c (readReg r s)).getLsbD k

/-- Each place of the ring of `n` bits holds in `t` what stood `d` places further on in `s`; the other registers, RS and WC
are those of `s`. -/
structure Turned (n : Nat) (d : Fin n) (r : Reg) (s t : State) : Prop where
  ring : ∀ k, ringBit n r t k = ringBit n r s (k + d)
  other : ∀ q, q ≠ r → regsRead s.psl.rs q t.regs = regsRead s.psl.rs q s.regs
  bank : bankOf (!s.psl.rs) t.regs = bankOf (!s.psl.rs) s.regs
  rs : t.psl.rs = s.psl.rs
  wc : t.psl.wc = s.psl.wc

section Turned

variable {n : Nat} {d e : Fin n} {r : Reg} {s t u : State}

/-- A rotate turns the ring when the C and the result that it writes are the turned bits. -/
theorem rotateInto_turned {res : Byte} {cout : Bool}
    (h : ∀ k : Fin n, (BitVec.cons (rotateInto r res cout s).psl.c res).getLsbD k = ringBit n r s (k + d)) :
    Turned n d r s (rotateInto r res cout s) where
  ring k := by rw [← h, ringBit, readReg, rotateInto_regs, rotateInto_psl_rs, regsRead_regsWrite, if_pos rfl]
  other q hq := by rw [rotateInto_regs, regsRead_regsWrite, if_neg hq]
  bank := by rw [rotateInto_regs, bankOf_not_regsWrite]
  rs := rotateInto_psl_rs r res cout s
  wc := rotateInto_psl_wc r res cout s

variable [NeZero n]

theorem Turned.refl : Turned n 0 r s s :=
  ⟨fun k => by rw [add_zero], fun _ _ => rfl, rfl, rfl, rfl⟩

theorem Turned.trans (h : Turned n d r s t) (h' : Turned n e r t u) : Turned n (e + d) r s u where
  ring k := by rw [h'.ring, h.ring, add_assoc]
  other q hq := by rw [← h.other q hq, ← h.rs, h'.other q hq]
  bank := by rw [← h.bank, ← h.rs, h'.bank]
  rs := h'.rs.trans h.rs
  wc := h'.wc.trans h.wc

/-- Once the bits stand where they stood, the register file is as it was. -/
theorem Turned.regs_eq (h : Turned n 0 r s t) (hn : 8 ≤ n) : t.regs = s.regs := by
  have hread : readReg r t = readReg r s := by
    refine BitVec.eq_of_getLsbD_eq fun k hk => ?_
    have hring := h.ring ⟨k, by omega⟩
    simpa [ringBit, BitVec.getLsbD_cons, hk.ne] using hring
  refine regs_ext_of_views s.psl.rs _ _ (fun q => ?_) h.bank
  by_cases hq : q = r
  · subst hq
    rw [readReg, readReg, h.rs] at hread
    exact hread
  · exact h.other q hq

/-- Once nine bits stand where they stood, C is as it was. -/
theorem Turned.carry_eq (h : Turned 9 0 r s t) : t.psl.c = s.psl.c := by
  have hring := h.ring 8
  rw [add_zero, ringBit, ringBit, BitVec.getLsbD_cons, BitVec.getLsbD_cons] at hring
  exact hring

/-- `i` turns the ring by `d` whenever WC is `w`. -/
def Turns (n : Nat) (d : Fin n) (r : Reg) (w : Bool) (i : Instr) : Prop :=
  ∀ s, s.psl.wc = w → ∃ t, exec i s = .next t ∧ Turned n d r s t

theorem Turns.iterate {w : Bool} {i : Instr} (h : Turns n d r w i) (m : Nat) :
    ∀ s, s.psl.wc = w → ∃ t, repeatExec i m s = .next t ∧ Turned n (m • d) r s t := by
  induction m with
  | zero => exact fun s _ => ⟨s, rfl, by rw [zero_nsmul]; exact .refl⟩
  | succ m ih =>
    intro s hs
    obtain ⟨t, ht, hst⟩ := h s hs
    obtain ⟨u, hu, htu⟩ := ih t (hst.wc.trans hs)
    exact ⟨u, by rw [repeatExec, ht]; exact hu, by rw [succ_nsmul]; exact hst.trans htu⟩

/-- As many steps as the ring has bits are a whole turn. -/
theorem Turns.whole_turn {w : Bool} {i : Instr} (h : Turns n d r w i) (hs : s.psl.wc = w) :
    ∃ t, repeatExec i n s = .next t ∧ Turned n 0 r s t := by
  have hd : n • d = 0 := by simpa only [Fintype.card_fin] using card_nsmul_eq_zero (x := d)
  rw [← hd]
  exact h.iterate n s hs

end Turned

/-! ## Whole turns -/

/-- With WC = 0 each bit of the register goes one place down, and bit 0 to the top. -/
theorem rrr_turns_eight (r : Reg) : Turns 8 1 r false (.rrr r) := by
  intro s hw
  refine ⟨_, exec_rrr r s, rotateInto_turned fun k => ?_⟩
  rw [hw]
  simp only [ringBit, BitVec.getLsbD_cons, rotatedRight_getLsbD]
  fin_cases k <;> rfl

/-- With WC = 0 each bit of the register goes one place up, and bit 7 to the bottom. -/
theorem rrl_turns_eight (r : Reg) : Turns 8 (-1) r false (.rrl r) := by
  intro s hw
  refine ⟨_, exec_rrl r s, rotateInto_turned fun k => ?_⟩
  rw [hw]
  simp only [ringBit, BitVec.getLsbD_cons, rotatedLeft_getLsbD]
  fin_cases k <;> rfl

/-- With WC = 1 C stands above bit 7 and each bit goes one place down, bit 0 to C. -/
theorem rrr_turns_nine (r : Reg) : Turns 9 1 r true (.rrr r) := by
  intro s hw
  refine ⟨_, exec_rrr r s, rotateInto_turned fun k => ?_⟩
  rw [hw, (rotateInto_psl_carry r _ _ s hw).1]
  simp only [ringBit, BitVec.getLsbD_cons, rotatedRight_getLsbD]
  fin_cases k <;> rfl

/-- With WC = 1 C stands above bit 7 and each bit goes one place up, C to bit 0. -/
theorem rrl_turns_nine (r : Reg) : Turns 9 (-1) r true (.rrl r) := by
  intro s hw
  refine ⟨_, exec_rrl r s, rotateInto_turned fun k => ?_⟩
  rw [hw, (rotateInto_psl_carry r _ _ s hw).1]
  simp only [ringBit, BitVec.getLsbD_cons, rotatedLeft_getLsbD]
  fin_cases k <;> rfl

/-- Settles O31: eight or nine equal steps of a ring of as many bits are a whole turn, in either direction. -/
theorem rotatesRestore : Obligations.RotatesRestore := by
  rintro r i s hi
  have eightBits : ∃ d, Turns 8 d r false i := by
    rcases hi with rfl | rfl
    · exact ⟨1, rrr_turns_eight r⟩
    · exact ⟨-1, rrl_turns_eight r⟩
  have nineBits : ∃ d, Turns 9 d r true i := by
    rcases hi with rfl | rfl
    · exact ⟨1, rrr_turns_nine r⟩
    · exact ⟨-1, rrl_turns_nine r⟩
  refine ⟨fun hw => ?_, fun hw => ?_⟩
  · obtain ⟨d, hd⟩ := eightBits
    obtain ⟨t, ht, hst⟩ := hd.whole_turn hw
    exact ⟨t, ht, hst.regs_eq le_rfl⟩
  · obtain ⟨d, hd⟩ := nineBits
    obtain ⟨t, ht, hst⟩ := hd.whole_turn hw
    exact ⟨t, ht, hst.regs_eq (by decide), hst.carry_eq⟩

end Sys2Proof.Machine
end

section
/-! PROOF. Program status (44_program_status R150 to R160, 48_misc R212): writes of the status bytes under a mask bit by bit,
stores of them as loads of R0, and tests under a mask. -/

namespace Sys2Proof.Machine

/-! ## Writes of the PSU -/

/-- F, II and SP stand in bits 6, 5 and 2 to 0 (10_state R14). -/
theorem psuOfByte_eq_fields (b : Byte) :
    psuOfByte b = { flag := b.getLsbD 6, ii := b.getLsbD 5, sp := BitVec.ofNat 3 (b.toNat % 8) } := by
  have hsp : b.extractLsb' 0 3 = BitVec.ofNat 3 (b.toNat % 8) := by
    refine BitVec.eq_of_toNat_eq ?_
    rw [BitVec.extractLsb'_toNat, BitVec.toNat_ofNat, Nat.shiftRight_zero, Nat.mod_mod]
  rw [psuOfByte, hsp]

/-- Ones set by a mask are set bit by bit (44_program_status R154). -/
theorem psuOfByte_or (x y : Byte) :
    psuOfByte (x ||| y) =
      { flag := (psuOfByte x).flag || (psuOfByte y).flag
        ii := (psuOfByte x).ii || (psuOfByte y).ii
        sp := (psuOfByte x).sp ||| (psuOfByte y).sp } := by
  simp only [psuOfByte, BitVec.extractLsb'_or, BitVec.getLsbD_or]

/-- Bits that a mask selects are cleared one by one (44_program_status R156). -/
theorem psuOfByte_and_not (x y : Byte) :
    psuOfByte (x &&& ~~~y) =
      { flag := (psuOfByte x).flag && !(psuOfByte y).flag
        ii := (psuOfByte x).ii && !(psuOfByte y).ii
        sp := (psuOfByte x).sp &&& ~~~(psuOfByte y).sp } := by
  have hsp : (~~~y).extractLsb' 0 3 = ~~~(y.extractLsb' 0 3) := BitVec.extractLsb'_not_of_lt (by decide)
  simp [psuOfByte, BitVec.extractLsb'_and, hsp]

/-- Settles O32: LPSU writes the fields of R0; the other two combine the fields of the PSU with those of the mask, whatever
SENSE is. -/
theorem upperStatusWrites : Obligations.UpperStatusWrites := by
  refine ⟨rfl, fun _ => rfl, fun _ => rfl, fun v s => ⟨?_, ?_, ?_⟩⟩
  · rw [exec, execLpsu, psuOfByte_eq_fields]
    rfl
  · rw [exec, execPpsu, psuOfByte_or, psuOfByte_psuByte, psuOfByte_eq_fields]
    rfl
  · rw [exec, execCpsu, psuOfByte_and_not, psuOfByte_psuByte, psuOfByte_eq_fields]
    rfl

/-! ## Writes of the PSL -/

/-- A write of the PSL leaves a PSL that reads as the byte written: all eight bits hold state (10_state R14). -/
theorem pslNumber_pslOfByte (b : Byte) : pslNumber (pslOfByte b) = b := by
  rw [pslNumber_eq, pslByte_pslOfByte]

/-- Settles O33: each of the three writes one byte to the PSL, R0 or the PSL under the mask. -/
theorem lowerStatusWrites : Obligations.LowerStatusWrites := by
  refine ⟨rfl, fun _ => rfl, fun _ => rfl, fun v s => ?_⟩
  rw [pslNumber_eq s.psl]
  exact ⟨⟨_, pslNumber_pslOfByte _, rfl⟩, ⟨_, pslNumber_pslOfByte _, rfl⟩, ⟨_, pslNumber_pslOfByte _, rfl⟩⟩

/-! ## Stores of the status bytes -/

/-- Settles O34: each of the two is a load of R0, SPSU's over the state after the sample; LPSL reads R0 back, and the PSL
is its byte. -/
theorem statusStores : Obligations.StatusStores := by
  refine ⟨rfl, rfl, fun s => ?_⟩
  rw [pslNumber_eq]
  refine ⟨⟨_, _, _, sampleSense_sample s, rfl, ?_⟩, ⟨_, rfl, loadReg_result_ccOfRange .r0 _ rfl⟩, _, _, rfl, rfl, ?_⟩
  · rw [psuNumber_eq]
    exact loadReg_result_ccOfRange .r0 _ (sampleSense_psl s)
  · rw [setPsl_psl, readReg_loadReg_same, pslOfByte_pslByte]

/-! ## Tests under a mask -/

/-- What a test does in a state that has the PSL of `s`: CC, and nothing else (44_program_status R158). -/
theorem setCC_testCC_tested (x m : Byte) {s u : State} (h : u.psl = s.psl) :
    ∃ c, tested x m c ∧ setCC (testCC x m) u = { u with psl := { s.psl with cc := c } } := by
  rw [← h]
  exact ⟨_, testCC_tested x m, rfl⟩

/-- Settles O35: each of the three is a test, TPSU's over the state after the sample. -/
theorem maskTests : Obligations.MaskTests := by
  intro r v s
  obtain ⟨cu, hcu, hu⟩ := setCC_testCC_tested (psuByte (sampleSense s).1 s.psu) v (sampleSense_psl s)
  obtain ⟨cl, hcl, hl⟩ := setCC_testCC_tested (pslByte s.psl) v (rfl : s.psl = s.psl)
  obtain ⟨cr, hcr, hr⟩ := setCC_testCC_tested (readReg r s) v (rfl : s.psl = s.psl)
  rw [← psuNumber_eq] at hcu
  rw [← pslNumber_eq] at hcl
  refine ⟨rfl, rfl, by cases r <;> rfl, ?_, ?_, ?_⟩
  · exact ⟨_, _, cu, sampleSense_sample s, hcu, congrArg Host.Outcome.next hu⟩
  · exact ⟨cl, hcl, congrArg Host.Outcome.next hl⟩
  · exact ⟨cr, hcr, congrArg Host.Outcome.next hr⟩

end Sys2Proof.Machine
end

section
/-! PROOF. The branch instructions (45_branch R165 to R180): where a condition or a stop of the effective address leads, and
a counting branch as the branch that its new register value decides. -/

namespace Sys2Proof.Machine

/-! ## Conditions that do not hold -/

/-- The condition of BCT fails on every other condition code, condition 3 excepted. -/
theorem condTrue_eq_false {v : Cond} {p : Psl} (h3 : v ≠ 3) (hcc : p.cc ≠ v) : condTrue v p = false :=
  Bool.eq_false_iff.2 fun h => ((condTrue_iff v p).1 h).elim h3 hcc

/-- The condition of BCF fails on its own condition code. -/
theorem condFalse_eq_false {v : Cond} {p : Psl} (hcc : p.cc = v) : condFalse v p = false :=
  Bool.eq_false_iff.2 fun h => (condFalse_iff v p).1 h hcc

/-! ## Counting branches -/

section Count

variable {r : Reg} {n d : Byte} {s u : State} {ea : State → Res (Addr × State)}

/-- A register result that keeps the PSL is the write of that register. -/
theorem RegResult_eq_writeReg (hu : RegResult r n s.psl s u) : u = writeReg r n s :=
  RegResult_unique hu (writeReg_setPsl_result r n s.psl s)

/-- A counting branch writes its register, then branches on the value written; the effective address is formed in the state
after the write (45_branch R173). -/
theorem countBranch_eq_branchWhen (hn : n = readReg r s + d) (hu : RegResult r n s.psl s u) :
    countBranch d r ea s = branchWhen (n != 0) ea u := by
  rw [countBranch, ← hn, RegResult_eq_writeReg hu]

theorem countBranch_untaken (hn : n = readReg r s + d) (hu : RegResult r n s.psl s u) (h0 : n = 0) :
    countBranch d r ea s = .next u := by
  rw [countBranch_eq_branchWhen hn hu]
  exact branchWhen_untaken (bne_eq_false_iff_eq.2 h0)

theorem countBranch_taken {a : Addr} {s' : State} (hn : n = readReg r s + d) (hu : RegResult r n s.psl s u) (h0 : n ≠ 0)
    (h : ea u = .ok (a, s')) : countBranch d r ea s = .next { s' with iar := a } := by
  rw [countBranch_eq_branchWhen hn hu]
  exact branchWhen_taken (bne_iff_ne.2 h0) h

end Count

/-! ## Branches whose address stops -/

theorem branchWhen_stops {c : Bool} {ea : State → Res (Addr × State)} {s : State} {e : Stop} (hc : c = true)
    (h : ea s = .error e) : branchWhen c ea s = finish (.error e) := by
  rw [branchWhen, if_pos hc, h]
  rfl

theorem callWhen_stops {c : Bool} {ea : State → Res (Addr × State)} {s : State} {e : Stop} (hc : c = true)
    (h : ea s = .error e) : callWhen c ea s = finish (.error e) := by
  rw [callWhen, if_pos hc, h]
  rfl

/-! ## The obligations -/

/-- Settles O43: each of the four is a branch on its condition, over its operand form. -/
theorem conditionalBranches : Obligations.ConditionalBranches := by
  refine ⟨fun v o s a s' h => ⟨eaRel_busOnly h, fun hv => ?bctr, fun _ hcc => ?bcfr⟩,
    fun v o s a s' h => ⟨eaBra_busOnly h, fun hv => ?bcta, fun _ hcc => ?bcfa⟩,
    fun v o o' s h3 => ⟨fun hcc => ?bct_untaken, fun hcc => ?bcf_untaken⟩⟩
  case bctr => exact branchWhen_taken ((condTrue_iff v s.psl).2 hv) h
  case bcfr => exact branchWhen_taken ((condFalse_iff v s.psl).2 hcc) h
  case bcta => exact branchWhen_taken ((condTrue_iff v s.psl).2 hv) h
  case bcfa => exact branchWhen_taken ((condFalse_iff v s.psl).2 hcc) h
  case bct_untaken =>
    have hc := condTrue_eq_false h3 hcc
    exact ⟨branchWhen_untaken hc, branchWhen_untaken hc⟩
  case bcf_untaken =>
    have hc := condFalse_eq_false hcc
    exact ⟨branchWhen_untaken hc, branchWhen_untaken hc⟩

/-- Settles O44: both forms branch on the register's value. -/
theorem registerBranches : Obligations.RegisterBranches := by
  refine fun r o o' s => ⟨fun hr a s' h => ?_, fun hr a s' h => ?_, fun hr => ?_⟩
  · exact ⟨eaRel_busOnly h, branchWhen_taken (bne_iff_ne.2 hr) h⟩
  · exact ⟨eaBra_busOnly h, branchWhen_taken (bne_iff_ne.2 hr) h⟩
  · have hc : (readReg r s != 0) = false := bne_eq_false_iff_eq.2 hr
    exact ⟨branchWhen_untaken hc, branchWhen_untaken hc⟩

/-- Settles O45: counting by 1 and by 255 modulo 256, each followed by the branch that the new value decides. -/
theorem countBranches : Obligations.CountBranches := by
  intro r o o' s u d up down hup hdown hu hd
  have hup : up = readReg r s + 1 := hup.trans (BitVec.add_def (readReg r s) 1).symm
  have hdown : down = readReg r s + -1 := hdown.trans (BitVec.add_def (readReg r s) (-1)).symm
  refine ⟨fun h0 => ?bir_untaken, fun h0 a s' h => ?birr, fun h0 a s' h => ?bira,
    fun h0 => ?bdr_untaken, fun h0 a s' h => ?bdrr, fun h0 a s' h => ?bdra⟩
  case bir_untaken => exact ⟨countBranch_untaken hup hu h0, countBranch_untaken hup hu h0⟩
  case birr => exact ⟨eaRel_busOnly h, countBranch_taken hup hu h0 h⟩
  case bira => exact ⟨eaBra_busOnly h, countBranch_taken hup hu h0 h⟩
  case bdr_untaken => exact ⟨countBranch_untaken hdown hd h0, countBranch_untaken hdown hd h0⟩
  case bdrr => exact ⟨eaRel_busOnly h, countBranch_taken hdown hd h0 h⟩
  case bdra => exact ⟨eaBra_busOnly h, countBranch_taken hdown hd h0 h⟩

/-- Settles O46: BXA goes to the indexed sum where the sum is formed, it and BSXA stop where the sum is refused, and ZBRR
goes to its zero-page address. -/
theorem unconditionalBranches : Obligations.UnconditionalBranches := by
  refine ⟨fun o s a s' h hw => ?_, fun o s a s' h hr hsum => ?_, fun o s a s' h => ?_⟩
  · exact ⟨eaBra_busOnly h, branchWhen_taken rfl (eaBx_inPage h hw)⟩
  · have hstop := eaBx_refused h hr hsum
    exact ⟨branchWhen_stops rfl hstop, callWhen_stops rfl hstop⟩
  · exact ⟨eaZero_busOnly h, branchWhen_taken rfl h⟩

end Sys2Proof.Machine
end

section
/-! PROOF. The subroutine instructions (46_subroutine R185 to R195): a conditional call over either operand form, and the
two returns in exact arithmetic. -/

namespace Sys2Proof.Machine

/-! ## Conditional calls -/

/-- A call on the condition of BST, and one on that of BSF, where the condition holds (46_subroutine R186 to R189). -/
theorem conditionalCall_taken {v : Cond} {s : State} {ea : State → Res (Addr × State)} {a : Addr} {s' : State}
    (h : ea s = .ok (a, s')) :
    ((v = 3 ∨ s.psl.cc = v) → ∃ t, callWhen (condTrue v s.psl) ea s = .next t ∧ Called a s' t) ∧
    (v ≠ 3 → s.psl.cc ≠ v → ∃ t, callWhen (condFalse v s.psl) ea s = .next t ∧ Called a s' t) :=
  ⟨fun hv => callWhen_taken ((condTrue_iff v s.psl).2 hv) h,
    fun _ hcc => callWhen_taken ((condFalse_iff v s.psl).2 hcc) h⟩

/-- Settles O48: BST and BSF are calls on a condition, over their operand forms; where the condition fails, the address is
not formed. -/
theorem conditionalCalls : Obligations.ConditionalCalls := by
  refine ⟨fun v o s a s' h => ⟨eaRel_busOnly h, conditionalCall_taken h⟩,
    fun v o s a s' h => ⟨eaBra_busOnly h, conditionalCall_taken h⟩,
    fun v o o' s h3 => ⟨fun hcc => ?bst_untaken, fun hcc => ?bsf_untaken⟩⟩
  case bst_untaken =>
    have hc := condTrue_eq_false h3 hcc
    exact ⟨callWhen_untaken hc, callWhen_untaken hc⟩
  case bsf_untaken =>
    have hc := condFalse_eq_false hcc
    exact ⟨callWhen_untaken hc, callWhen_untaken hc⟩

/-! ## Calls on a register and calls always taken -/

/-- Settles O49: BSN calls on the register's value, BSXA calls the indexed sum where the sum is formed, and ZBSR its
zero-page address. -/
theorem registerAndUnconditionalCalls : Obligations.RegisterAndUnconditionalCalls := by
  refine ⟨fun r o o' s => ⟨fun hr a s' h => ?bsnr, fun hr a s' h => ?bsna, fun hr => ?bsn_untaken⟩,
    fun o s a s' h hw => ?bsxa, fun o s a s' h => ?zbsr⟩
  case bsnr => exact ⟨eaRel_busOnly h, callWhen_taken (bne_iff_ne.2 hr) h⟩
  case bsna => exact ⟨eaBra_busOnly h, callWhen_taken (bne_iff_ne.2 hr) h⟩
  case bsn_untaken =>
    have hc : (readReg r s != 0) = false := bne_eq_false_iff_eq.2 hr
    exact ⟨callWhen_untaken hc, callWhen_untaken hc⟩
  case bsxa => exact ⟨eaBra_busOnly h, callWhen_taken rfl (eaBx_inPage h hw)⟩
  case zbsr => exact ⟨eaZero_busOnly h, callWhen_taken rfl h⟩

/-! ## Returns -/

/-- SP counts down on its ring of eight (92_eei_decisions D18). -/
theorem sub_one_eq_ofNat (sp : BitVec 3) : sp - 1 = BitVec.ofNat 3 (sp.toNat + 7) := by
  rw [BitVec.sub_def, add_comm]
  rfl

theorem returnPop_eq (s : State) :
    returnPop s = { s with
      iar := rasRead s.ras s.psu.sp
      psu := { s.psu with sp := BitVec.ofNat 3 (s.psu.sp.toNat + 7) } } := by
  rw [← sub_one_eq_ofNat]
  rfl

/-- The return of RETE is that of RETC with II cleared (46_subroutine R195). -/
theorem returnEnable_eq (s : State) :
    returnEnable s = { s with
      iar := rasRead s.ras s.psu.sp
      psu := { s.psu with ii := false, sp := BitVec.ofNat 3 (s.psu.sp.toNat + 7) } } := by
  rw [returnEnable, returnPop_eq]
  rfl

/-- Settles O50: each of the two is its return where the condition holds, and nothing where it fails. -/
theorem returns : Obligations.Returns := by
  refine fun v s => ⟨fun hv => ?taken, fun h3 hcc => ?untaken⟩
  case taken =>
    have hc := (condTrue_iff v s.psl).2 hv
    rw [← returnPop_eq, ← returnEnable_eq]
    exact ⟨by rw [exec, execRetc, if_pos hc], by rw [exec, execRete, if_pos hc]⟩
  case untaken =>
    have hc : ¬ condTrue v s.psl = true := Bool.eq_false_iff.1 (condTrue_eq_false h3 hcc)
    exact ⟨by rw [exec, execRetc, if_neg hc], by rw [exec, execRete, if_neg hc]⟩

end Sys2Proof.Machine
end

section
/-! PROOF. Input, output and NOP (47_io R200 to R207, 48_misc R211): a port read as a load of the byte on the data bus, a
port write as its event. -/

namespace Sys2Proof.Machine

/-! ## The data bus -/

/-- A byte on the data bus is no event by itself. -/
@[simp] theorem busByte_trace (s : State) : (busByte s).2.trace = s.trace := by
  unfold busByte
  split <;> rfl

/-- A port read is the byte on the data bus and its event on record (47_io R200). -/
theorem ioRead_eq (p : Port) (s : State) :
    ioRead p s = ((busByte s).1, { (busByte s).2 with trace := .ioRead p (busByte s).1 :: s.trace }) := by
  rw [ioRead, logEvent, busByte_trace]
  rfl

/-! ## The instructions -/

/-- A port read into a register is a load of the byte on the data bus. -/
theorem readPort_result (p : Port) (r : Reg) (s : State) :
    RegResult r (busByte s).1 { s.psl with cc := ccOfRange (busByte s).1 }
      { (busByte s).2 with trace := .ioRead p (busByte s).1 :: s.trace } (readPort p r s) := by
  rw [readPort, ioRead_eq]
  exact loadReg_result_ccOfRange r _ (busByte_psl s)

/-- Settles O52: each of the three reads is a load over the state after the bus read, each write an event. -/
theorem portTransfers : Obligations.PortTransfers := by
  intro r n s
  have read (p : Port) := readPort_result p r s
  exact ⟨⟨_, _, _, busByte_read s, rfl, read .data⟩, ⟨_, _, _, busByte_read s, rfl, read .ctrl⟩,
    ⟨_, _, _, busByte_read s, rfl, read (.ext n)⟩, rfl, rfl, rfl⟩

/-- Settles O53: the encoder, the decoder and the meaning evaluated. -/
theorem nopChangesNothing : Obligations.NopChangesNothing := ⟨rfl, rfl, fun _ => rfl⟩

end Sys2Proof.Machine
end

section
/-! PROOF. How an instruction can end (60_exceptions R220, R221): the two stops an operation can make, and every instruction
but HALT as one that makes one of them or keeps the run/wait condition. -/

namespace Sys2Proof.Machine

/-! ## The stops of operations -/

/-- The two stops that an instruction of the machine can end in on a platform (20_memory R53, R65; 92_eei_decisions D7,
D20). -/
inductive NamedStop (p : Platform) : Stop → Prop where
  | unanswered {a : Addr} (h : kindAt p a = .absent) : NamedStop p (.fault (.neverAcknowledged a))
  | refusedSum {a : Addr} (h : p.indexWrap = .refuse) : NamedStop p (.refuse (.indexedAcrossPage a))

/-- If `x` stops, then by one of the two stops on the platform of `s`. -/
def StopsNamed {α : Type} (s : State) (x : Res α) : Prop := ∀ e, x = .error e → NamedStop s.platform e

namespace StopsNamed

variable {α β : Type} {s u : State} {x : Res α}

theorem of_ok (s : State) (a : α) : StopsNamed s (.ok a) := nofun

theorem of_error {e : Stop} (h : NamedStop s.platform e) : StopsNamed s (.error e : Res α) := by
  rintro _ ⟨⟩
  exact h

theorem map (h : StopsNamed s x) (f : α → β) : StopsNamed s (x.map f) := by
  cases x with
  | ok a => exact of_ok s (f a)
  | error e => exact of_error (h e rfl)

theorem bind {f : α → Res β} (h : StopsNamed s x) (hf : ∀ a, x = .ok a → StopsNamed s (f a)) :
    StopsNamed s (x.bind f) := by
  cases x with
  | ok a => exact hf a rfl
  | error e => exact of_error (h e rfl)

theorem of_platform (h : StopsNamed u x) (hp : u.platform = s.platform) : StopsNamed s x := by
  rw [StopsNamed, ← hp]
  exact h

theorem of_busOnly (h : StopsNamed u x) (hb : BusOnly s u) : StopsNamed s x := h.of_platform (BusOnly_platform hb)

end StopsNamed

theorem memRead_stopsNamed (a : Addr) (s : State) : StopsNamed s (memRead a s) := by
  unfold memRead
  split
  · exact .of_ok s _
  · exact .of_ok s _
  · exact .of_ok s _
  next h => exact .of_error (.unanswered h)

theorem memWrite_stopsNamed (a : Addr) (v : Byte) (s : State) : StopsNamed s (memWrite a v s) := by
  unfold memWrite
  split
  · exact .of_ok s _
  · exact .of_ok s _
  · exact .of_ok s _
  next h => exact .of_error (.unanswered h)

theorem readIndirect_stopsNamed (p : Addr) (s : State) : StopsNamed s (readIndirect p s) :=
  (memRead_stopsNamed p s).bind fun hi h =>
    ((memRead_stopsNamed (nextAddr p) hi.2).of_busOnly (memRead_busOnly h)).map _

theorem resolve_stopsNamed (ind : Bool) (p : Addr) (s : State) : StopsNamed s (resolve ind p s) := by
  cases ind with
  | false => exact .of_ok s _
  | true => exact readIndirect_stopsNamed p s

theorem eaRel_stopsNamed (o : RelArg) (s : State) : StopsNamed s (eaRel o s) := resolve_stopsNamed _ _ s

theorem eaBra_stopsNamed (o : BraArg) (s : State) : StopsNamed s (eaBra o s) := resolve_stopsNamed _ _ s

theorem eaZero_stopsNamed (o : RelArg) (s : State) : StopsNamed s (eaZero o s) := resolve_stopsNamed _ _ s

theorem addIndex_stopsNamed (a : Addr) (x : Byte) (s : State) : StopsNamed s (addIndex a x s) := by
  unfold addIndex
  split
  next h => exact .of_error (.refusedSum h.1)
  · exact .of_ok s _

theorem eaBx_stopsNamed (o : BraArg) (s : State) : StopsNamed s (eaBx o s) :=
  (eaBra_stopsNamed o s).bind fun p h => ((addIndex_stopsNamed p.1 _ p.2).of_busOnly (eaBra_busOnly h)).map _

theorem eaAbs_stopsNamed (r : Reg) (o : AbsArg) (s : State) : StopsNamed s (eaAbs r o s) := by
  have hp := stepIndex_platform r o.ctl s
  refine ((resolve_stopsNamed _ _ _).of_platform hp).bind fun p h => ?_
  split
  · exact .of_ok s _
  · exact (((addIndex_stopsNamed p.1 _ p.2).of_busOnly (resolve_busOnly h)).of_platform hp).map _

theorem operandRel_stopsNamed (o : RelArg) (s : State) : StopsNamed s (operandRel o s) :=
  (eaRel_stopsNamed o s).bind fun p h => (memRead_stopsNamed p.1 p.2).of_busOnly (eaRel_busOnly h)

theorem operandAbs_stopsNamed (r : Reg) (o : AbsArg) (s : State) : StopsNamed s (operandAbs r o s) :=
  (eaAbs_stopsNamed r o s).bind fun p h =>
    (((memRead_stopsNamed p.addr p.state).of_busOnly (eaAbs_busOnly h)).of_platform (stepIndex_platform r o.ctl s)).map _

/-! ## Ordinary outcomes -/

/-- The outcome in state `s` of an instruction that does not halt: the run/wait condition is kept, or the machine stops by
one of the two stops. -/
def Ordinary (s : State) : Host.Outcome State Fault Refusal → Prop
  | .next t => t.mode = s.mode
  | .fault f => NamedStop s.platform (.fault f)
  | .refused r => NamedStop s.platform (.refuse r)

section Shapes

variable {s t u : State}

theorem Ordinary.next (h : t.mode = s.mode) : Ordinary s (.next t) := h

theorem finish_ordinary {x : Res State} (hx : StopsNamed s x) (hm : ∀ t, x = .ok t → t.mode = s.mode) :
    Ordinary s (finish x) := by
  rcases x with (f | r) | t
  · exact hx _ rfl
  · exact hx _ rfl
  · exact hm t rfl

theorem withRel_ordinary {f : Reg → Byte → State → State} (hf : ∀ q y u, (f q y u).mode = u.mode) (r : Reg)
    (o : RelArg) : Ordinary s (withRel f r o s) := by
  refine finish_ordinary ((operandRel_stopsNamed o s).map _) fun t h => ?_
  obtain ⟨x, hx, rfl⟩ := (Res_map_ok _ _ _).1 h
  rw [hf, BusOnly_mode (operandRel_busOnly hx)]

theorem withAbs_ordinary {f : Reg → Byte → State → State} (hf : ∀ q y u, (f q y u).mode = u.mode) (r : Reg)
    (o : AbsArg) : Ordinary s (withAbs f r o s) := by
  refine finish_ordinary ((operandAbs_stopsNamed r o s).map _) fun t h => ?_
  obtain ⟨x, hx, rfl⟩ := (Res_map_ok _ _ _).1 h
  rw [hf, BusOnly_mode (operandAbs_busOnly hx), stepIndex_mode]

theorem memWrite_mode {a : Addr} {v : Byte} (h : memWrite a v u = .ok t) : t.mode = u.mode := by
  rw [memWrite_only h]

theorem execStrr_ordinary (r : Reg) (o : RelArg) : Ordinary s (execStrr r o s) := by
  refine finish_ordinary ((eaRel_stopsNamed o s).bind fun p h =>
    (memWrite_stopsNamed p.1 _ p.2).of_busOnly (eaRel_busOnly h)) fun t h => ?_
  obtain ⟨p, hp, hw⟩ := (Res_bind_ok _ _ _).1 h
  rw [memWrite_mode hw, BusOnly_mode (eaRel_busOnly hp)]

theorem execStra_ordinary (r : Reg) (o : AbsArg) : Ordinary s (execStra r o s) := by
  refine finish_ordinary ((eaAbs_stopsNamed r o s).bind fun p h =>
    ((memWrite_stopsNamed p.addr _ p.state).of_busOnly (eaAbs_busOnly h)).of_platform (stepIndex_platform r o.ctl s))
    fun t h => ?_
  obtain ⟨p, hp, hw⟩ := (Res_bind_ok _ _ _).1 h
  rw [memWrite_mode hw, BusOnly_mode (eaAbs_busOnly hp), stepIndex_mode]

/-- A transfer of control to the address that `ea` forms. -/
theorem transfer_ordinary {ea : State → Res (Addr × State)} {go : Addr → State → State}
    (hgo : ∀ a u, (go a u).mode = u.mode) (hs : StopsNamed s (ea s)) (hb : ∀ {x}, ea s = .ok x → BusOnly s x.2) :
    Ordinary s (finish ((ea s).map fun x => go x.1 x.2)) := by
  refine finish_ordinary (hs.map _) fun t h => ?_
  obtain ⟨x, hx, rfl⟩ := (Res_map_ok _ _ _).1 h
  rw [hgo, BusOnly_mode (hb hx)]

theorem branchWhen_ordinary {ea : State → Res (Addr × State)} (c : Bool) (hs : StopsNamed s (ea s))
    (hb : ∀ {x}, ea s = .ok x → BusOnly s x.2) : Ordinary s (branchWhen c ea s) := by
  cases c with
  | false => exact .next rfl
  | true => exact transfer_ordinary (go := fun a u => u.setIar a) (fun _ _ => rfl) hs hb

theorem callWhen_ordinary {ea : State → Res (Addr × State)} (c : Bool) (hs : StopsNamed s (ea s))
    (hb : ∀ {x}, ea s = .ok x → BusOnly s x.2) : Ordinary s (callWhen c ea s) := by
  cases c with
  | false => exact .next rfl
  | true => exact transfer_ordinary callTo_mode hs hb

/-- The write of the counted register changes neither the platform nor the run/wait condition. -/
theorem countBranch_ordinary {ea : State → Res (Addr × State)} (d : Byte) (r : Reg) (hs : ∀ u, StopsNamed u (ea u))
    (hb : ∀ {u x}, ea u = .ok x → BusOnly u x.2) : Ordinary s (countBranch d r ea s) :=
  branchWhen_ordinary (s := writeReg r (readReg r s + d) s) _ (hs _) hb

theorem execDar_ordinary (r : Reg) : Ordinary s (execDar r s) := by
  rw [execDar]
  split <;> exact .next rfl

theorem ite_mode {c : Bool} (h : t.mode = s.mode) : (if c then t else s).mode = s.mode := by
  split
  · exact h
  · rfl

end Shapes

/-- Every instruction but HALT keeps the run/wait condition or makes one of the two stops. -/
theorem exec_ordinary {i : Instr} (hi : i ≠ .halt) (s : State) : Ordinary s (exec i s) := by
  cases i with
  | halt => exact absurd rfl hi
  | lodz | lodi | strz | addz | addi | subz | subi | andz | andi | iorz | iori | eorz | eori => exact .next rfl
  | comz | comi | lpsu | lpsl | spsl | ppsu | ppsl | cpsu | cpsl | tpsl | wrtd | wrtc | wrte | nop | tmi => exact .next rfl
  | lodr r o => exact withRel_ordinary loadReg_mode r o
  | loda r o => exact withAbs_ordinary loadReg_mode r o
  | strr r o => exact execStrr_ordinary r o
  | stra r o => exact execStra_ordinary r o
  | addr r o | subr r o => exact withRel_ordinary (arith_mode _) r o
  | adda r o | suba r o => exact withAbs_ordinary (arith_mode _) r o
  | dar r => exact execDar_ordinary r
  | andr r o | iorr r o | eorr r o => exact withRel_ordinary (logic_mode _) r o
  | anda r o | iora r o | eora r o => exact withAbs_ordinary (logic_mode _) r o
  | comr r o => exact withRel_ordinary comparing_mode r o
  | coma r o => exact withAbs_ordinary comparing_mode r o
  | rrr r | rrl r => exact .next (rotateInto_mode r _ _ s)
  | spsu | tpsu => exact .next (sampleSense_mode s)
  | redd r | redc r | rede r => exact .next (readPort_mode _ r s)
  | bctr _ o | bcfr _ o | brnr _ o => exact branchWhen_ordinary _ (eaRel_stopsNamed o s) eaRel_busOnly
  | bcta _ o | bcfa _ o | brna _ o => exact branchWhen_ordinary _ (eaBra_stopsNamed o s) eaBra_busOnly
  | birr r o | bdrr r o => exact countBranch_ordinary _ r (eaRel_stopsNamed o) eaRel_busOnly
  | bira r o | bdra r o => exact countBranch_ordinary _ r (eaBra_stopsNamed o) eaBra_busOnly
  | bxa o => exact branchWhen_ordinary true (eaBx_stopsNamed o s) eaBx_busOnly
  | zbrr o => exact branchWhen_ordinary true (eaZero_stopsNamed o s) eaZero_busOnly
  | bstr _ o | bsfr _ o | bsnr _ o => exact callWhen_ordinary _ (eaRel_stopsNamed o s) eaRel_busOnly
  | bsta _ o | bsfa _ o | bsna _ o => exact callWhen_ordinary _ (eaBra_stopsNamed o s) eaBra_busOnly
  | bsxa o => exact callWhen_ordinary true (eaBx_stopsNamed o s) eaBx_busOnly
  | zbsr o => exact callWhen_ordinary true (eaZero_stopsNamed o s) eaZero_busOnly
  | retc => exact .next (ite_mode (returnPop_mode s))
  | rete => exact .next (ite_mode (returnEnable_mode s))

/-- HALT makes no stop, so whatever stops an instruction is one of the two. -/
theorem exec_stop_named {i : Instr} {s : State} {e : Stop} (h : exec i s = finish (.error e)) :
    NamedStop s.platform e := by
  have hi : i ≠ .halt := by
    rintro rfl
    cases e <;> cases h
  have ho := exec_ordinary hi s
  rw [h] at ho
  cases e <;> exact ho

/-- Settles O7: the two stops taken apart. -/
theorem execStopsAreNamed : Obligations.ExecStopsAreNamed := by
  refine fun i s => ⟨fun f h => ?_, fun r h => ?_⟩
  · cases exec_stop_named (e := .fault f) h with
    | unanswered ha => exact ⟨_, rfl, ha⟩
  · cases exec_stop_named (e := .refuse r) h with
    | refusedSum hw => exact ⟨_, rfl, hw⟩

/-- Settles O8: neither of the two stops can be made on such a platform. -/
theorem allInstructionsComplete : Obligations.AllInstructionsComplete := by
  intro i s hm hw
  obtain ⟨faults, refusals⟩ := execStopsAreNamed i s
  cases h : exec i s with
  | next t => exact ⟨t, rfl⟩
  | fault f =>
    obtain ⟨a, -, ha⟩ := faults f h
    exact absurd ha (hm a)
  | refused r =>
    obtain ⟨-, -, hr⟩ := refusals r h
    exact nomatch hw.symm.trans hr

/-! ## The fetch of byte 0 -/

theorem fetchByte_stopsNamed (s : State) : StopsNamed s (fetchByte s) := (memRead_stopsNamed s.iar s).map _

theorem fetchInstr_undecoded {s t : State} {b0 : Byte} {e : DecodeError} (h0 : fetchByte s = .ok (b0, t))
    (hd : decodeFirst b0 = .error e) : fetchInstr s = .error (decodeStop b0 e) := by
  simp only [fetchInstr, h0, Except.bind, hd]

/-- Once byte 0 is decoded, the fetch can stop only at a byte that nothing answers. -/
theorem fetchInstr_decoded_stopsNamed {s t : State} {b0 : Byte} {shape : Shape} (h0 : fetchByte s = .ok (b0, t))
    (hd : decodeFirst b0 = .ok shape) : StopsNamed s (fetchInstr s) := by
  have keeps {u v : State} {b : Byte} (h : fetchByte u = .ok (b, v)) : v.platform = u.platform :=
    (SameMemory.of_fetchOnly (fetchByte_fetchOnly h)).platform
  cases shape with
  | one i =>
    rw [fetchInstr_one h0 hd]
    exact .of_ok s _
  | two g =>
    simp only [fetchInstr, h0, Except.bind, hd]
    exact ((fetchByte_stopsNamed t).of_platform (keeps h0)).map _
  | three g =>
    simp only [fetchInstr, h0, Except.bind, hd]
    refine StopsNamed.bind ((fetchByte_stopsNamed t).of_platform (keeps h0)) fun x1 h1 => ?_
    exact ((fetchByte_stopsNamed x1.2).of_platform ((keeps h1).trans (keeps h0))).map _

theorem step_of_fetchInstr_error {s : State} {e : Stop} (hs : Fetches s) (hf : fetchInstr (afterBoundary s) = .error e) :
    step s = finish (.error e) := by
  rw [step_fetches s hs, passBoundary_eq_afterBoundary, hf]
  cases e <;> rfl

section FirstByte

variable {s : State} (hs : Fetches s) (hp : Plain s s.iar)

include hp

/-- The byte 0 that the step fetches. -/
theorem fetchByte_afterBoundary :
    fetchByte (afterBoundary s) = .ok (peek s s.iar, (afterBoundary s).setIar (nextAddr s.iar)) :=
  fetchByte_plain (afterBoundary s) hp

include hs

theorem step_undecoded {e : DecodeError} (hd : decodeFirst (peek s s.iar) = .error e) :
    step s = finish (.error (decodeStop (peek s s.iar) e)) :=
  step_of_fetchInstr_error hs (fetchInstr_undecoded (fetchByte_afterBoundary hp) hd)

/-- A step whose byte 0 has a meaning faults only where nothing answers. -/
theorem step_decoded_fault {shape : Shape} (hd : decodeFirst (peek s s.iar) = .ok shape) {f : Fault}
    (h : step s = .fault f) : ∃ a, f = .neverAcknowledged a := by
  have hstops := fetchInstr_decoded_stopsNamed (fetchByte_afterBoundary hp) hd
  cases hf : fetchInstr (afterBoundary s) with
  | ok x =>
    rw [step_of_fetchInstr hs hf] at h
    cases exec_stop_named (e := .fault f) h with
    | unanswered => exact ⟨_, rfl⟩
  | error e =>
    rw [step_of_fetchInstr_error hs hf] at h
    cases hstops e hf with
    | unanswered => cases h; exact ⟨_, rfl⟩
    | refusedSum => cases h

theorem step_indeterminate (h0 : peek s s.iar = 0) : step s = .fault .indeterminateOpcode :=
  step_undecoded hs hp (e := .indeterminate) (by rw [h0]; rfl)

theorem step_undefined (hu : peek s s.iar ∈ undefinedCodes) : step s = .fault (.undefinedOpcode (peek s s.iar)) :=
  step_undecoded hs hp (decodeFirst_undefined hu)

theorem step_defined_fault (hz : peek s s.iar ≠ 0) (hu : peek s s.iar ∉ undefinedCodes) {f : Fault}
    (h : step s = .fault f) : ∃ a, f = .neverAcknowledged a := by
  obtain ⟨shape, hd⟩ := decodeFirst_defined hz hu
  exact step_decoded_fault hs hp hd h

end FirstByte

/-- Settles O6: the step on byte 0 = 0x00, on the undefined codes, and on the codes that have a meaning. -/
theorem undefinedCodesFault : Obligations.UndefinedCodesFault := by
  intro s hs hp
  refine ⟨⟨fun h => ?isZero, step_indeterminate hs hp⟩, fun b => ⟨fun h => ?isUndefined, ?undefinedStops⟩⟩
  case isZero =>
    by_contra hz
    by_cases hu : peek s s.iar ∈ undefinedCodes
    · exact nomatch (step_undefined hs hp hu).symm.trans h
    · obtain ⟨a, ⟨⟩⟩ := step_defined_fault hs hp hz hu h
  case isUndefined =>
    by_cases hz : peek s s.iar = 0
    · exact nomatch (step_indeterminate hs hp hz).symm.trans h
    by_cases hu : peek s s.iar ∈ undefinedCodes
    · cases (step_undefined hs hp hu).symm.trans h
      exact ⟨rfl, hu⟩
    · obtain ⟨a, ⟨⟩⟩ := step_defined_fault hs hp hz hu h
  case undefinedStops =>
    rintro ⟨rfl, hu⟩
    exact step_undefined hs hp hu

end Sys2Proof.Machine
end

section
/-! PROOF. The instruction boundary (60_exceptions R222 to R234, 70_reset_and_hazards R250): RESET, the wait, the request
that II holds off, interrupt entry as a call to the address the vector means, and its return. -/

namespace Sys2Proof.Machine

/-! ## What the pins lead to -/

section Pins

variable {s : State}

theorem step_of_reset (hr : (pinsNow s).reset = true) : step s = .next (resetEvent (passBoundary s)) := by
  rw [step, boundary, if_pos hr]

/-- A request that II lets through. -/
theorem step_of_request (hr : (pinsNow s).reset = false) (hi : (pinsNow s).intreq = true) (hii : s.psu.ii = false) :
    step s = finish (interrupt (afterBoundary s)) := by
  have hb : boundary s = (interrupt (afterBoundary s)).map .settled := by
    simp [boundary, hr, hi, hii, passBoundary_eq_afterBoundary]
  rw [step, hb]
  rcases interrupt (afterBoundary s) with (f | r) | t <;> rfl

/-- Without RESET and without a request that II lets through, the pins decide nothing. -/
theorem boundary_of_quiet (hr : (pinsNow s).reset = false) (hi : (pinsNow s).intreq = true → s.psu.ii = true) :
    boundary s =
      if s.mode = .waitHalt then .ok (.settled (passBoundary s))
      else (fetchInstr (passBoundary s)).map fun x => .run x.1 x.2 := by
  have hnone : ((pinsNow s).intreq && !s.psu.ii) = false := by
    cases hq : (pinsNow s).intreq with
    | false => rfl
    | true => rw [hi hq]; rfl
  simp only [boundary, hr, hnone, Bool.false_eq_true, if_false]

theorem step_of_wait (hm : s.mode = .waitHalt) (hr : (pinsNow s).reset = false)
    (hi : (pinsNow s).intreq = true → s.psu.ii = true) : step s = .next (afterBoundary s) := by
  rw [step, boundary_of_quiet hr hi, if_pos hm, passBoundary_eq_afterBoundary]

end Pins

/-- Settles O55: RESET sets the IAR, II and the run/wait condition, and draws the rest of the processor's state; the
passing of the boundary uses up its pin levels only. -/
theorem resetOverrides : Obligations.ResetOverrides := fun s hr =>
  ⟨_, step_of_reset hr, rfl, rfl, rfl, passBoundary_mem s, passBoundary_platform s, passBoundary_pins s,
    passBoundary_senseIn s, passBoundary_deviceIn s, passBoundary_trace s⟩

/-- Settles O58: with II = 1 both boundaries pass with nothing decided by the pins. -/
theorem interruptInhibited : Obligations.InterruptInhibited := by
  intro s l hii
  have requested := boundary_of_quiet (s := { s with pins := { reset := false, intreq := true } :: l }) rfl fun _ => hii
  have atRest := boundary_of_quiet (s := { s with pins := { reset := false, intreq := false } :: l }) rfl nofun
  rw [step, step, requested, atRest]
  rfl

/-! ## The wait -/

theorem interrupt_mode {s t : State} (h : interrupt s = .ok t) : t.mode = .run := by
  obtain ⟨a, u, -, -, rfl⟩ := interrupt_ok h
  rfl

theorem fetchInstr_mode {i : Instr} {s u : State} (h : fetchInstr s = .ok (i, u)) : u.mode = s.mode := by
  obtain ⟨hu, -⟩ := fetchInstr_fetchOnly h
  rw [show u = _ from hu]

/-- Only HALT changes the run/wait condition. -/
theorem exec_mode {i : Instr} {s t : State} (hi : i ≠ .halt) (h : exec i s = .next t) : t.mode = s.mode := by
  have ho := exec_ordinary hi s
  rwa [h] at ho

/-- Settles O56: what a halted machine does by its boundary, and the four things a step can have done. -/
theorem waitState : Obligations.WaitState := by
  refine ⟨fun _ => rfl, fun s hm hr hi => step_of_wait hm hr hi, fun s t hm h hrun => ?ends,
    fun s t hm h hwait => ?begins⟩
  case ends =>
    rcases step_cases h with ⟨hr, -⟩ | ⟨-, hi, hii, -⟩ | ⟨-, -, -, rfl⟩ | ⟨hf, -⟩
    · exact .inl hr
    · exact .inr ⟨hi, hii⟩
    · exact nomatch hm.symm.trans ((passBoundary_mode s).symm.trans hrun)
    · exact nomatch hm.symm.trans hf.1
  case begins =>
    rcases step_cases h with ⟨-, rfl⟩ | ⟨-, -, -, hint⟩ | ⟨-, -, hm', -⟩ | ⟨-, i, u, hf, he⟩
    · cases hwait
    · exact nomatch hwait.symm.trans (interrupt_mode hint)
    · exact nomatch hm.symm.trans hm'
    · rw [passBoundary_eq_afterBoundary] at hf
      have hu : u.mode = .run := (fetchInstr_mode hf).trans hm
      by_cases hi : i = .halt
      · exact ⟨u, hi ▸ hf⟩
      · exact nomatch hwait.symm.trans ((exec_mode hi he).trans hu)

/-! ## Interrupt entry -/

theorem busByte_setInhibit (b : Bool) (s : State) :
    busByte (setInhibit b s) = ((busByte s).1, setInhibit b (busByte s).2) := by
  obtain ⟨regs, psl, psu, iar, ras, mode, mem, platform, pins, senseIn, deviceIn, trace, draws⟩ := s
  cases deviceIn <;> rfl

/-- The zero-page operand that the next byte on the data bus is as a vector (60_exceptions R225, R226). -/
def vectorArg (s : State) : RelArg := relArg (busByte s).1

/-- The state in which interrupt entry calls: II set, the vector byte read, the machine running (60_exceptions R225,
R234). -/
def acknowledged (s : State) : State :=
  { (busByte s).2 with
    psu := { s.psu with ii := true }, mode := .run, trace := .intAck (busByte s).1 :: s.trace }

theorem intAckRead_setInhibit (s : State) :
    (intAckRead (setInhibit true s)).1 = (busByte s).1 ∧
    (intAckRead (setInhibit true s)).2.setMode .run = acknowledged s := by
  rw [intAckRead, busByte_setInhibit, acknowledged, ← busByte_psu s, ← busByte_trace s]
  exact ⟨rfl, rfl⟩

/-- Interrupt entry is a call to the address that the vector means. -/
theorem interrupt_eq_call {s : State} (h : (vectorArg s).ind = true → PlainPointer s (zeroBase (vectorArg s))) :
    interrupt s = .ok (callTo (meant (vectorArg s).ind s (zeroBase (vectorArg s))) (acknowledged s)) := by
  obtain ⟨hv, hack⟩ := intAckRead_setInhibit s
  have hm : SameMemory s (intAckRead (setInhibit true s)).2 := ⟨intAckRead_mem _, intAckRead_platform _⟩
  rw [← hack, interrupt, hv, eaZero_eq_resolve, ← vectorArg, resolve_plain fun hi => hm.plainPointer (h hi), hm.meant]
  rfl

/-- A request that II lets through is the call to the vector's address, direct or the pointer there as bit 7 of the vector
says (60_exceptions R226, R227). -/
theorem step_of_request_called {s : State} (hr : (pinsNow s).reset = false) (hi : (pinsNow s).intreq = true)
    (hii : s.psu.ii = false) {b : Bool} (hb : (busByte (afterBoundary s)).1.getLsbD 7 = b)
    (hp : b = true → PlainPointer s (zeroBase (vectorArg (afterBoundary s)))) :
    ∃ t, step s = .next t ∧
      Called (meant b s (zeroBase (vectorArg (afterBoundary s)))) (acknowledged (afterBoundary s)) t := by
  have hind : (vectorArg (afterBoundary s)).ind = b := (relArg_fields _).1.trans hb
  have hcall := interrupt_eq_call (s := afterBoundary s) fun h => hp (hind.symm.trans h)
  rw [hind] at hcall
  exact ⟨_, (step_of_request hr hi hii).trans (congrArg finish hcall), callTo_called _ _⟩

/-- Settles O57: the call for each value of the vector's indirect bit. -/
theorem interruptEntry : Obligations.InterruptEntry := by
  intro s hr hi hii
  have called {b : Bool} := step_of_request_called hr hi hii (b := b)
  exact ⟨_, _, acknowledged (afterBoundary s), busByte_read (afterBoundary s), rfl, fun hv => called hv nofun,
    fun hv hp => called hv fun _ => hp⟩

/-! ## The return from an interrupt -/

/-- A return after a call restores SP (46_subroutine R185). -/
theorem returnPop_callTo_psu (a : Addr) (s : State) : (returnPop (callTo a s)).psu = s.psu := by
  rw [returnPop_psu, callTo_psu, add_sub_cancel_right]

/-- Settles O59: the return undoes the call of the entry, for the IAR and SP, and clears II; the reads before the call
left the registers, the PSL and memory. -/
theorem interruptThenReturn : Obligations.InterruptThenReturn := by
  intro s t h
  obtain ⟨a, u, -, hu, rfl⟩ := interrupt_ok h
  have hregs := BusOnly_regs hu
  have hpsl := BusOnly_psl hu
  have hmem := BusOnly_mem hu
  have hiar := BusOnly_iar hu
  refine ⟨returnEnable ((callTo a u).setMode .run), rfl, ?_, ?_, hregs, hpsl, hmem, rfl⟩
  · exact (returnPop_callTo_iar a u).trans hiar
  · have hpsu : (returnPop (callTo a u)).psu = { s.psu with ii := true } :=
      (returnPop_callTo_psu a u).trans (BusOnly_psu hu)
    exact congrArg (fun p : Psu => { p with ii := false }) hpsu

end Sys2Proof.Machine
end
